-- ==== Sys2Proof/Word.lean ====
section
/-! DEFINITION. The words of the block (00_scope.md R8, R10, R11) and the levels of a line (R12). -/

namespace Sys2Proof

/-- A word of the buffer: 8 bits (R8). -/
abbrev Byte := BitVec 8

/-- The value of a register of the host port: 32 bits (R10). -/
abbrev Word := BitVec 32

/-- `Level` (R12). -/
inductive Level where
  | low
  | high
deriving DecidableEq, Repr, Inhabited

/-- `Level?` (R12): a level, or the block's record of a line whose level it does not know. -/
inductive LineLevel where
  | known (l : Level)
  | unknown
deriving DecidableEq, Repr, Inhabited

end Sys2Proof
end

