-- ==== Sys2Proof/Syntax.lean ====
section
/-! DEFINITION. The commands of the block (00_scope.md R3, 30_encoding.md R49): one constructor per row of the opcode table. -/

namespace Sys2Proof

/-- The clock polarity (10_state.md R21). -/
inductive Polarity where
  | idleLow
  | idleHigh
deriving DecidableEq, Repr, Inhabited

/-- A command word's meaning. The second operand (DELAY or BASE) is the register ARG, which the
command latches when it is issued (R48, R50), so it is no field here. -/
inductive Instr where
  /-- NEW (40_construction.md R58): presence of clock, data-in and data-out, and the polarity. -/
  | new (clkP dinP doutP : Bool) (cpol : Polarity)
  /-- WRITE (42_write.md R76): the number of words. -/
  | write (len : Nat)
  /-- TRANSFER (43_transfer.md R79): the number of words. -/
  | transfer (len : Nat)
deriving DecidableEq, Repr

end Sys2Proof
end

