-- ==== Sys2Proof/WellFormed.lean ====
section
/-! DEFINITION. Which commands the encoding can hold: LEN is 0 to 65535 (00_scope.md R10, 30_encoding.md R51). -/

namespace Sys2Proof

/-- A number of words that the 16-bit field LEN holds. -/
def lenFits (len : Nat) : Bool := decide (len < 65536)

/-- The command has an encoding. Every value of the four configuration bits of NEW is legal (R59). -/
def Instr.wf : Instr → Bool
  | .new _ _ _ _ => true
  | .write len => lenFits len
  | .transfer len => lenFits len

end Sys2Proof
end

