-- ==== Sys2Proof/Decode.lean ====
section
/-! DEFINITION. The decoder of 30_encoding.md R52, total on every 32-bit word, and the encoder of R49 and R56. -/

namespace Sys2Proof

/-- Why a word decodes to Illegal (R54). The hardware records no cause (R83); the names are the model's. -/
inductive DecodeError where
  /-- OP = 11. -/
  | reservedOp
  /-- A 1 in CMD[15:6]. -/
  | reservedBits
  /-- NEW with LEN ≠ 0. -/
  | newWithLen
  /-- WRITE or TRANSFER with a 1 in CMD[5:2]. -/
  | configBits
deriving DecidableEq, Repr

/-- OP, CMD[1:0] (R49). -/
def opField (c : Word) : BitVec 2 := c.extractLsb' 0 2

/-- The configuration bits CMD[5:2] (R49). -/
def configField (c : Word) : BitVec 4 := c.extractLsb' 2 4

/-- The reserved bits CMD[15:6] (R49). -/
def reservedField (c : Word) : BitVec 10 := c.extractLsb' 6 10

/-- LEN, CMD[31:16] (R49). -/
def lenField (c : Word) : BitVec 16 := c.extractLsb' 16 16

/-- CPOL as a polarity: 0 = IdleLow, 1 = IdleHigh (R49). -/
def polarityOfBit (b : Bool) : Polarity := if b then .idleHigh else .idleLow

/-- The bit of a polarity, the inverse of `polarityOfBit`. -/
def Polarity.bit : Polarity → Bool
  | .idleLow => false
  | .idleHigh => true

/-- The case OP = 00 of R52. -/
def decodeNew (c : Word) : Except DecodeError Instr :=
  if reservedField c ≠ 0 then .error .reservedBits
  else if lenField c ≠ 0 then .error .newWithLen
  else .ok (.new (c.getLsbD 2) (c.getLsbD 3) (c.getLsbD 4) (polarityOfBit (c.getLsbD 5)))

/-- The cases OP = 01 and OP = 10 of R52: CMD[15:2] = 0, and `mk` the command. -/
def decodeStream (mk : Nat → Instr) (c : Word) : Except DecodeError Instr :=
  if reservedField c ≠ 0 then .error .reservedBits
  else if configField c ≠ 0 then .error .configBits
  else .ok (mk (lenField c).toNat)

/-- `decode` (R52). -/
def decode (c : Word) : Except DecodeError Instr :=
  if opField c = 0#2 then decodeNew c
  else if opField c = 1#2 then decodeStream .write c
  else if opField c = 2#2 then decodeStream .transfer c
  else .error .reservedOp

/-- The command word of a command (R56): NEW is {16'b0, 10'b0, P, O, I, K, 2'b00}, WRITE is {N[15:0], 14'b0, 2'b01},
TRANSFER is {N[15:0], 14'b0, 2'b10}. -/
def encode : Instr → Word
  | .new k i o p =>
    0#16 ++ 0#10 ++ BitVec.ofBool p.bit ++ BitVec.ofBool o ++ BitVec.ofBool i ++ BitVec.ofBool k ++ 0#2
  | .write len => BitVec.ofNat 16 len ++ 0#14 ++ 1#2
  | .transfer len => BitVec.ofNat 16 len ++ 0#14 ++ 2#2

/-- The word that the host's table asks about: its lowest `nbits` bits are `w`, the others 0. A command is one
32-bit register write (R48), so no byte order arises (20_memory.md R36). -/
def tableWord (nbits w : Nat) : Word := BitVec.ofNat 32 (w % 2 ^ nbits)

/-- What the decoder reads from a word of the opcode table. -/
def decodeTableWord (nbits w : Nat) : Option Instr := (decode (tableWord nbits w)).toOption

end Sys2Proof
end

