-- ==== Sys2Proof/Config.lean ====
section
/-! DEFINITION. What the environment can answer (60_exceptions.md R99), the OPEN parameters of 00_scope.md R10 and the
free values of 93_implementation_defined.md, as constants with no body: no proof can see what they are. -/

namespace Sys2Proof

/-- The type of a data-in read failure value, the OPEN parameter `PinError` (R10).
DESIGN CHOICE (log entry 3): the failure values are numbered, and nothing but `Config.encodeErr` reads the number. -/
structure PinError where
  code : Nat
deriving DecidableEq, Repr, Inhabited

/-- The status of one drive (R14, R99). -/
inductive DriveStatus where
  | ok
  | fail
deriving DecidableEq, Repr, Inhabited

/-- The result of one read of the data-in line (R14, R99). -/
inductive ReadResult where
  | high
  | low
  | fail (e : PinError)
deriving DecidableEq, Repr, Inhabited

namespace Config

/-- BUF_SIZE - 1. As the parameter ranges over all 32-bit words, BUF_SIZE ranges over 1 to 2^32 (R10, U9). -/
opaque bufSizePred : BitVec 32

/-- The OPEN parameter BUF_SIZE, 1 ≤ BUF_SIZE ≤ 2^32 (R10). -/
def bufSize : Nat := bufSizePred.toNat + 1

/-- The OPEN parameter PIN_ERR_W, 0 ≤ PIN_ERR_W ≤ 32 (R10, U10). -/
opaque pinErrWidth : Fin 33

/-- PIN_ERR_W as a number. -/
def pinErrW : Nat := pinErrWidth.val

/-- The OPEN parameter `encodeErr : PinError -> bits(PIN_ERR_W)` (10_state.md R24, U10). -/
opaque encodeErr : PinError → BitVec pinErrW

/-- The OPEN parameter SAMPLE_WITHOUT_CLOCK (R10, D13, U11): claims hold for both values. -/
opaque sampleWithoutClock : Bool

/-- The status of a drive in a tick for which no answer is listed: any value (U8). -/
opaque freeDrive : Nat → DriveStatus

/-- The result of a read in a tick for which no answer is listed, or of a loopback read with nothing driven: any value (U7, U8). -/
opaque freeRead : Nat → ReadResult

/-- What the host reads, in a tick, from an unwritten byte or from the range a command is working on: any value (U1, U2). -/
opaque freeByte : Nat → Byte

end Config

end Sys2Proof
end

