-- ==== Sys2Proof/Machine/Memory.lean ====
section
/-! DEFINITION. The byte buffer BUF (10_state.md R29, 20_memory.md R32, R41): written bytes only, in one canonical form. -/

namespace Sys2Proof.Machine

/-- BUF: the bytes written since reset, addresses strictly rising. An address that is not listed has not been written
since reset (70_reset_and_hazards.md R104) and reads as no value, so that no listed entry equals what an unlisted address reads as. -/
abbrev Memory := List Host.Cell

/-- BUF[a], if it has been written since reset. -/
def Memory.read : Memory → Nat → Option Byte
  | [], _ => none
  | c :: m, a => if a = c.1 then some c.2 else Memory.read m a

/-- BUF[a] := v (20_memory.md R33), keeping the addresses in order. -/
def Memory.write : Memory → Nat → Byte → Memory
  | [], a, v => [(a, v)]
  | c :: m, a, v =>
    if a < c.1 then (a, v) :: c :: m
    else if a = c.1 then (a, v) :: m
    else c :: Memory.write m a v

/-- Every address of the list is at least `lo`, the addresses strictly rise, and each is below `size`. -/
def Memory.wfFrom (size : Nat) : Nat → Memory → Bool
  | _, [] => true
  | lo, c :: m => decide (lo ≤ c.1) && decide (c.1 < size) && Memory.wfFrom size (c.1 + 1) m

/-- The canonical form: strictly rising addresses, all of them addresses of BUF (R41). -/
def Memory.wf (m : Memory) : Bool := Memory.wfFrom Config.bufSize 0 m

end Sys2Proof.Machine
end

