-- ==== Sys2Proof/Machine/State.lean ====
section
/-! DEFINITION. Everything the spec gives the machine (10_state.md), the agents around it as plain data
(60_exceptions.md R98), and the state right after reset (70_reset_and_hazards.md R103). -/

namespace Sys2Proof.Machine

/-- A model outcome that is no hardware outcome (60_exceptions.md R102). Both are the spec's own model faults. -/
inductive Fault where
  /-- Raised by a DRIVE_DATA or a SAMPLE that reads a byte nothing has written since reset (R102.3). Safe: the hardware goes on. -/
  | unwrittenByte
  /-- Raised by a tick in which the host writes a byte of [BASE, BASE+LEN) while a WRITE or TRANSFER runs (R102.2). Safe: the hardware goes on. -/
  | hostWriteToRunningRange
deriving DecidableEq, Repr

/-- Why the model does not take a step. -/
inductive Refusal where
  /-- Answered by an arm of `exec` whose command has no meaning yet; no arm answers it. Safe. -/
  | notModelled (mnemonic : String)
  /-- Answered when the host writes CMD while STATUS.BUSY = 1 (R102.1, 70_reset_and_hazards.md R106). Safe: the hardware ignores the write. -/
  | cmdWhileBusy
deriving DecidableEq, Repr

/-- The configuration (10_state.md R20). -/
structure BusConfig where
  /-- CLK_P: a clock handle is present. -/
  clkP : Bool
  /-- DIN_P: a data-in handle is present. -/
  dinP : Bool
  /-- DOUT_P: a data-out handle is present. -/
  doutP : Bool
  /-- CPOL. -/
  cpol : Polarity
  /-- DELAY: busy-wait iterations per half pulse. -/
  delay : Word
  /-- CONFIGURED: a NEW has completed decode since reset. -/
  configured : Bool
deriving DecidableEq, Repr

/-- STATUS.RESULT (10_state.md R23). -/
inductive CmdResult where
  | none
  | ok
  | readFail
  | illegal
deriving DecidableEq, Repr

/-- OPR, the running command (10_state.md R26). -/
inductive Opr where
  | new
  | write
  | transfer
deriving DecidableEq, Repr

/-- PHASE (41_bit_engine.md R63); every value but `idle` is also the action performed in that phase. -/
inductive Phase where
  | idle
  | initClock
  | driveData
  | assertClock
  | activeWait
  | sample
  | deassertClock
  | idleWait
deriving DecidableEq, Repr

/-- The engine state (10_state.md R26). -/
structure Engine where
  opr : Opr
  base : Word
  len : BitVec 16
  widx : BitVec 16
  bidx : BitVec 3
  phase : Phase
  dcnt : Word
deriving DecidableEq, Repr

/-- The outputs of the pin port (10_state.md R28), as the last tick left them. A level register is `unknown` before its
first strobe after reset, when R28 leaves its value unspecified (93_implementation_defined.md U6, log entry 15). -/
structure PinOut where
  sclkO : LineLevel
  sclkStb : Bool
  mosiO : LineLevel
  mosiStb : Bool
  misoRd : Bool
deriving DecidableEq, Repr

/-- The two driven lines (00_scope.md R15). -/
inductive DrivenLine where
  | sclk
  | mosi
deriving DecidableEq, Repr

/-- One event of the pin event trace (10_state.md R30). -/
inductive Event where
  /-- `DriveEv(line, level, status)`. -/
  | drive (line : DrivenLine) (level : Level) (status : DriveStatus)
  /-- `ReadEv(result)`. -/
  | read (result : ReadResult)
  /-- `SpinEv`. -/
  | spin
deriving DecidableEq, Repr

/-- The eight registers of the host port, numbered 0 to 7 in this order (10_state.md R22). -/
inductive RegName where
  | cmd
  | arg
  | status
  | errval
  | cfg
  | delay
  | reserved6
  | reserved7
deriving DecidableEq, Repr

/-- The host's access to the register port in one tick (10_state.md R22, 20_memory.md R36: whole registers only). -/
inductive RegOp where
  | idle
  | read (r : RegName)
  | write (r : RegName) (v : Word)
deriving DecidableEq, Repr

/-- The host's access to the byte port in one tick (20_memory.md R33). -/
inductive BufOp where
  | idle
  | read (a : Word)
  | write (a : Word) (v : Byte)
deriving DecidableEq, Repr

/-- What the host does in one tick: the reset input, one register access and one byte access. -/
structure HostTick where
  rst : Bool
  reg : RegOp
  buf : BufOp
deriving DecidableEq, Repr

/-- The environment (60_exceptions.md R99). -/
inductive Env where
  /-- The answers to the coming drives and to the coming reads, in order; past the end of a list the answers are free values. -/
  | oracle (drives : List DriveStatus) (reads : List ReadResult)
  /-- The loopback of 43_transfer.md R81 and D31: every drive is ok, and a read gives the level MOSI was last driven to. -/
  | loopback
deriving DecidableEq, Repr

/-- The machine and the agents around it. -/
structure State where
  /-- CLK_P, DIN_P, DOUT_P, CPOL, DELAY, CONFIGURED (10_state.md R20). -/
  cfg : BusConfig
  /-- ARG, register 1 (R22). -/
  arg : Word
  /-- STATUS.BUSY (R23). -/
  busy : Bool
  /-- STATUS.RESULT (R23). -/
  result : CmdResult
  /-- ERRVAL, register 3 (R24). -/
  errval : Word
  /-- The engine (R26). -/
  eng : Engine
  /-- SCLK_LVL (R27). -/
  sclkLvl : LineLevel
  /-- MOSI_LVL (R27). -/
  mosiLvl : LineLevel
  /-- The pin port's outputs (R28). -/
  pins : PinOut
  /-- BUF (R29). -/
  buf : Memory
  /-- The pin event trace (R30), oldest first. -/
  trace : List Event
  /-- The read data of the byte port (20_memory.md R33): what the last byte read returned. -/
  bufRdata : Byte
  /-- What the last register read returned (the model's own field, log entry 14). -/
  regRdata : Word
  /-- `rst` in the previous tick (70_reset_and_hazards.md R103, log entry 12). -/
  rstLast : Bool
  /-- What the host does in the coming ticks, one entry a tick; past its end the host is idle (the model's own field, log entry 5). -/
  hostIn : List HostTick
  /-- The environment (the model's own field, log entry 4). -/
  env : Env
  /-- Ticks taken: the index of the free values (the model's own field, log entry 18). -/
  tick : Nat
deriving DecidableEq, Repr

/-- The configuration after reset (10_state.md R20). -/
def BusConfig.reset : BusConfig :=
  { clkP := false, dinP := false, doutP := false, cpol := .idleLow, delay := 0, configured := false }

/-- The engine after reset (10_state.md R26). -/
def Engine.reset : Engine :=
  { opr := .new, base := 0, len := 0, widx := 0, bidx := 7, phase := .idle, dcnt := 0 }

/-- The pin port after reset: no strobe (R103), the level registers unspecified (R28). -/
def PinOut.reset : PinOut :=
  { sclkO := .unknown, sclkStb := false, mosiO := .unknown, mosiStb := false, misoRd := false }

/-- The machine right after reset (70_reset_and_hazards.md R103, R104): the tick in which `rst` falls is over.
DESIGN CHOICE (log entries 4, 5, 14, 18): the values of the model's own fields and of the read data. -/
def State.reset : State :=
  { cfg := BusConfig.reset, arg := 0, busy := false, result := .none, errval := 0, eng := Engine.reset,
    sclkLvl := .unknown, mosiLvl := .unknown, pins := PinOut.reset, buf := [], trace := [],
    bufRdata := 0, regRdata := 0, rstLast := false, hostIn := [], env := .oracle [] [], tick := 0 }

end Sys2Proof.Machine
end

