-- ==== Sys2Proof/Machine/Operands.lean ====
section
/-! DEFINITION. The operands of the commands (30_encoding.md R50, R51), the bit and level functions of 00_scope.md R11 to R13
and 41_bit_engine.md R74, and the addresses of a command's words (20_memory.md R35, R37). -/

namespace Sys2Proof.Machine

/-- `idle_level(polarity)` (R13). -/
def idleLevel : Polarity → Level
  | .idleLow => .low
  | .idleHigh => .high

/-- `active_level(polarity)` (R13). -/
def activeLevel : Polarity → Level
  | .idleLow => .high
  | .idleHigh => .low

/-- `bitLevel(x)` (R12): 0 is Low and 1 is High, the mapping 90_conflicts.md C1 settles on. -/
def bitLevel (x : Bool) : Level := if x then .high else .low

/-- `1 << b`, one bit set (R11, R74). -/
def bitMask (b : BitVec 3) : Byte := 1#8 <<< b.toNat

/-- The level DRIVE_DATA drives for bit `b` of the word (R66). -/
def dataLevel (w : Byte) (b : BitVec 3) : Level := if w &&& bitMask b = 0 then .low else .high

/-- `w | (1 << b)` (R69). -/
def setBit (w : Byte) (b : BitVec 3) : Byte := w ||| bitMask b

/-- `w & ~(1 << b)` (R69). -/
def clearBit (w : Byte) (b : BitVec 3) : Byte := w &&& ~~~(bitMask b)

/-- The engine register LEN from the command's LEN (R51). -/
def lenOperand (len : Nat) : BitVec 16 := BitVec.ofNat 16 len

/-- The DELAY operand of NEW: ARG whole (R50). -/
def delayOperand (s : State) : Word := s.arg

/-- The BASE operand of WRITE and TRANSFER: ARG whole (R50). -/
def baseOperand (s : State) : Word := s.arg

/-- The range [base, base+len) lies in a buffer of `size` bytes, in unbounded integers (20_memory.md R37). -/
def rangeFits (size : Nat) (base : Word) (len : BitVec 16) : Bool := decide (base.toNat + len.toNat ≤ size)

/-- The address of word `i`: BASE + i without wrap-around (R35, R74). -/
def wordAddress (base : Word) (i : BitVec 16) : Nat := base.toNat + i.toNat

/-- The address `a` lies in [base, base+len) (R108). -/
def inRange (base : Word) (len : BitVec 16) (a : Nat) : Bool :=
  decide (base.toNat ≤ a) && decide (a < base.toNat + len.toNat)

/-- `miso_fail_i` of an answer (10_state.md R28). -/
def misoFailIn : ReadResult → Bool
  | .fail _ => true
  | .high => false
  | .low => false

/-- `miso_err_i[PIN_ERR_W-1:0]` of a failing answer (10_state.md R28, R24). -/
def misoErrIn : ReadResult → Option (BitVec Config.pinErrW)
  | .fail e => some (Config.encodeErr e)
  | .high => none
  | .low => none

end Sys2Proof.Machine
end

