-- ==== Sys2Proof/Machine/Flags.lean ====
section
/-! DEFINITION. The words the register port shows: STATUS (10_state.md R23), ERRVAL (R24), CFG (R25) and the register read (R22). -/

namespace Sys2Proof.Machine

/-- The code of an outcome (10_state.md R23, 60_exceptions.md R83). -/
def resultCode : CmdResult → BitVec 2
  | .none => 0b00#2
  | .ok => 0b01#2
  | .readFail => 0b10#2
  | .illegal => 0b11#2

/-- STATUS: [0] BUSY, [1] CONFIGURED, [3:2] RESULT, the rest 0 (R23). -/
def statusWord (s : State) : Word :=
  0#28 ++ resultCode s.result ++ BitVec.ofBool s.cfg.configured ++ BitVec.ofBool s.busy

/-- CFG: [2] CLK_P, [3] DIN_P, [4] DOUT_P, [5] CPOL, the rest 0 (R25). -/
def cfgWord (c : BusConfig) : Word :=
  0#26 ++ BitVec.ofBool c.cpol.bit ++ BitVec.ofBool c.doutP ++ BitVec.ofBool c.dinP ++ BitVec.ofBool c.clkP ++ 0#2

/-- zext_32(encodeErr(e)), what a read failure puts into ERRVAL (R24, R86). -/
def errvalOf (e : PinError) : Word := (Config.encodeErr e).setWidth 32

/-- The number of a register (R22). -/
def RegName.number : RegName → Nat
  | .cmd => 0
  | .arg => 1
  | .status => 2
  | .errval => 3
  | .cfg => 4
  | .delay => 5
  | .reserved6 => 6
  | .reserved7 => 7

/-- What a read of a register returns (R22). -/
def regRead (r : RegName) (s : State) : Word :=
  match r with
  | .cmd => 0
  | .arg => s.arg
  | .status => statusWord s
  | .errval => s.errval
  | .cfg => cfgWord s.cfg
  | .delay => s.cfg.delay
  | .reserved6 => 0
  | .reserved7 => 0

end Sys2Proof.Machine
end

