-- ==== Sys2Proof/Machine/Ops.lean ====
section
/-! DEFINITION. The named operations of 00_scope.md R14 (MemRead, MemWrite, Drive, Read, Spin), the ends of a command
(60_exceptions.md R83 to R86), the host's accesses (10_state.md R22, 20_memory.md R33) and reset (70_reset_and_hazards.md R103). -/

namespace Sys2Proof.Machine

/-- `MemRead(a, 1)` (R14): the byte, if it has been written since reset. -/
def memRead (a : Nat) (s : State) : Option Byte := Memory.read s.buf a

/-- `MemWrite(a, 1, v)` (R14). -/
def memWrite (a : Nat) (v : Byte) (s : State) : State := { s with buf := Memory.write s.buf a v }

/-! ### The environment's answers (60_exceptions.md R99) -/

/-- The level MOSI was last driven to with status `ok` (D31). -/
def lastMosi : List Event → Option Level
  | [] => none
  | ev :: tr =>
    match lastMosi tr with
    | some l => some l
    | none =>
      match ev with
      | .drive .mosi l .ok => some l
      | _ => none

/-- A read that returns a level. -/
def readLevel : Level → ReadResult
  | .low => .low
  | .high => .high

/-- The status of the next drive in tick `n`, and the environment after it. -/
def Env.drive (e : Env) (n : Nat) : DriveStatus × Env :=
  match e with
  | .oracle (d :: ds) rs => (d, .oracle ds rs)
  | .oracle [] rs => (Config.freeDrive n, .oracle [] rs)
  | .loopback => (.ok, .loopback)

/-- The result of the next read in tick `n` after the events `tr`, and the environment after it. -/
def Env.read (e : Env) (tr : List Event) (n : Nat) : ReadResult × Env :=
  match e with
  | .oracle ds (r :: rs) => (r, .oracle ds rs)
  | .oracle ds [] => (Config.freeRead n, .oracle ds [])
  | .loopback =>
    match lastMosi tr with
    | some l => (readLevel l, .loopback)
    | none => (Config.freeRead n, .loopback)

/-! ### The line primitives (R14, 10_state.md R27, R28, R30) -/

/-- The record of a line after a drive of `l` (10_state.md R27). -/
def levelAfter (l : Level) (st : DriveStatus) : LineLevel :=
  match st with
  | .ok => .known l
  | .fail => .unknown

/-- `Drive(SCLK, l)`: one strobe, one event, the status ignored but for the line's record (60_exceptions.md R85). -/
def driveSclk (l : Level) (s : State) : State :=
  { s with
    env := (s.env.drive s.tick).2
    trace := s.trace ++ [.drive .sclk l (s.env.drive s.tick).1]
    sclkLvl := levelAfter l (s.env.drive s.tick).1
    pins := { s.pins with sclkO := .known l, sclkStb := true } }

/-- `Drive(MOSI, l)`, as `driveSclk`. -/
def driveMosi (l : Level) (s : State) : State :=
  { s with
    env := (s.env.drive s.tick).2
    trace := s.trace ++ [.drive .mosi l (s.env.drive s.tick).1]
    mosiLvl := levelAfter l (s.env.drive s.tick).1
    pins := { s.pins with mosiO := .known l, mosiStb := true } }

/-- What the next `Read(MISO)` returns. -/
def misoResult (s : State) : ReadResult := (s.env.read s.trace s.tick).1

/-- `Read(MISO)`: one strobe, one event, one answer used (R14, 20_memory.md R39). -/
def readMiso (s : State) : State :=
  { s with
    env := (s.env.read s.trace s.tick).2
    trace := s.trace ++ [.read (misoResult s)]
    pins := { s.pins with misoRd := true } }

/-- `Spin()`: one event and nothing else (R14). -/
def spin (s : State) : State := { s with trace := s.trace ++ [.spin] }

/-! ### The ends of a command -/

/-- `complete(OK)` (R14, 41_bit_engine.md R71). -/
def completeOk (s : State) : State :=
  { s with busy := false, result := .ok, eng := { s.eng with phase := .idle } }

/-- `raise ReadFail(e)` (60_exceptions.md R86): the abort saves RESULT and ERRVAL and nothing else (R90). -/
def raiseReadFail (e : PinError) (s : State) : State :=
  { s with busy := false, result := .readFail, errval := errvalOf e, eng := { s.eng with phase := .idle } }

/-- `raise Illegal` (60_exceptions.md R84): only RESULT changes. -/
def raiseIllegal (s : State) : State := { s with result := .illegal }

/-- A CMD write is accepted or rejected only while BUSY = 0 (41_bit_engine.md R62); a CMD write while BUSY = 1 is the
refusal of 60_exceptions.md R102.1. `t` is the state after the decode tick. -/
def issue (s t : State) : Host.Outcome State Fault Refusal :=
  if s.busy then .refused .cmdWhileBusy else .next t

/-! ### The host's accesses -/

/-- A WRITE or TRANSFER is running (70_reset_and_hazards.md R108). -/
def streamRunning (s : State) : Bool := s.busy && decide (s.eng.opr ≠ .new)

/-- The address lies in the range of the running WRITE or TRANSFER (R108). -/
def inRunningRange (a : Word) (s : State) : Bool := streamRunning s && inRange s.eng.base s.eng.len a.toNat

/-- What a host read of the byte port returns (20_memory.md R33): 0 outside BUF; any value in the range of a running command
(R108, U2) or from a byte nothing has written (U1); else the byte. -/
def bufReadData (a : Word) (s : State) : Byte :=
  if Config.bufSize ≤ a.toNat then 0
  else if inRunningRange a s then Config.freeByte s.tick
  else (memRead a.toNat s).getD (Config.freeByte s.tick)

/-- The register read of a tick. -/
def regReadAccess (op : RegOp) (s : State) : State :=
  match op with
  | .read r => { s with regRdata := regRead r s }
  | .write _ _ => s
  | .idle => s

/-- The byte read of a tick. -/
def bufReadAccess (op : BufOp) (s : State) : State :=
  match op with
  | .read a => { s with bufRdata := bufReadData a s }
  | .write _ _ => s
  | .idle => s

/-- A write of a register other than CMD: ARG takes the value, the others ignore it (10_state.md R22, D32). A write of CMD
issues a command and stores nothing, so it is no storage here. -/
def regWriteAccess (op : RegOp) (s : State) : State :=
  match op with
  | .write .arg v => { s with arg := v }
  | .write _ _ => s
  | .read _ => s
  | .idle => s

/-- The byte write of a tick: ignored outside BUF (20_memory.md R33). -/
def bufWriteAccess (op : BufOp) (s : State) : State :=
  match op with
  | .write a v => if a.toNat < Config.bufSize then memWrite a.toNat v s else s
  | .read _ => s
  | .idle => s

/-- The host's reads of a tick. They have no side effect (20_memory.md R39). DESIGN CHOICE (log entry 13): they see the state the
previous tick left; 70_reset_and_hazards.md R114 says it of a register write. -/
def hostReads (h : HostTick) (s : State) : State := bufReadAccess h.buf (regReadAccess h.reg s)

/-- The host's accesses of a tick, but for a CMD write's command: the reads, then the writes (log entry 13). -/
def hostAccess (h : HostTick) (s : State) : State :=
  bufWriteAccess h.buf (regWriteAccess h.reg (hostReads h s))

/-- The command word that the host writes to CMD, if it does (10_state.md R22). -/
def cmdWrite (op : RegOp) : Option Word :=
  match op with
  | .write .cmd w => some w
  | .write _ _ => none
  | .read _ => none
  | .idle => none

/-- The host writes a byte of the range a command is working on (70_reset_and_hazards.md R108). -/
def writesRunningRange (op : BufOp) (s : State) : Bool :=
  match op with
  | .write a _ => inRunningRange a s
  | .read _ => false
  | .idle => false

/-! ### Ticks and reset -/

/-- A tick in which the host does nothing. -/
def HostTick.quiet : HostTick := { rst := false, reg := .idle, buf := .idle }

/-- What the host does in the coming tick. -/
def hostNow (s : State) : HostTick := s.hostIn.headD HostTick.quiet

/-- The start of a tick: the host's entry is used up, the strobes fall (they last one tick, 10_state.md R28), the tick is counted. -/
def beginTick (s : State) : State :=
  { s with
    hostIn := s.hostIn.tail
    rstLast := (hostNow s).rst
    tick := s.tick + 1
    pins := { s.pins with sclkStb := false, mosiStb := false, misoRd := false } }

/-- The tick is a reset tick: `rst` is 1, or it is the tick in which `rst` falls (70_reset_and_hazards.md R103). -/
def resetTick (s : State) : Bool := (hostNow s).rst || s.rstLast

/-- Reset (R103): every register and configuration field at its reset value, the line records Unknown, BUF unwritten (R104).
The trace is no hardware state and stays (95_test_vectors.md V-R2); the agents and the tick count go on. -/
def applyReset (s : State) : State :=
  { State.reset with
    trace := s.trace, rstLast := s.rstLast, hostIn := s.hostIn, env := s.env, tick := s.tick }

end Sys2Proof.Machine
end

