-- ==== Sys2Proof/Machine/Stream.lean ====
section
/-! DEFINITION. The action list of a bit and the action stream of a command (41_bit_engine.md R64, R65), the sequencer's
guards (R71) and the acceptance of WRITE and TRANSFER (R62, 60_exceptions.md R84). -/

namespace Sys2Proof.Machine

/-- guard(SAMPLE): a TRANSFER with data-in present (R71); without a clock, as the parameter SAMPLE_WITHOUT_CLOCK says (R64). -/
def sampleGuard (opr : Opr) (c : BusConfig) : Bool :=
  decide (opr = .transfer) && c.dinP && (c.clkP || Config.sampleWithoutClock)

/-- `n`, the number of actions of one bit (R64): DOUT_P + CLK_P·(2 + 2·DELAY) + [SAMPLE]. -/
def bitActionCount (opr : Opr) (c : BusConfig) : Nat :=
  c.doutP.toNat + c.clkP.toNat * (2 + 2 * c.delay.toNat) + (sampleGuard opr c).toNat

/-- `bitActions(OPR)` (R64). -/
def bitActions (opr : Opr) (c : BusConfig) : List Phase :=
  (if c.doutP then [.driveData] else [])
  ++ (if c.clkP then .assertClock :: List.replicate c.delay.toNat .activeWait else [])
  ++ (if sampleGuard opr c then [.sample] else [])
  ++ (if c.clkP then .deassertClock :: List.replicate c.delay.toNat .idleWait else [])

/-- An action of the stream, tagged with its word index and its bit index (R65). -/
structure StreamAction where
  action : Phase
  word : Nat
  bit : BitVec 3
deriving DecidableEq, Repr

/-- The bit indices of a word, in order (20_memory.md R34). -/
def bitOrder : List (BitVec 3) := [7, 6, 5, 4, 3, 2, 1, 0]

/-- The actions of word `i`. -/
def wordStream (opr : Opr) (c : BusConfig) (i : Nat) : List StreamAction :=
  bitOrder.flatMap fun b => (bitActions opr c).map fun a => { action := a, word := i, bit := b }

/-- The action stream of a command of `len` words (R65). -/
def stream (opr : Opr) (c : BusConfig) (len : Nat) : List StreamAction :=
  (List.range len).flatMap (wordStream opr c)

/-- `streamEmpty()`: LEN = 0 or n = 0 (R65). -/
def streamEmpty (opr : Opr) (c : BusConfig) (len : BitVec 16) : Bool :=
  decide (len = 0) || decide (bitActionCount opr c = 0)

/-! ### firstFrom (R71): the least guarded phase from a place in the order on, `none` for ENDBIT -/

/-- `firstFrom(DEASSERT_CLOCK)`. -/
def firstDeassert (c : BusConfig) : Option Phase := if c.clkP then some .deassertClock else none

/-- `firstFrom(SAMPLE)`. -/
def firstSample (opr : Opr) (c : BusConfig) : Option Phase :=
  if sampleGuard opr c then some .sample else firstDeassert c

/-- `firstFrom(ASSERT_CLOCK)`. -/
def firstAssert (opr : Opr) (c : BusConfig) : Option Phase :=
  if c.clkP then some .assertClock else firstSample opr c

/-- `firstFrom(DRIVE_DATA)`. -/
def firstDrive (opr : Opr) (c : BusConfig) : Option Phase :=
  if c.doutP then some .driveData else firstAssert opr c

/-- PHASE at the start of a bit. `firstFrom(DRIVE_DATA)` is never ENDBIT inside a running command (R71). -/
def startPhase (opr : Opr) (c : BusConfig) : Phase := (firstDrive opr c).getD .idle

/-! ### Acceptance -/

/-- The state checks of WRITE and TRANSFER (60_exceptions.md R84.2 and R84.3). -/
def stateChecks (len : BitVec 16) (s : State) : Bool :=
  s.cfg.configured && rangeFits Config.bufSize (baseOperand s) len

/-- `OPR <- opr; start(a, len)` (R62). -/
def startStream (opr : Opr) (len : BitVec 16) (s : State) : State :=
  let cursor : Engine := { s.eng with opr := opr, base := baseOperand s, len := len, widx := 0, bidx := 7 }
  if streamEmpty opr s.cfg len then { s with eng := cursor, result := .ok }
  else { s with eng := { cursor with phase := startPhase opr s.cfg }, busy := true, result := .none }

/-- The decode tick of a WRITE or TRANSFER (R62): rejected with ILLEGAL, or started. -/
def acceptStream (opr : Opr) (len : BitVec 16) (s : State) : State :=
  if stateChecks len s then startStream opr len s else raiseIllegal s

end Sys2Proof.Machine
end

