-- ==== Sys2Proof/Machine/Engine.lean ====
section
/-! DEFINITION. The bit engine (41_bit_engine.md): the actions (R66 to R70, and R58's INIT_CLOCK), the sequencer (R71), and
the stream form of a command (R65), which R71 says performs the same actions. -/

namespace Sys2Proof.Machine

/-! ### The actions -/

/-- DRIVE_DATA on the byte at `a`, bit `b` (R66). -/
def driveData (a : Nat) (b : BitVec 3) (s : State) : Host.Outcome State Fault Refusal :=
  match memRead a s with
  | some w => .next (driveMosi (dataLevel w b) s)
  | none => .fault .unwrittenByte

/-- INIT_CLOCK: NEW's idle drive (40_construction.md R58). -/
def initClock (s : State) : State := driveSclk (idleLevel s.cfg.cpol) s

/-- ASSERT_CLOCK (R67). -/
def assertClock (s : State) : State :=
  driveSclk (activeLevel s.cfg.cpol) { s with eng := { s.eng with dcnt := s.cfg.delay } }

/-- ACTIVE_WAIT and IDLE_WAIT (R68). -/
def waitOnce (s : State) : State := spin { s with eng := { s.eng with dcnt := s.eng.dcnt - 1 } }

/-- DEASSERT_CLOCK (R70). -/
def deassertClock (s : State) : State :=
  driveSclk (idleLevel s.cfg.cpol) { s with eng := { s.eng with dcnt := s.cfg.delay } }

/-- The read-modify-write of a SAMPLE (R69, 20_memory.md R38): `f` sets or clears the bit. -/
def updateByte (a : Nat) (f : Byte → Byte) (s : State) : Host.Outcome State Fault Refusal :=
  match memRead a s with
  | some w => .next (memWrite a (f w) s)
  | none => .fault .unwrittenByte

/-- SAMPLE on the byte at `a`, bit `b` (R69). -/
def sample (a : Nat) (b : BitVec 3) (s : State) : Host.Outcome State Fault Refusal :=
  match misoResult s with
  | .high => updateByte a (fun w => setBit w b) (readMiso s)
  | .low => updateByte a (fun w => clearBit w b) (readMiso s)
  | .fail e => .next (raiseReadFail e (readMiso s))

/-- The action of a phase (R63) on the byte at `a`, bit `b`. -/
def perform (p : Phase) (a : Nat) (b : BitVec 3) (s : State) : Host.Outcome State Fault Refusal :=
  match p with
  | .idle => .next s
  | .initClock => .next (initClock s)
  | .driveData => driveData a b s
  | .assertClock => .next (assertClock s)
  | .activeWait => .next (waitOnce s)
  | .sample => sample a b s
  | .deassertClock => .next (deassertClock s)
  | .idleWait => .next (waitOnce s)

/-! ### The sequencer (R71) -/

/-- PHASE <- p. -/
def setPhase (p : Phase) (s : State) : State := { s with eng := { s.eng with phase := p } }

/-- next = ENDBIT (R71): the next bit, the next word, or the end of the command. -/
def endBit (s : State) : State :=
  if s.eng.bidx ≠ 0 then
    { s with eng := { s.eng with bidx := s.eng.bidx - 1, phase := startPhase s.eng.opr s.cfg } }
  else if s.eng.widx.toNat + 1 < s.eng.len.toNat then
    { s with eng := { s.eng with widx := s.eng.widx + 1, bidx := 7, phase := startPhase s.eng.opr s.cfg } }
  else completeOk s

/-- `next` as R71 uses it, `none` for ENDBIT. -/
def goto (next : Option Phase) (s : State) : State :=
  match next with
  | some p => setPhase p s
  | none => endBit s

/-- What follows the action of PHASE (R71; after INIT_CLOCK, 40_construction.md R58). -/
def advance (s : State) : State :=
  match s.eng.phase with
  | .idle => s
  | .initClock => completeOk s
  | .driveData => goto (firstAssert s.eng.opr s.cfg) s
  | .assertClock =>
    if s.cfg.delay ≠ 0 then setPhase .activeWait s else goto (firstSample s.eng.opr s.cfg) s
  | .activeWait =>
    if s.eng.dcnt ≠ 0 then setPhase .activeWait s else goto (firstSample s.eng.opr s.cfg) s
  | .sample => goto (firstDeassert s.cfg) s
  | .deassertClock => if s.cfg.delay ≠ 0 then setPhase .idleWait s else endBit s
  | .idleWait => if s.eng.dcnt ≠ 0 then setPhase .idleWait s else endBit s

/-- The address of the current word, BASE + WIDX (20_memory.md R38). -/
def cursorAddress (s : State) : Nat := wordAddress s.eng.base s.eng.widx

/-- After an action: the next PHASE, unless the action ended the command (R71, 60_exceptions.md R86). -/
def finishAction (s : State) : State := if s.busy then advance s else s

/-- One engine tick of a running command: the action of PHASE, then the next PHASE (R71). -/
def engineTick (s : State) : Host.Outcome State Fault Refusal :=
  match perform s.eng.phase (cursorAddress s) s.eng.bidx s with
  | .next t => .next (finishAction t)
  | .fault f => .fault f
  | .refused r => .refused r

/-! ### The stream form (R65) -/

/-- Perform the actions of a stream one per tick with the host idle, from BUF[base] on, until the stream or a read failure ends
the command. The engine's cursor is not used. -/
def performStream (base : Nat) : List StreamAction → State → Host.Outcome State Fault Refusal
  | [], s => .next (completeOk s)
  | x :: xs, s =>
    match perform x.action (base + x.word) x.bit (beginTick s) with
    | .next t => if t.busy then performStream base xs t else .next t
    | .fault f => .fault f
    | .refused r => .refused r

end Sys2Proof.Machine
end

