-- ==== Sys2Proof/Machine/Construction.lean ====
section
/-! DEFINITION. NEW (40_construction.md). -/

namespace Sys2Proof.Machine

/-- The configuration a NEW latches (R58, 30_encoding.md R50). -/
def newConfig (clkP dinP doutP : Bool) (cpol : Polarity) (s : State) : BusConfig :=
  { clkP := clkP, dinP := dinP, doutP := doutP, cpol := cpol, delay := delayOperand s, configured := true }

/-- The decode tick of NEW (R58): the configuration is latched; with a clock INIT_CLOCK follows, without one the command ends. -/
def construct (clkP dinP doutP : Bool) (cpol : Polarity) (s : State) : State :=
  if clkP then
    { s with
      cfg := newConfig clkP dinP doutP cpol s
      busy := true
      result := .none
      eng := { s.eng with opr := .new, phase := .initClock } }
  else { s with cfg := newConfig clkP dinP doutP cpol s, result := .ok }

/-- NEW: the decode tick. The engine's ticks follow while BUSY = 1. -/
def execNew (clkP dinP doutP : Bool) (cpol : Polarity) (s : State) : Host.Outcome State Fault Refusal :=
  issue s (construct clkP dinP doutP cpol s)

end Sys2Proof.Machine
end

