-- ==== Sys2Proof/Machine/Transfer.lean ====
section
/-! DEFINITION. TRANSFER (43_transfer.md). -/

namespace Sys2Proof.Machine

/-- TRANSFER (R79): the decode tick. The engine's ticks follow while BUSY = 1 and perform the stream of 41_bit_engine.md R65. -/
def execTransfer (len : Nat) (s : State) : Host.Outcome State Fault Refusal :=
  issue s (acceptStream .transfer (lenOperand len) s)

end Sys2Proof.Machine
end

