-- ==== Sys2Proof/Machine/Write.lean ====
section
/-! DEFINITION. WRITE (42_write.md). -/

namespace Sys2Proof.Machine

/-- WRITE (R76): the decode tick. The engine's ticks follow while BUSY = 1 and perform the stream of 41_bit_engine.md R65. -/
def execWrite (len : Nat) (s : State) : Host.Outcome State Fault Refusal :=
  issue s (acceptStream .write (lenOperand len) s)

end Sys2Proof.Machine
end

