-- ==== Sys2Proof/Machine/Dispatch.lean ====
section
/-! DEFINITION. The meaning of each command (41_bit_engine.md R62): one arm per constructor. -/

namespace Sys2Proof.Machine

/-- What an issued command does in its decode tick; the actions that follow are the engine's (Machine/Engine.lean). -/
def exec (i : Instr) (s : State) : Host.Outcome State Fault Refusal :=
  match i with
  | .new clkP dinP doutP cpol => Sys2Proof.Machine.execNew clkP dinP doutP cpol s
  | .write len => Sys2Proof.Machine.execWrite len s
  | .transfer len => Sys2Proof.Machine.execTransfer len s

end Sys2Proof.Machine
end

