-- ==== Sys2Proof/Machine/Tick.lean ====
section
/-! DEFINITION. One tick of the block: reset, the host's accesses, an issued command or an action of the engine. -/

namespace Sys2Proof.Machine

/-- A word written to CMD (41_bit_engine.md R62): a command, or the rejection of a word that decodes to Illegal (60_exceptions.md R84.1). -/
def acceptWord (w : Word) (s : State) : Host.Outcome State Fault Refusal :=
  match decode w with
  | .ok i => exec i s
  | .error _ => issue s (raiseIllegal s)

/-- A tick without a CMD write: the engine's action if a command runs (60_exceptions.md R101), and the fault of R102.2.
DESIGN CHOICE (log entry 24): where the engine's action would fault on an unwritten byte too (R102.3), the outcome is the fault
of R102.2; the spec gives no order. That the host's accesses come before the action is log entry 13. -/
def workTick (h : HostTick) (s : State) : Host.Outcome State Fault Refusal :=
  if writesRunningRange h.buf s then .fault .hostWriteToRunningRange
  else if s.busy then engineTick (hostAccess h s)
  else .next (hostAccess h s)

/-- A tick. A reset overrides everything (60_exceptions.md R89); the host's reads of a reset tick see the reset block (log entry 13).
DESIGN CHOICE (log entry 24): a tick in which the host both writes CMD while BUSY = 1 (R102.1) and writes a byte of the running
range (R102.2) is the refusal; the spec gives no order. That the byte access comes before the decode is log entry 13. -/
def tickOnce (s : State) : Host.Outcome State Fault Refusal :=
  if resetTick s then .next (hostReads (hostNow s) (applyReset (beginTick s)))
  else
    match cmdWrite (hostNow s).reg with
    | some w => acceptWord w (hostAccess (hostNow s) (beginTick s))
    | none => workTick (hostNow s) (beginTick s)

/-- A tick in which the host writes `w` to CMD and does nothing else. -/
def cmdTick (w : Word) : HostTick := { rst := false, reg := .write .cmd w, buf := .idle }

/-- A tick in which the host writes `v` to ARG and does nothing else. -/
def argTick (v : Word) : HostTick := { rst := false, reg := .write .arg v, buf := .idle }

/-- The two host writes that issue a command with its operand word (30_encoding.md R48, R56). -/
def hostIssue (i : Instr) (arg : Word) : List HostTick := [argTick arg, cmdTick (encode i)]

/-- The next tick is no reset tick and has the host write `w` to CMD. -/
def placeCommand (w : Word) (s : State) : State :=
  { s with hostIn := cmdTick w :: s.hostIn, rstLast := false }

end Sys2Proof.Machine
end

