-- ==== Sys2Proof/Machine/Step.lean ====
section
/-! DEFINITION. The step of the machine: one tick (92_eei_decisions.md D2, D23). -/

namespace Sys2Proof.Machine

/-- One step is one tick of the block's clock. -/
def step (s : State) : Host.Outcome State Fault Refusal := tickOnce s

/-- The state with the command word `w` of `nbits` bits as the host's CMD write of the very next tick (log entry 6). -/
def State.withFetchWord (s : State) (nbits w : Nat) : State := placeCommand (tableWord nbits w) s

end Sys2Proof.Machine
end

