-- ==== Sys2Proof/Safety.lean ====
section
/-! DEFINITION. The terms claims use: what a trace shows, when a command finishes, the host's quiet, the ready block, and the
invariants of the machine. -/

namespace Sys2Proof.Machine

/-! ### What a trace shows (10_state.md R30) -/

/-- The level an event drives onto `line`, if it does. -/
def Event.levelOn (line : DrivenLine) : Event → Option Level
  | .drive ln l _ => if ln = line then some l else none
  | .read _ => none
  | .spin => none

/-- The levels driven onto a line, in order. -/
def drivenLevels (line : DrivenLine) (tr : List Event) : List Level := tr.filterMap (Event.levelOn line)

/-- The status an event's drive of `line` was answered with, if it is one. -/
def Event.statusOn (line : DrivenLine) : Event → Option DriveStatus
  | .drive ln _ st => if ln = line then some st else none
  | .read _ => none
  | .spin => none

/-- The statuses of the drives of a line, in order. -/
def driveStatuses (line : DrivenLine) (tr : List Event) : List DriveStatus := tr.filterMap (Event.statusOn line)

/-- The result an event reads, if it is a read. -/
def Event.readOf : Event → Option ReadResult
  | .drive _ _ _ => none
  | .read r => some r
  | .spin => none

/-- The results of the reads, in order. -/
def readResults (tr : List Event) : List ReadResult := tr.filterMap Event.readOf

/-- The number of busy-wait iterations. -/
def spinCount (tr : List Event) : Nat := tr.countP fun ev => decide (ev = .spin)

/-- The event with the environment's answer taken out: a drive as if it were ok, a read as if it gave Low. -/
def Event.unanswered : Event → Event
  | .drive ln l _ => .drive ln l .ok
  | .read _ => .read .low
  | .spin => .spin

/-! ### A command's words and its trace in closed form (42_write.md R77, 43_transfer.md R80) -/

/-- The word `i` of a command, where it has been written. -/
def wordAt (base : Word) (i : Nat) (s : State) : Byte := (memRead (base.toNat + i) s).getD 0

/-- Bits as levels, MSB first (20_memory.md R34). -/
def wordLevels (w : Byte) : List Level := bitOrder.map fun b => bitLevel (w.getLsbD b.toNat)

/-- The levels of the words of a command in stream order (20_memory.md R34, R35). -/
def commandLevels (base : Word) (len : Nat) (s : State) : List Level :=
  (List.range len).flatMap fun i => wordLevels (wordAt base i s)

/-- The events of one bit that drives `l` (R77), with a read after the active wait if `sampled` (R80). -/
def bitTrace (c : BusConfig) (sampled : Bool) (l : Level) : List Event :=
  (if c.doutP then [.drive .mosi l .ok] else [])
  ++ (if c.clkP then .drive .sclk (activeLevel c.cpol) .ok :: List.replicate c.delay.toNat .spin else [])
  ++ (if sampled then [.read .low] else [])
  ++ (if c.clkP then .drive .sclk (idleLevel c.cpol) .ok :: List.replicate c.delay.toNat .spin else [])

/-- The level of a clock pulse's two drives (41_bit_engine.md R72). -/
def pulse (p : Polarity) : List Level := [activeLevel p, idleLevel p]

/-- A read that gives a level. -/
def isLevel : ReadResult → Bool
  | .high => true
  | .low => true
  | .fail _ => false

/-- The bit that a read result leaves in a buffer bit that held `old` (41_bit_engine.md R69, 60_exceptions.md R87). -/
def sampledBit (r : Option ReadResult) (old : Bool) : Bool :=
  match r with
  | some .high => true
  | some .low => false
  | some (.fail _) => old
  | none => old

/-- The place of bit `b` of word `i` in stream order, counting from 0. -/
def streamIndex (i : Nat) (b : BitVec 3) : Nat := 8 * i + (7 - b.toNat)

/-! ### Runs -/

/-- `k` ticks. -/
def ticks (k : Nat) (s : State) : Host.Outcome State Fault Refusal := Host.Core.run Sys2Proof.core k s

/-- The command that runs in `t` ends in the `k`-th tick from `t` on, leaving `u`; with `k = 0` no command runs in `t`. -/
def Finishes (k : Nat) (t u : State) : Prop :=
  ticks k t = .next u ∧ u.busy = false ∧
  ∀ j, j < k → ∃ v, ticks j t = .next v ∧ v.busy = true

/-- The host does nothing from now on, and no reset is being released. -/
def Quiet (s : State) : Prop := s.hostIn = [] ∧ s.rstLast = false

/-- Every word of the range has been written since reset (70_reset_and_hazards.md R104). -/
def RangeWritten (base : Word) (len : Nat) (s : State) : Prop :=
  ∀ i, i < len → (memRead (base.toNat + i) s).isSome = true

/-- The command reads its words: WRITE to drive them, TRANSFER to drive or to sample into them (41_bit_engine.md R66, R69). -/
def readsWords (opr : Opr) (c : BusConfig) : Prop :=
  c.doutP = true ∨ (opr = .transfer ∧ c.dinP = true)

/-- A block that accepts the command `opr` of `len` words at ARG (60_exceptions.md R84), whose host stays idle, and whose
words have been written if the command reads them. -/
structure Ready (opr : Opr) (len : Nat) (s : State) : Prop where
  idle : s.busy = false
  quiet : Quiet s
  lenFits : len < 65536
  configured : s.cfg.configured = true
  fits : s.arg.toNat + len ≤ Config.bufSize
  written : readsWords opr s.cfg → RangeWritten s.arg len s

/-- SCLK's record and output register are as before (10_state.md R27, R28). -/
def SclkKept (s t : State) : Prop := t.sclkLvl = s.sclkLvl ∧ t.pins.sclkO = s.pins.sclkO

/-- MOSI's record and output register are as before (10_state.md R27, R28). -/
def MosiKept (s t : State) : Prop := t.mosiLvl = s.mosiLvl ∧ t.pins.mosiO = s.pins.mosiO

/-! ### Invariants -/

/-- The presence bits that the action of a phase needs (41_bit_engine.md R71). -/
def phaseGuard (p : Phase) (opr : Opr) (c : BusConfig) : Bool :=
  match p with
  | .idle => true
  | .initClock => decide (opr = .new) && c.clkP
  | .driveData => decide (opr ≠ .new) && c.doutP
  | .assertClock => decide (opr ≠ .new) && c.clkP
  | .activeWait => decide (opr ≠ .new) && c.clkP
  | .sample => sampleGuard opr c
  | .deassertClock => decide (opr ≠ .new) && c.clkP
  | .idleWait => decide (opr ≠ .new) && c.clkP

/-- A line's record after drives of `l`: the level, or Unknown after a failed drive (10_state.md R27). -/
def levelOrUnknown (l : Level) (r : LineLevel) : Prop := r = .known l ∨ r = .unknown

/-- The invariant of the machine. -/
structure State.Inv (s : State) : Prop where
  /-- BUF is in its canonical form. -/
  bufWf : Memory.wf s.buf = true
  /-- BUSY says that a phase is active (10_state.md R23, 41_bit_engine.md R63). -/
  busyPhase : s.busy = true ↔ s.eng.phase ≠ .idle
  /-- RESULT is NONE while a command runs (R23). -/
  busyResult : s.busy = true → s.result = .none
  /-- The phase's presence bits are set. -/
  guarded : phaseGuard s.eng.phase s.eng.opr s.cfg = true
  /-- Without CONFIGURED no configuration is set (10_state.md R20). -/
  unconfigured : s.cfg.configured = false → s.cfg = BusConfig.reset
  /-- A running command has a configuration (60_exceptions.md R84.2). -/
  runConfigured : s.busy = true → s.cfg.configured = true
  /-- A running stream's cursor is inside its range, and the range inside BUF (10_state.md R26, 20_memory.md R37). -/
  cursor : streamRunning s = true →
    s.eng.widx.toNat < s.eng.len.toNat ∧ s.eng.base.toNat + s.eng.len.toNat ≤ Config.bufSize
  /-- In a wait phase DCNT counts from DELAY down and is not 0 (41_bit_engine.md R68). -/
  waiting : s.eng.phase = .activeWait ∨ s.eng.phase = .idleWait →
    s.eng.dcnt ≠ 0 ∧ s.eng.dcnt.toNat ≤ s.cfg.delay.toNat
  /-- ERRVAL[31:PIN_ERR_W] read 0 (10_state.md R24). -/
  errvalBound : s.errval.toNat < 2 ^ Config.pinErrW
  /-- A strobe is asserted only for a line whose presence bit is 1 (10_state.md R28). -/
  strobes : (s.pins.sclkStb = true → s.cfg.clkP = true) ∧ (s.pins.mosiStb = true → s.cfg.doutP = true) ∧
    (s.pins.misoRd = true → s.cfg.dinP = true)

/-- Where SCLK's record stands within a bit of a running command with a clock: active from ASSERT_CLOCK to DEASSERT_CLOCK, idle
in the idle wait (41_bit_engine.md R67, R70, 10_state.md R27). -/
def State.ClockInv (s : State) : Prop :=
  s.cfg.clkP = true →
  match s.eng.phase with
  | .activeWait => levelOrUnknown (activeLevel s.cfg.cpol) s.sclkLvl
  | .sample => levelOrUnknown (activeLevel s.cfg.cpol) s.sclkLvl
  | .deassertClock => levelOrUnknown (activeLevel s.cfg.cpol) s.sclkLvl
  | .idleWait => levelOrUnknown (idleLevel s.cfg.cpol) s.sclkLvl
  | .idle => True
  | .initClock => True
  | .driveData => True
  | .assertClock => True

end Sys2Proof.Machine
end

