-- ==== Sys2Proof/Certificates/Slice0/Obligations.lean ====
section
/-! DEFINITION. The statements for the provers, from the numbered rules of spec/. -/

open Sys2Proof Sys2Proof.Machine

/-! ### Encoding (30_encoding.md) -/

/-- R49, R52, R56: the decoder reads back every command from its word, with every operand at every value. -/
def Obligations.DecodeEncodeRoundTrip : Prop :=
  ∀ i : Instr, i.wf = true → decode (encode i) = .ok i

/-- R49, R52: a word that decodes to a command is the word of that command and of no other. -/
def Obligations.EncodeDecodeRoundTrip : Prop :=
  ∀ (c : Word) (i : Instr), decode c = .ok i → encode i = c ∧ i.wf = true

/-- R54: the illegal words are exactly the listed ones, and each is rejected with RESULT = ILLEGAL. -/
def Obligations.IllegalWordsExactly : Prop :=
  ∀ c : Word,
    ((∃ e, decode c = .error e) ↔
      (c.toNat % 4 = 3 ∨ c.toNat / 64 % 1024 ≠ 0 ∨ (c.toNat % 4 = 0 ∧ c.toNat / 65536 ≠ 0) ∨
        ((c.toNat % 4 = 1 ∨ c.toNat % 4 = 2) ∧ c.toNat / 4 % 16 ≠ 0))) ∧
    ∀ s : State, s.busy = false → (∃ e, decode c = .error e) →
      acceptWord c s = .next { s with result := .illegal }

/-- R53: the masks and matches of the opcode map. -/
def Obligations.OpcodeMasksSelect : Prop :=
  ∀ c : Word,
    (c &&& 0xFFFFFFC3#32 = 0x00000000#32 ↔ ∃ k i o p, decode c = .ok (.new k i o p)) ∧
    (c &&& 0x0000FFFF#32 = 0x00000001#32 ↔ ∃ len, decode c = .ok (.write len)) ∧
    (c &&& 0x0000FFFF#32 = 0x00000002#32 ↔ ∃ len, decode c = .ok (.transfer len))

/-- R57: the command words of the table, each with the two host writes that issue it (R56), and its illegal words. -/
def Obligations.SpecCommandWords : Prop :=
  (∀ d : Word,
    hostIssue (.new true true true .idleLow) d = [argTick d, cmdTick 0x0000001C#32] ∧
    hostIssue (.new true true true .idleHigh) d = [argTick d, cmdTick 0x0000003C#32] ∧
    hostIssue (.new true false true .idleLow) d = [argTick d, cmdTick 0x00000014#32] ∧
    hostIssue (.new false false true .idleLow) d = [argTick d, cmdTick 0x00000010#32] ∧
    hostIssue (.new false false false .idleLow) d = [argTick d, cmdTick 0x00000000#32] ∧
    hostIssue (.write 1) d = [argTick d, cmdTick 0x00010001#32] ∧
    hostIssue (.write 0) d = [argTick d, cmdTick 0x00000001#32] ∧
    hostIssue (.transfer 2) d = [argTick d, cmdTick 0x00020002#32] ∧
    hostIssue (.transfer 65535) d = [argTick d, cmdTick 0xFFFF0002#32]) ∧
  decode 0x0000003C#32 = .ok (.new true true true .idleHigh) ∧
  decode 0x00000014#32 = .ok (.new true false true .idleLow) ∧
  decode 0x00010001#32 = .ok (.write 1) ∧
  decode 0xFFFF0002#32 = .ok (.transfer 65535) ∧
  decode 0x00000003#32 = .error .reservedOp ∧
  decode 0x00010005#32 = .error .configBits ∧
  decode 0x00010000#32 = .error .newWithLen

/-! ### Issuing a command (41_bit_engine.md R62) -/

/-- R62, R54: a tick that writes a word to CMD: `exec` of the command it decodes to, or, in a block that runs no command, the rejection of
a word that decodes to Illegal. That the byte access of the tick comes before the decode is the model's choice (log entry 13). -/
def Obligations.StepRunsDecodedCommand : Prop :=
  ∀ (s : State) (w : Word), resetTick s = false → cmdWrite (hostNow s).reg = some w →
    (∀ i, decode w = .ok i → step s = exec i (hostAccess (hostNow s) (beginTick s))) ∧
    (∀ e, decode w = .error e → s.busy = false →
      step s = .next { hostAccess (hostNow s) (beginTick s) with result := .illegal })

/-- The command word placed by `withFetchWord` runs in the very next tick, from any state. -/
def Obligations.PlacedWordRunsNext : Prop :=
  ∀ (s : State) (i : Instr), i.wf = true →
    step (s.withFetchWord 32 (encode i).toNat) =
      exec i (beginTick (s.withFetchWord 32 (encode i).toNat))

/-- R101, R102.2, R43: a tick without a CMD write: the fault of a host write into the running range, or the engine's action, or nothing
but the host's accesses. The model's choices in it: the accesses come before the action, and the reads see what the previous tick
left (log entry 13); this fault comes before that of an unwritten byte (log entry 24). -/
def Obligations.TickWithoutCommand : Prop :=
  ∀ s : State, resetTick s = false → cmdWrite (hostNow s).reg = none →
    step s =
      (if writesRunningRange (hostNow s).buf s then .fault .hostWriteToRunningRange
       else if s.busy then engineTick (hostAccess (hostNow s) (beginTick s))
       else .next (hostAccess (hostNow s) (beginTick s)))

/-- R48, R50, R56: an ARG write and then a CMD write issue the command with that operand. -/
def Obligations.HostWritesIssueCommand : Prop :=
  ∀ (s : State) (i : Instr) (a : Word),
    i.wf = true → s.busy = false → s.rstLast = false → s.hostIn = hostIssue i a →
    ticks 2 s = exec i (beginTick { beginTick s with arg := a })

/-- R84: a command is rejected exactly under the listed conditions, and a rejection changes RESULT only. -/
def Obligations.RejectionChangesOnlyResult : Prop :=
  ∀ (s : State) (w : Word), s.busy = false →
    (((∃ e, decode w = .error e) ∨
        ∃ len, (decode w = .ok (.write len) ∨ decode w = .ok (.transfer len)) ∧
          (s.cfg.configured = false ∨ Config.bufSize < s.arg.toNat + len)) →
      acceptWord w s = .next { s with result := .illegal }) ∧
    (¬ ((∃ e, decode w = .error e) ∨
        ∃ len, (decode w = .ok (.write len) ∨ decode w = .ok (.transfer len)) ∧
          (s.cfg.configured = false ∨ Config.bufSize < s.arg.toNat + len)) →
      ∃ t, acceptWord w s = .next t ∧ t.result ≠ .illegal)

/-- R84.2, R105: until a NEW has been accepted, every WRITE and TRANSFER is ILLEGAL. -/
def Obligations.UnconfiguredStreamsAreIllegal : Prop :=
  ∀ (s : State) (len : Nat), s.busy = false → s.cfg.configured = false →
    exec (.write len) s = .next { s with result := .illegal } ∧
    exec (.transfer len) s = .next { s with result := .illegal }

/-- R102.1, R106: the model refuses a CMD write while a command runs, whatever the word. That it does so also where the host writes a
byte of the running range in that tick is the model's choice (log entry 24). -/
def Obligations.CmdWriteWhileBusyRefused : Prop :=
  ∀ (s : State) (w : Word), s.busy = true → resetTick s = false → cmdWrite (hostNow s).reg = some w →
    step s = .refused .cmdWhileBusy

/-- R62, R65: an accepted WRITE or TRANSFER starts its stream, or ends in its decode tick where the stream is empty. -/
def Obligations.AcceptedStreamStarts : Prop :=
  ∀ (s : State) (len : Nat), s.busy = false → len < 65536 → s.cfg.configured = true →
    s.arg.toNat + len ≤ Config.bufSize →
    ∀ (i : Instr) (opr : Opr), (i = .write len ∧ opr = .write) ∨ (i = .transfer len ∧ opr = .transfer) →
      exec i s = .next
        (if len = 0 ∨ bitActionCount opr s.cfg = 0 then
          { s with
            result := .ok
            eng := { s.eng with opr := opr, base := s.arg, len := BitVec.ofNat 16 len, widx := 0, bidx := 7 } }
         else
          { s with
            busy := true
            result := .none
            eng := { s.eng with opr := opr, base := s.arg, len := BitVec.ofNat 16 len, widx := 0, bidx := 7,
                                phase := startPhase opr s.cfg } })

/-! ### NEW (40_construction.md) -/

/-- R58: the decode tick of NEW. -/
def Obligations.NewLatchesConfiguration : Prop :=
  ∀ (s : State) (k i o : Bool) (p : Polarity), s.busy = false →
    exec (.new k i o p) s = .next
      { s with
        cfg := { clkP := k, dinP := i, doutP := o, cpol := p, delay := s.arg, configured := true }
        busy := k
        result := if k then .none else .ok
        eng := if k then { s.eng with opr := .new, phase := .initClock } else s.eng }

/-- R58, R60, R61, R115: the whole of NEW: one idle drive of SCLK if a clock is present, and nothing else. That the read data of the two
ports stay without a read is the model's choice (log entry 14). -/
def Obligations.NewDrivesClockIdleAndEnds : Prop :=
  ∀ (s : State) (k i o : Bool) (p : Polarity), s.busy = false → Quiet s →
    ∃ t u ev, exec (.new k i o p) s = .next t ∧ Finishes k.toNat t u ∧
      u.result = .ok ∧
      u.cfg = { clkP := k, dinP := i, doutP := o, cpol := p, delay := s.arg, configured := true } ∧
      u.trace = s.trace ++ ev ∧
      (if k then ∃ st, ev = [.drive .sclk (idleLevel p) st] ∧ u.sclkLvl = levelAfter (idleLevel p) st
       else ev = [] ∧ u.sclkLvl = s.sclkLvl) ∧
      u.mosiLvl = s.mosiLvl ∧ u.buf = s.buf ∧ u.errval = s.errval ∧ u.arg = s.arg ∧
      u.bufRdata = s.bufRdata ∧ u.regRdata = s.regRdata

/-- R25: where the bits of CFG stand, that it reads back the configuration bits of the last NEW accepted, and reads 0 after reset. -/
def Obligations.CfgReadsBackNew : Prop :=
  (∀ s : State,
    regRead .cfg s &&& 0xFFFFFFC3#32 = 0 ∧
    (regRead .cfg s).getLsbD 2 = s.cfg.clkP ∧ (regRead .cfg s).getLsbD 3 = s.cfg.dinP ∧
    (regRead .cfg s).getLsbD 4 = s.cfg.doutP ∧ (regRead .cfg s).getLsbD 5 = s.cfg.cpol.bit) ∧
  (∀ (s : State) (k i o : Bool) (p : Polarity), s.busy = false →
    ∃ t, exec (.new k i o p) s = .next t ∧ regRead .cfg t = encode (.new k i o p)) ∧
  regRead .cfg State.reset = 0x00000000#32

/-! ### The register port and the byte port (10_state.md R22, R23, 20_memory.md R33) -/

/-- R23: where the bits of STATUS stand. -/
def Obligations.StatusBits : Prop :=
  (∀ s : State,
    (regRead .status s).getLsbD 0 = s.busy ∧ (regRead .status s).getLsbD 1 = s.cfg.configured ∧
    (regRead .status s).extractLsb' 2 2 =
      (match s.result with
       | .none => 0#2
       | .ok => 1#2
       | .readFail => 2#2
       | .illegal => 3#2) ∧
    regRead .status s &&& 0xFFFFFFF0#32 = 0) ∧
  regRead .status State.reset = 0#32

/-- R22, R39: what each register reads in a tick of its own, running or not, and that the read has no side effect: in an idle block it
leaves nothing but its data, and in any block the tick is otherwise the tick without it. The model's choices in it: a read sees what the
previous tick left (log entry 13), and its data stand in a field of the model's own (log entry 14). -/
def Obligations.RegisterReadReturnsContent : Prop :=
  (∀ (s : State) (r : RegName) (t : State), (hostNow s).reg = .read r → resetTick s = false →
    step s = .next t →
    t.regRdata =
      (match r with
       | .cmd => 0
       | .arg => s.arg
       | .status => statusWord s
       | .errval => s.errval
       | .cfg => cfgWord s.cfg
       | .delay => s.cfg.delay
       | .reserved6 => 0
       | .reserved7 => 0)) ∧
  (∀ (s : State) (r : RegName), s.busy = false → resetTick s = false →
    hostNow s = { rst := false, reg := .read r, buf := .idle } →
    step s = .next { beginTick s with regRdata := regRead r s }) ∧
  (∀ (s t : State) (r : RegName) (b : BufOp) (hs : List HostTick), s.rstLast = false →
    step { s with hostIn := { rst := false, reg := .idle, buf := b } :: hs } = .next t →
    step { s with hostIn := { rst := false, reg := .read r, buf := b } :: hs } =
      .next { t with regRdata := regRead r s })

/-- R22, D32: a register write of an idle block: ARG keeps all 32 bits, every other register but CMD ignores it. That the read data of the
two ports stay is the model's choice (log entry 14). -/
def Obligations.RegisterWriteOfIdleBlock : Prop :=
  ∀ (s : State) (r : RegName) (v : Word), s.busy = false → resetTick s = false → r ≠ .cmd →
    hostNow s = { rst := false, reg := .write r v, buf := .idle } →
    ∃ t, step s = .next t ∧
      t = { beginTick s with arg := if r = .arg then v else s.arg }

/-- R33: a host write of a byte of an idle block, and every byte read back after it. That the read data of the two ports stay is the
model's choice (log entry 14). -/
def Obligations.HostByteWriteStores : Prop :=
  ∀ (s : State) (a : Word) (v : Byte), s.busy = false → resetTick s = false →
    hostNow s = { rst := false, reg := .idle, buf := .write a v } →
    ∃ t, step s = .next t ∧
      (∀ x, memRead x t = if x = a.toNat ∧ a.toNat < Config.bufSize then some v else memRead x s) ∧
      t = { beginTick s with buf := t.buf }

/-- R33, R108, R104, R39: what a host read of a byte returns, and that the read has no side effect: in an idle block it leaves nothing
but its data, and in any block the tick is otherwise the tick without it. The values of `Config.freeByte` are free. The model's choices in
it: a read sees what the previous tick left (log entry 13), and its data stay until the next read (log entry 14). -/
def Obligations.HostByteReadReturns : Prop :=
  (∀ (s t : State) (a : Word), (hostNow s).buf = .read a → resetTick s = false → step s = .next t →
    (Config.bufSize ≤ a.toNat → t.bufRdata = 0) ∧
    (a.toNat < Config.bufSize → streamRunning s = true →
      s.eng.base.toNat ≤ a.toNat → a.toNat < s.eng.base.toNat + s.eng.len.toNat →
      t.bufRdata = Config.freeByte (s.tick + 1)) ∧
    (∀ w, a.toNat < Config.bufSize → memRead a.toNat s = some w →
      ¬ (streamRunning s = true ∧ s.eng.base.toNat ≤ a.toNat ∧
          a.toNat < s.eng.base.toNat + s.eng.len.toNat) → t.bufRdata = w) ∧
    (a.toNat < Config.bufSize → memRead a.toNat s = none → t.bufRdata = Config.freeByte (s.tick + 1))) ∧
  (∀ (s : State) (a : Word), s.busy = false → resetTick s = false →
    hostNow s = { rst := false, reg := .idle, buf := .read a } →
    ∃ v, step s = .next { beginTick s with bufRdata := v }) ∧
  (∀ (s t : State) (a : Word) (g : RegOp) (hs : List HostTick), s.rstLast = false →
    step { s with hostIn := { rst := false, reg := g, buf := .idle } :: hs } = .next t →
    ∃ v, step { s with hostIn := { rst := false, reg := g, buf := .read a } :: hs } = .next { t with bufRdata := v })

/-- The canonical form of BUF: buffers that read the same everywhere are the same data. -/
def Obligations.BufferFormIsCanonical : Prop :=
  ∀ m m' : Memory, Memory.wf m = true → Memory.wf m' = true →
    (∀ a, Memory.read m a = Memory.read m' a) → m = m'

/-! ### The actions (41_bit_engine.md R66 to R70, 60_exceptions.md R86, R102) -/

/-- R66: DRIVE_DATA reads the current word and drives the level of the current bit, one drive whatever MOSI's record is. -/
def Obligations.DriveDataDrivesTheBit : Prop :=
  ∀ (s : State) (w : Byte), s.busy = true → s.eng.phase = .driveData →
    memRead (s.eng.base.toNat + s.eng.widx.toNat) s = some w →
    ∃ l st, l = bitLevel (w.getLsbD s.eng.bidx.toNat) ∧ st = (s.env.drive s.tick).1 ∧
      engineTick s = .next (goto (firstAssert s.eng.opr s.cfg)
        { s with
          env := (s.env.drive s.tick).2
          trace := s.trace ++ [.drive .mosi l st]
          mosiLvl := (match st with
            | .ok => .known l
            | .fail => .unknown)
          pins := { s.pins with mosiO := .known l, mosiStb := true } })

/-- R67, R70, R13: the two clock drives, their levels and the load of DCNT, and the table of the levels. -/
def Obligations.ClockActionsDriveAndLoad : Prop :=
  ∀ (s : State) (a : Nat) (b : BitVec 3),
    (∀ p l, (p = .assertClock ∧ l = activeLevel s.cfg.cpol) ∨
        (p = .deassertClock ∧ l = idleLevel s.cfg.cpol) →
      ∃ st, st = (s.env.drive s.tick).1 ∧ perform p a b s = .next
        { s with
          env := (s.env.drive s.tick).2
          trace := s.trace ++ [.drive .sclk l st]
          sclkLvl := (match st with
            | .ok => .known l
            | .fail => .unknown)
          pins := { s.pins with sclkO := .known l, sclkStb := true }
          eng := { s.eng with dcnt := s.cfg.delay } }) ∧
    idleLevel .idleLow = .low ∧ idleLevel .idleHigh = .high ∧
    activeLevel .idleLow = .high ∧ activeLevel .idleHigh = .low

/-- R68, R64, R96: a clock half is its drive and exactly DELAY spins, and what follows the active half is the sample, if there is
one, and then the idle half. -/
def Obligations.ActiveHalfTakesDelaySpins : Prop :=
  ∀ s : State, s.busy = true → Quiet s → s.cfg.clkP = true → s.eng.phase = .assertClock →
    ∃ u st, ticks (1 + s.cfg.delay.toNat) s = .next u ∧
      u.trace = s.trace ++ .drive .sclk (activeLevel s.cfg.cpol) st :: List.replicate s.cfg.delay.toNat .spin ∧
      u.eng = { s.eng with
        dcnt := 0, phase := if sampleGuard s.eng.opr s.cfg then .sample else .deassertClock } ∧
      u.buf = s.buf ∧ u.busy = true ∧ u.result = s.result ∧ u.mosiLvl = s.mosiLvl ∧
      u.sclkLvl = levelAfter (activeLevel s.cfg.cpol) st

/-- R69: a SAMPLE that reads a level writes that one bit of the current word and nothing else of BUF. -/
def Obligations.SampleWritesOneBit : Prop :=
  ∀ (s : State) (w : Byte) (l : Level), s.busy = true → s.eng.phase = .sample →
    memRead (s.eng.base.toNat + s.eng.widx.toNat) s = some w → misoResult s = readLevel l →
    ∃ t w', engineTick s = .next t ∧
      t.trace = s.trace ++ [.read (readLevel l)] ∧
      memRead (s.eng.base.toNat + s.eng.widx.toNat) t = some w' ∧
      (∀ b : BitVec 3, w'.getLsbD b.toNat =
        if b = s.eng.bidx then decide (l = .high) else w.getLsbD b.toNat) ∧
      (∀ a, a ≠ s.eng.base.toNat + s.eng.widx.toNat → memRead a t = memRead a s)

/-- R86: a failing read ends the command in its tick, with its error, and makes no buffer write. -/
def Obligations.ReadFailEndsCommand : Prop :=
  ∀ (s : State) (e : PinError), s.busy = true → s.eng.phase = .sample → misoResult s = .fail e →
    ∃ t, engineTick s = .next t ∧ t.result = .readFail ∧
      t.errval = (Config.encodeErr e).setWidth 32 ∧ t.busy = false ∧ t.eng.phase = .idle ∧
      t.buf = s.buf ∧ t.trace = s.trace ++ [.read (.fail e)] ∧
      t.cfg = s.cfg ∧ t.sclkLvl = s.sclkLvl ∧ t.mosiLvl = s.mosiLvl ∧ t.arg = s.arg

/-- R102.3, R104: an action that reads an unwritten byte faults; a SAMPLE whose read fails reads no byte. -/
def Obligations.UnwrittenByteFaults : Prop :=
  ∀ s : State, memRead (s.eng.base.toNat + s.eng.widx.toNat) s = none →
    (s.eng.phase = .driveData → engineTick s = .fault .unwrittenByte) ∧
    (s.eng.phase = .sample → ∀ l, misoResult s = readLevel l → engineTick s = .fault .unwrittenByte) ∧
    (s.eng.phase = .sample → ∀ e, misoResult s = .fail e → ∃ t, engineTick s = .next t ∧ t.result = .readFail)

/-! ### The stream (41_bit_engine.md R64, R65, R71) -/

/-- R64, R65: the number of actions of a bit and of a stream. -/
def Obligations.StreamLength : Prop :=
  ∀ (opr : Opr) (c : BusConfig) (len : Nat),
    (bitActions opr c).length =
      c.doutP.toNat + c.clkP.toNat * (2 + 2 * c.delay.toNat) + (sampleGuard opr c).toNat ∧
    (stream opr c len).length = 8 * len * (bitActions opr c).length

/-- R71: the sequencer performs exactly the actions of the stream, in order, one per tick, from an accepted WRITE or TRANSFER on, for
every environment; the end it reaches, a fault included, is the stream form's, but for the engine's own cursor. -/
def Obligations.SequencerPerformsTheStream : Prop :=
  ∀ (s t : State) (len : Nat) (i : Instr) (opr : Opr),
    (i = .write len ∧ opr = .write) ∨ (i = .transfer len ∧ opr = .transfer) →
    Quiet s → s.busy = false → len < 65536 →
    exec i s = .next t → t.busy = true →
    ∃ k, k ≤ (stream opr s.cfg len).length ∧
      ((∃ u v, ticks k t = .next u ∧ performStream s.arg.toNat (stream opr s.cfg len) t = .next v ∧
          u = { v with eng := u.eng } ∧ u.busy = false ∧ u.eng.phase = .idle) ∨
       (∃ f, ticks k t = .fault f ∧ performStream s.arg.toNat (stream opr s.cfg len) t = .fault f))

/-! ### WRITE (42_write.md) -/

/-- R76, R78.1 to R78.4 and R78.8, R115: a WRITE ends with OK after exactly its stream's ticks, having driven the words' bits, MSB first, 8·LEN
pulses and 16·LEN·DELAY spins, and read nothing, whatever the environment answers. -/
def Obligations.WriteShiftsOutTheWords : Prop :=
  ∀ (s : State) (len : Nat), Ready .write len s →
    ∃ t u ev, exec (.write len) s = .next t ∧
      Finishes (8 * len * (s.cfg.doutP.toNat + s.cfg.clkP.toNat * (2 + 2 * s.cfg.delay.toNat))) t u ∧
      u.result = .ok ∧ u.trace = s.trace ++ ev ∧
      drivenLevels .mosi ev = (if s.cfg.doutP then commandLevels s.arg len s else []) ∧
      (drivenLevels .mosi ev).length = (if s.cfg.doutP then 8 * len else 0) ∧
      drivenLevels .sclk ev = (if s.cfg.clkP then (List.replicate (8 * len) (pulse s.cfg.cpol)).flatten else []) ∧
      spinCount ev = (if s.cfg.clkP then 16 * len * s.cfg.delay.toNat else 0) ∧
      readResults ev = []

/-- R77: the trace of a WRITE in closed form; for every environment but for the statuses, and exactly where all of them are ok. -/
def Obligations.WriteTraceClosedForm : Prop :=
  ∀ (s : State) (len : Nat), Ready .write len s →
    ∃ t k u ev, exec (.write len) s = .next t ∧ Finishes k t u ∧ u.trace = s.trace ++ ev ∧
      ev.map Event.unanswered = (commandLevels s.arg len s).flatMap (bitTrace s.cfg false) ∧
      ((∀ st, st ∈ driveStatuses .mosi ev ∨ st ∈ driveStatuses .sclk ev → st = .ok) →
        ev = (commandLevels s.arg len s).flatMap (bitTrace s.cfg false))

/-- R76, R78.7, R20, R24: what a whole WRITE leaves unchanged. That the read data of the two ports stay without a read is the model's
choice (log entry 14). -/
def Obligations.WriteFrame : Prop :=
  ∀ (s : State) (len : Nat), Ready .write len s →
    ∃ t k u, exec (.write len) s = .next t ∧ Finishes k t u ∧
      u.buf = s.buf ∧ u.cfg = s.cfg ∧ u.arg = s.arg ∧ u.errval = s.errval ∧
      u.bufRdata = s.bufRdata ∧ u.regRdata = s.regRdata ∧
      (s.cfg.clkP = false → u.sclkLvl = s.sclkLvl) ∧ (s.cfg.doutP = false → u.mosiLvl = s.mosiLvl)

/-- R78.5, R78.6: the levels a WRITE of at least one word leaves on the lines. -/
def Obligations.WriteLeavesLines : Prop :=
  ∀ (s : State) (len : Nat), Ready .write len s → 0 < len →
    ∃ t k u ev, exec (.write len) s = .next t ∧ Finishes k t u ∧ u.trace = s.trace ++ ev ∧
      (s.cfg.clkP = true → ∃ st, (driveStatuses .sclk ev).getLast? = some st ∧
        u.sclkLvl = levelAfter (idleLevel s.cfg.cpol) st) ∧
      (s.cfg.doutP = true → ∃ st, (driveStatuses .mosi ev).getLast? = some st ∧
        u.mosiLvl = levelAfter (bitLevel ((wordAt s.arg (len - 1) s).getLsbD 0)) st)

/-! ### TRANSFER (43_transfer.md) -/

/-- R79, R82, R83, R86, R115: a TRANSFER ends, whatever the environment answers: with OK after exactly its stream's ticks if every
sample reads a level, else with READ_FAIL at the first failing sample. -/
def Obligations.TransferEndsOkOrReadFail : Prop :=
  ∀ (s : State) (len : Nat), Ready .transfer len s →
    ∃ t k u ev, exec (.transfer len) s = .next t ∧ Finishes k t u ∧ u.trace = s.trace ++ ev ∧ ev.length = k ∧
      ((u.result = .ok ∧ k = 8 * len * bitActionCount .transfer s.cfg ∧ u.errval = s.errval ∧
          (readResults ev).length = (if sampleGuard .transfer s.cfg then 8 * len else 0) ∧
          ∀ r, r ∈ readResults ev → isLevel r = true) ∨
       (u.result = .readFail ∧ ∃ rs e, readResults ev = rs ++ [.fail e] ∧ rs.length < 8 * len ∧
          (∀ r, r ∈ rs → isLevel r = true) ∧ u.errval = errvalOf e ∧
          k = rs.length * bitActionCount .transfer s.cfg + s.cfg.doutP.toNat +
            s.cfg.clkP.toNat * (1 + s.cfg.delay.toNat) + 1))

/-- R80, R87, R40, R79: BUF after a TRANSFER, however it ends: each bit whose sample read a level holds it, every other bit of the range
its input value, and no byte outside the range changes. -/
def Obligations.TransferFillsTheBuffer : Prop :=
  ∀ (s : State) (len : Nat), Ready .transfer len s →
    ∃ t k u ev, exec (.transfer len) s = .next t ∧ Finishes k t u ∧ u.trace = s.trace ++ ev ∧
      (∀ i w, i < len → memRead (s.arg.toNat + i) s = some w → ∃ w', memRead (s.arg.toNat + i) u = some w' ∧
        ∀ b : BitVec 3, w'.getLsbD b.toNat =
          sampledBit ((readResults ev)[streamIndex i b]?) (w.getLsbD b.toNat)) ∧
      (∀ a, a < s.arg.toNat ∨ s.arg.toNat + len ≤ a → memRead a u = memRead a s)

/-- R75: a TRANSFER drives the bits its words had when it was accepted, although it overwrites them as it goes: all of them if
it ends with OK, those up to the failing sample if it does not. -/
def Obligations.TransferDrivesInputBits : Prop :=
  ∀ (s : State) (len : Nat), Ready .transfer len s → s.cfg.doutP = true →
    ∃ t k u ev, exec (.transfer len) s = .next t ∧ Finishes k t u ∧ u.trace = s.trace ++ ev ∧
      (u.result = .ok → drivenLevels .mosi ev = commandLevels s.arg len s) ∧
      (u.result = .readFail →
        drivenLevels .mosi ev = (commandLevels s.arg len s).take (readResults ev).length)

/-- R80, R82, R77: the trace of a TRANSFER that ends with OK: that of a WRITE, with the reads at their place. -/
def Obligations.TransferTraceClosedForm : Prop :=
  ∀ (s : State) (len : Nat), Ready .transfer len s →
    ∃ t k u ev, exec (.transfer len) s = .next t ∧ Finishes k t u ∧ u.trace = s.trace ++ ev ∧
      (u.result = .ok → ev.map Event.unanswered =
        (commandLevels s.arg len s).flatMap (bitTrace s.cfg (sampleGuard .transfer s.cfg)))

/-- R80: with a clock and data-in, and an environment whose coming reads are the levels `rs`, a TRANSFER ends with OK and its words
hold `rs`, MSB first. -/
def Obligations.TransferReceivesTheReads : Prop :=
  ∀ (s : State) (len : Nat) (ds : List DriveStatus) (rs : List ReadResult),
    Ready .transfer len s → s.cfg.clkP = true → s.cfg.dinP = true → s.env = .oracle ds rs →
    8 * len ≤ rs.length → (∀ r, r ∈ rs.take (8 * len) → isLevel r = true) →
    ∃ t k u, exec (.transfer len) s = .next t ∧ Finishes k t u ∧ u.result = .ok ∧
      ∀ i, i < len → ∃ w, memRead (s.arg.toNat + i) u = some w ∧
        ∀ b : BitVec 3, rs[streamIndex i b]? = some (if w.getLsbD b.toNat then .high else .low)

/-- R86, R87, R88, R115: with a clock and data-in, an environment whose coming reads are the levels `rs` and then the failure `e` ends
the TRANSFER at bit `rs.length` of the stream: the outcome, its tick, BUF and both lines. That SCLK is left active is the
spec's decision D14. -/
def Obligations.TransferAbortsAtFailingRead : Prop :=
  ∀ (s : State) (len : Nat) (ds : List DriveStatus) (rs rest : List ReadResult) (e : PinError),
    Ready .transfer len s → s.cfg.clkP = true → s.cfg.dinP = true → s.env = .oracle ds (rs ++ .fail e :: rest) →
    rs.length < 8 * len → (∀ r, r ∈ rs → isLevel r = true) →
    ∃ t u ev, exec (.transfer len) s = .next t ∧
      Finishes (rs.length * (s.cfg.doutP.toNat + (2 + 2 * s.cfg.delay.toNat) + 1)
        + s.cfg.doutP.toNat + (1 + s.cfg.delay.toNat) + 1) t u ∧
      u.trace = s.trace ++ ev ∧ u.result = .readFail ∧ u.errval = errvalOf e ∧
      (∀ i, i < len → ∃ w, memRead (s.arg.toNat + i) u = some w ∧
        ∀ b : BitVec 3, w.getLsbD b.toNat =
          sampledBit (rs[streamIndex i b]?) ((wordAt s.arg i s).getLsbD b.toNat)) ∧
      (∃ st, (driveStatuses .sclk ev).getLast? = some st ∧
        u.sclkLvl = levelAfter (activeLevel s.cfg.cpol) st) ∧
      (s.cfg.doutP = true → ∃ st, (driveStatuses .mosi ev).getLast? = some st ∧
        u.mosiLvl = levelAfter
          (bitLevel ((wordAt s.arg (rs.length / 8) s).getLsbD (7 - rs.length % 8))) st)

/-- R81: in the loopback environment, with data-in and data-out present, a TRANSFER ends with OK and leaves every byte as it was. -/
def Obligations.LoopbackIdentity : Prop :=
  ∀ (s : State) (len : Nat), Ready .transfer len s → s.env = .loopback → s.cfg.doutP = true → s.cfg.dinP = true →
    ∃ t k u, exec (.transfer len) s = .next t ∧ Finishes k t u ∧ u.result = .ok ∧
      ∀ a, memRead a u = memRead a s

/-- R79: without data-in a TRANSFER is tick for tick the WRITE of the same words, but for OPR. -/
def Obligations.TransferWithoutDataInIsWrite : Prop :=
  ∀ (s : State) (len : Nat), Quiet s → s.busy = false → s.cfg.dinP = false →
    s.cfg.configured = true → s.arg.toNat + len ≤ Config.bufSize → len < 65536 →
    ∃ t t', exec (.transfer len) s = .next t ∧ exec (.write len) s = .next t' ∧
      ∀ k,
        (∀ u', ticks k t' = .next u' → ticks k t = .next { u' with eng := { u'.eng with opr := .transfer } }) ∧
        (∀ f, ticks k t' = .fault f → ticks k t = .fault f)

/-- R79, R20, R24, R90: what a whole TRANSFER leaves unchanged. That the read data of the two ports stay without a read is the model's
choice (log entry 14). -/
def Obligations.TransferFrame : Prop :=
  ∀ (s : State) (len : Nat), Ready .transfer len s →
    ∃ t k u, exec (.transfer len) s = .next t ∧ Finishes k t u ∧
      u.cfg = s.cfg ∧ u.arg = s.arg ∧ (u.result = .ok → u.errval = s.errval) ∧
      u.bufRdata = s.bufRdata ∧ u.regRdata = s.regRdata ∧
      (∀ a, a < s.arg.toNat ∨ s.arg.toNat + len ≤ a → memRead a u = memRead a s) ∧
      (sampleGuard .transfer s.cfg = false → u.buf = s.buf) ∧
      (s.cfg.clkP = false → u.sclkLvl = s.sclkLvl) ∧ (s.cfg.doutP = false → u.mosiLvl = s.mosiLvl)

/-! ### Invariants -/

/-- The invariant holds right after reset. -/
def Obligations.InvAtReset : Prop := State.reset.Inv

/-- Every step keeps the invariant (R20, R23, R24, R26, R28, R37, R68). -/
def Obligations.StepKeepsInv : Prop :=
  ∀ s t : State, s.Inv → step s = .next t → t.Inv

/-- Every step keeps the clock's place within a bit (R67, R70, R27). -/
def Obligations.StepKeepsClockInv : Prop :=
  ∀ s t : State, s.ClockInv → step s = .next t → t.ClockInv

/-! ### Whole-machine rules -/

/-- R20: the configuration is written only by NEW and by reset. -/
def Obligations.ConfigurationChangesOnlyByNewOrReset : Prop :=
  ∀ s t : State, step s = .next t → t.cfg ≠ s.cfg →
    resetTick s = true ∨
    ∃ w k i o p, cmdWrite (hostNow s).reg = some w ∧ decode w = .ok (.new k i o p) ∧
      t.cfg = { clkP := k, dinP := i, doutP := o, cpol := p, delay := s.arg, configured := true }

/-- R24: ERRVAL is written only when a command ends with READ_FAIL (or by reset). -/
def Obligations.ErrvalChangesOnlyByReadFail : Prop :=
  ∀ s t : State, step s = .next t → t.errval ≠ s.errval →
    resetTick s = true ∨
    (s.busy = true ∧ s.eng.phase = .sample ∧ t.busy = false ∧ t.result = .readFail ∧
      ∃ e, t.trace = s.trace ++ [.read (.fail e)] ∧ t.errval = errvalOf e)

/-- R83, R85, R73: outside reset a running command ends with OK or, a TRANSFER at a sample, with READ_FAIL, and a running command
stays running otherwise. -/
def Obligations.RunningCommandEndsWithOneOutcome : Prop :=
  ∀ s t : State, s.Inv → s.busy = true → resetTick s = false → step s = .next t →
    (t.busy = true ∧ t.result = .none ∧ t.eng.opr = s.eng.opr ∧ t.cfg = s.cfg) ∨
    (t.busy = false ∧ t.eng.phase = .idle ∧
      (t.result = .ok ∨ (t.result = .readFail ∧ s.eng.opr = .transfer ∧ s.eng.phase = .sample)))

/-- R14, R27, R28, R30: a tick appends at most one event, and exactly the event of the strobe it asserts; outside reset the record of a line
and its output register change only in a tick with that line's strobe. -/
def Obligations.TickAppendsItsStrobe : Prop :=
  ∀ s t : State, step s = .next t →
    (t.trace = s.trace ∧ t.pins.sclkStb = false ∧ t.pins.mosiStb = false ∧ t.pins.misoRd = false ∧
      (resetTick s = false → SclkKept s t ∧ MosiKept s t)) ∨
    (t.trace = s.trace ++ [.spin] ∧ t.pins.sclkStb = false ∧ t.pins.mosiStb = false ∧ t.pins.misoRd = false ∧
      SclkKept s t ∧ MosiKept s t) ∨
    (∃ l st, t.trace = s.trace ++ [.drive .sclk l st] ∧ t.pins.sclkStb = true ∧ t.pins.mosiStb = false ∧
      t.pins.misoRd = false ∧ t.pins.sclkO = .known l ∧ t.sclkLvl = levelAfter l st ∧ MosiKept s t) ∨
    (∃ l st, t.trace = s.trace ++ [.drive .mosi l st] ∧ t.pins.mosiStb = true ∧ t.pins.sclkStb = false ∧
      t.pins.misoRd = false ∧ t.pins.mosiO = .known l ∧ t.mosiLvl = levelAfter l st ∧ SclkKept s t) ∨
    (∃ r, t.trace = s.trace ++ [.read r] ∧ t.pins.misoRd = true ∧ t.pins.sclkStb = false ∧
      t.pins.mosiStb = false ∧ SclkKept s t ∧ MosiKept s t)

/-- R26, R38, R43, R22: what one tick of a running command, of any of the three commands, leaves unchanged, the host's own accesses of the
tick apart: BUF but for the byte of a SAMPLE, the configuration, the operands it latched, and the lines it does not drive. That the read data of the two
ports stay without a read is the model's choice (log entry 14). -/
def Obligations.RunningTickFrame : Prop :=
  ∀ s t : State, s.busy = true → resetTick s = false → step s = .next t →
    t.cfg = s.cfg ∧ t.eng.opr = s.eng.opr ∧ t.eng.base = s.eng.base ∧ t.eng.len = s.eng.len ∧
    ((∀ v, (hostNow s).reg ≠ .write .arg v) → t.arg = s.arg) ∧
    ((∀ r, (hostNow s).reg ≠ .read r) → t.regRdata = s.regRdata) ∧
    ((∀ a, (hostNow s).buf ≠ .read a) → t.bufRdata = s.bufRdata) ∧
    (∀ x, (s.eng.phase = .sample → x ≠ s.eng.base.toNat + s.eng.widx.toNat) →
      (∀ a v, (hostNow s).buf = .write a v → a.toNat ≠ x) → memRead x t = memRead x s) ∧
    (s.eng.phase ≠ .initClock → s.eng.phase ≠ .assertClock → s.eng.phase ≠ .deassertClock →
      t.sclkLvl = s.sclkLvl) ∧
    (s.eng.phase ≠ .driveData → t.mosiLvl = s.mosiLvl) ∧
    t.hostIn = s.hostIn.tail ∧ t.tick = s.tick + 1

/-- R85: the status of the next drive changes no outcome: it reaches the trace, the line records and the environment only, and a
failed drive of a line makes its record Unknown. -/
def Obligations.DriveStatusIsSwallowed : Prop :=
  ∀ (s : State) (ds : List DriveStatus) (rs : List ReadResult),
    (∀ t, step { s with env := .oracle (.ok :: ds) rs } = .next t →
      ∃ t', step { s with env := .oracle (.fail :: ds) rs } = .next t' ∧
        t' = { t with trace := t'.trace, sclkLvl := t'.sclkLvl, mosiLvl := t'.mosiLvl, env := t'.env } ∧
        t'.trace.map Event.unanswered = t.trace.map Event.unanswered ∧
        (t.pins.sclkStb = true → t'.sclkLvl = .unknown ∧ t'.mosiLvl = t.mosiLvl) ∧
        (t.pins.mosiStb = true → t'.mosiLvl = .unknown ∧ t'.sclkLvl = t.sclkLvl)) ∧
    (∀ f, step { s with env := .oracle (.ok :: ds) rs } = .fault f →
      step { s with env := .oracle (.fail :: ds) rs } = .fault f)

/-- R107: an ARG write while BUSY = 1 changes ARG only, and the running command goes on as without it. -/
def Obligations.ArgWriteWhileBusyChangesArgOnly : Prop :=
  ∀ (s : State) (v : Word) (hs : List HostTick), s.busy = true → s.rstLast = false →
    (∀ t, step { s with hostIn := HostTick.quiet :: hs } = .next t →
      step { s with hostIn := argTick v :: hs } = .next { t with arg := v }) ∧
    (∀ f, step { s with hostIn := HostTick.quiet :: hs } = .fault f →
      step { s with hostIn := argTick v :: hs } = .fault f)

/-- R108, R33: while a command runs, a host write of a byte outside its range stores that byte and changes nothing else. -/
def Obligations.HostWriteOutsideRunningRange : Prop :=
  ∀ (s t : State) (a : Word) (v : Byte) (hs : List HostTick), s.Inv → s.busy = true → s.rstLast = false →
    a.toNat < Config.bufSize →
    (s.eng.opr ≠ .new → a.toNat < s.eng.base.toNat ∨ s.eng.base.toNat + s.eng.len.toNat ≤ a.toNat) →
    step { s with hostIn := HostTick.quiet :: hs } = .next t →
    ∃ t', step { s with hostIn := { rst := false, reg := .idle, buf := .write a v } :: hs } = .next t' ∧
      t' = { t with buf := t'.buf } ∧
      ∀ x, memRead x t' = if x = a.toNat then some v else memRead x t

/-- R102.2, R108: a host write of a byte in the range of a running WRITE or TRANSFER is the model's fault. That it comes before the fault of
an unwritten byte is the model's choice (log entry 24). -/
def Obligations.HostWriteInRunningRangeFaults : Prop :=
  ∀ (s : State) (a : Word) (v : Byte), s.busy = true → s.eng.opr ≠ .new → resetTick s = false →
    cmdWrite (hostNow s).reg = none → (hostNow s).buf = .write a v →
    s.eng.base.toNat ≤ a.toNat → a.toNat < s.eng.base.toNat + s.eng.len.toNat →
    step s = .fault .hostWriteToRunningRange

/-- R101: in IDLE, without host access and reset, only the tick passes and the strobes fall. That the read data of the two ports stay is the
model's choice (log entry 14). -/
def Obligations.IdleBlockWaits : Prop :=
  ∀ s : State, s.busy = false → s.rstLast = false → hostNow s = HostTick.quiet →
    step s = .next
      { s with
        hostIn := s.hostIn.tail
        tick := s.tick + 1
        pins := { s.pins with sclkStb := false, mosiStb := false, misoRd := false } }

/-- R103: a tick with `rst` = 1, and the tick in which it falls, from any state and with any host access: every register and
configuration field at its reset value, no strobe, both records Unknown, and no line event. The model's reading: `rst` falls in the first tick
with `rst` = 0, and host writes in that tick are lost (log entry 12); the trace is kept (log entry 16). -/
def Obligations.ResetTickResets : Prop :=
  ∀ s : State, (hostNow s).rst = true ∨ s.rstLast = true →
    ∃ t, step s = .next t ∧
      (∀ r, regRead r t = 0) ∧ t.busy = false ∧ t.result = .none ∧
      t.cfg = { clkP := false, dinP := false, doutP := false, cpol := .idleLow, delay := 0, configured := false } ∧
      t.eng = { opr := .new, base := 0, len := 0, widx := 0, bidx := 7, phase := .idle, dcnt := 0 } ∧
      t.pins.sclkStb = false ∧ t.pins.mosiStb = false ∧ t.pins.misoRd = false ∧
      t.sclkLvl = .unknown ∧ t.mosiLvl = .unknown ∧
      (∀ a, memRead a t = none) ∧ t.trace = s.trace

/-- R103, R20, R22, R26, R27: the state right after reset. -/
def Obligations.StateAfterReset : Prop :=
  (∀ r, regRead r State.reset = 0) ∧
  State.reset.cfg = { clkP := false, dinP := false, doutP := false, cpol := .idleLow, delay := 0, configured := false } ∧
  State.reset.eng = { opr := .new, base := 0, len := 0, widx := 0, bidx := 7, phase := .idle, dcnt := 0 } ∧
  State.reset.busy = false ∧ State.reset.result = .none ∧
  State.reset.sclkLvl = .unknown ∧ State.reset.mosiLvl = .unknown ∧
  (∀ a, memRead a State.reset = none)
end

