-- ==== Sys2Proof/Laws/Encoding.lean ====
section
/-! SUPPORT. The fields of a command word as numbers, the fields of an encoded word, and every case of the decoder. -/

namespace Sys2Proof

/-! ### The fields of a word as numbers (30_encoding.md R49) -/

theorem opField_toNat (c : Word) : (opField c).toNat = c.toNat % 4 := by
  simp [opField, BitVec.extractLsb'_toNat]

theorem configField_toNat (c : Word) : (configField c).toNat = c.toNat / 4 % 16 := by
  simp [configField, BitVec.extractLsb'_toNat, Nat.shiftRight_eq_div_pow]

theorem reservedField_toNat (c : Word) : (reservedField c).toNat = c.toNat / 64 % 1024 := by
  simp [reservedField, BitVec.extractLsb'_toNat, Nat.shiftRight_eq_div_pow]

theorem lenField_toNat (c : Word) : (lenField c).toNat = c.toNat / 65536 := by
  simp [lenField, BitVec.extractLsb'_toNat, Nat.shiftRight_eq_div_pow]; omega

theorem bitVec_eq_zero_iff {n : Nat} (x : BitVec n) : x = 0 ↔ x.toNat = 0 :=
  ⟨fun h => by simp [h], fun h => BitVec.eq_of_toNat_eq (by simpa using h)⟩

/-! ### The words of WRITE and TRANSFER: a LEN, 14 zeros and an OP (R56) -/

theorem getLsbD_streamWord (n : BitVec 16) (op : BitVec 2) (j : Nat) :
    (n ++ 0#14 ++ op : Word).getLsbD j =
      if j < 2 then op.getLsbD j else if j < 16 then false else n.getLsbD (j - 16) := by
  rw [BitVec.getLsbD_append, BitVec.getLsbD_append]
  by_cases h : j < 2
  · simp [h]
  · by_cases h2 : j < 16
    · simp [h, h2, show j - 2 < 14 by omega]
    · simp [h, h2, show ¬ j - 2 < 14 by omega]; congr 1

theorem opField_streamWord (n : BitVec 16) (op : BitVec 2) : opField (n ++ 0#14 ++ op : Word) = op := by
  apply BitVec.eq_of_getLsbD_eq
  intro i hi
  simp only [opField, BitVec.getLsbD_extractLsb', getLsbD_streamWord]
  simp [hi]

theorem reservedField_streamWord (n : BitVec 16) (op : BitVec 2) :
    reservedField (n ++ 0#14 ++ op : Word) = 0 := by
  apply BitVec.eq_of_getLsbD_eq
  intro i hi
  simp only [reservedField, BitVec.getLsbD_extractLsb', getLsbD_streamWord]
  rw [if_neg (by omega), if_pos (by omega)]; simp

theorem configField_streamWord (n : BitVec 16) (op : BitVec 2) :
    configField (n ++ 0#14 ++ op : Word) = 0 := by
  apply BitVec.eq_of_getLsbD_eq
  intro i hi
  simp only [configField, BitVec.getLsbD_extractLsb', getLsbD_streamWord]
  rw [if_neg (by omega), if_pos (by omega)]; simp

theorem lenField_streamWord (n : BitVec 16) (op : BitVec 2) : lenField (n ++ 0#14 ++ op : Word) = n := by
  apply BitVec.eq_of_getLsbD_eq
  intro i hi
  simp only [lenField, BitVec.getLsbD_extractLsb', getLsbD_streamWord]
  rw [if_neg (by omega), if_neg (by omega)]; simp [hi]

theorem streamWord_toNat (n : BitVec 16) (op : BitVec 2) :
    (n ++ 0#14 ++ op : Word).toNat = n.toNat * 65536 + op.toNat := by
  have h1 := opField_toNat (n ++ 0#14 ++ op)
  have h2 := configField_toNat (n ++ 0#14 ++ op)
  have h3 := reservedField_toNat (n ++ 0#14 ++ op)
  have h4 := lenField_toNat (n ++ 0#14 ++ op)
  rw [opField_streamWord] at h1
  rw [configField_streamWord] at h2
  rw [reservedField_streamWord] at h3
  rw [lenField_streamWord] at h4
  simp at h2 h3
  omega

/-- The word of a NEW as a number. -/
theorem encode_new_toNat (k i o : Bool) (p : Polarity) :
    (encode (.new k i o p)).toNat = 4 * k.toNat + 8 * i.toNat + 16 * o.toNat + 32 * p.bit.toNat := by
  cases k <;> cases i <;> cases o <;> cases p <;> rfl

/-! ### The decoder (R52) -/

/-- Every word falls under one of these cases. -/
theorem decode_cases (c : Word) :
    (c.toNat % 4 = 3 ∧ decode c = .error .reservedOp) ∨
    (c.toNat / 64 % 1024 ≠ 0 ∧ c.toNat % 4 ≠ 3 ∧ decode c = .error .reservedBits) ∨
    (c.toNat % 4 = 0 ∧ c.toNat / 64 % 1024 = 0 ∧ c.toNat / 65536 ≠ 0 ∧ decode c = .error .newWithLen) ∨
    ((c.toNat % 4 = 1 ∨ c.toNat % 4 = 2) ∧ c.toNat / 64 % 1024 = 0 ∧ c.toNat / 4 % 16 ≠ 0 ∧
      decode c = .error .configBits) ∨
    (c.toNat < 64 ∧ c.toNat % 4 = 0 ∧
      decode c = .ok (.new (c.getLsbD 2) (c.getLsbD 3) (c.getLsbD 4) (polarityOfBit (c.getLsbD 5)))) ∨
    (c.toNat % 65536 = 1 ∧ decode c = .ok (.write (c.toNat / 65536))) ∨
    (c.toNat % 65536 = 2 ∧ decode c = .ok (.transfer (c.toNat / 65536))) := by
  have ho := opField_toNat c
  have hl := c.isLt
  have e (k : BitVec 2) : opField c = k ↔ c.toNat % 4 = k.toNat := by
    rw [← ho]; exact ⟨fun h => by rw [h], fun h => BitVec.eq_of_toNat_eq h⟩
  have er := bitVec_eq_zero_iff (reservedField c)
  have ec := bitVec_eq_zero_iff (configField c)
  have el := bitVec_eq_zero_iff (lenField c)
  rw [reservedField_toNat] at er
  rw [configField_toNat] at ec
  rw [lenField_toNat] at el
  simp only [decode, decodeNew, decodeStream, e, ne_eq, er, ec, el, lenField_toNat]
  simp
  by_cases h0 : c.toNat % 4 = 0
  · by_cases hr : c.toNat / 64 % 1024 = 0 <;> by_cases h3 : c.toNat / 65536 = 0 <;> simp [h0, hr, h3] <;> omega
  · by_cases h1 : c.toNat % 4 = 1
    · by_cases hr : c.toNat / 64 % 1024 = 0 <;> by_cases h3 : c.toNat / 4 % 16 = 0 <;> (simp [h1, hr, h3]; try omega)
    · by_cases h2 : c.toNat % 4 = 2
      · by_cases hr : c.toNat / 64 % 1024 = 0 <;> by_cases h3 : c.toNat / 4 % 16 = 0 <;> (simp [h2, hr, h3]; try omega)
      · simp [h0, h1, h2]; omega

/-- A decoded LEN fits its 16 bits (R51). -/
theorem decode_len_lt {c : Word} {len : Nat} (h : decode c = .ok (.write len) ∨ decode c = .ok (.transfer len)) :
    len < 65536 := by
  have hl := c.isLt
  rcases decode_cases c with ⟨_, d⟩ | ⟨_, _, d⟩ | ⟨_, _, _, d⟩ | ⟨_, _, _, d⟩ | ⟨_, _, d⟩ | ⟨_, d⟩ | ⟨_, d⟩ <;>
    simp [d] at h <;> omega

end Sys2Proof
end

