-- ==== Sys2Proof/Laws/Memory.lean ====
section
/-! SUPPORT. The laws of BUF: a read after a write, and that every memory operation keeps the canonical form. -/

namespace Sys2Proof.Machine

theorem Memory.read_write (m : Memory) (a : Nat) (v : Byte) (x : Nat) :
    Memory.read (Memory.write m a v) x = if x = a then some v else Memory.read m x := by
  induction m with
  | nil => simp [Memory.write, Memory.read]
  | cons c m ih =>
    simp only [Memory.write]
    split
    · simp [Memory.read]
    · split
      · rename_i h; subst h; simp only [Memory.read]; split <;> rfl
      · rename_i h
        simp only [Memory.read, ih]
        by_cases hx : x = c.1
        · subst hx; simp [Ne.symm h]
        · simp [hx]

theorem Memory.read_write_same (m : Memory) (a : Nat) (v : Byte) :
    Memory.read (Memory.write m a v) a = some v := by simp [Memory.read_write]

theorem Memory.read_write_other (m : Memory) {a x : Nat} (v : Byte) (h : x ≠ a) :
    Memory.read (Memory.write m a v) x = Memory.read m x := by simp [Memory.read_write, h]

theorem Memory.wfFrom_write {size a : Nat} (ha : a < size) (v : Byte) :
    ∀ (m : Memory) (lo : Nat), lo ≤ a → Memory.wfFrom size lo m = true →
      Memory.wfFrom size lo (Memory.write m a v) = true
  | [], lo, hlo, _ => by simp [Memory.write, Memory.wfFrom, hlo, ha]
  | c :: m, lo, hlo, h => by
    simp only [Memory.wfFrom, Bool.and_eq_true, decide_eq_true_eq] at h
    obtain ⟨⟨h1, h2⟩, h3⟩ := h
    simp only [Memory.write]
    split
    · rename_i hac
      simp [Memory.wfFrom, hlo, ha, h2, h3]; omega
    · split
      · rename_i hac; subst hac; simp [Memory.wfFrom, h1, ha, h3]
      · simp only [Memory.wfFrom, Bool.and_eq_true, decide_eq_true_eq]
        exact ⟨⟨h1, h2⟩, Memory.wfFrom_write ha v m _ (by omega) h3⟩

/-- A write of an address of BUF keeps the canonical form. -/
theorem Memory.wf_write {m : Memory} (hm : Memory.wf m = true) {a : Nat} (ha : a < Config.bufSize) (v : Byte) :
    Memory.wf (Memory.write m a v) = true := Memory.wfFrom_write ha v m 0 (Nat.zero_le _) hm

theorem Memory.wf_nil : Memory.wf [] = true := rfl

/-- The memory of the reset state has the canonical form. -/
theorem State.reset_buf_wf : Memory.wf State.reset.buf = true := rfl

theorem Memory.read_none_of_lt {size : Nat} :
    ∀ (m : Memory) (lo a : Nat), Memory.wfFrom size lo m = true → a < lo → Memory.read m a = none
  | [], _, _, _, _ => rfl
  | c :: m, lo, a, h, ha => by
    simp only [Memory.wfFrom, Bool.and_eq_true, decide_eq_true_eq] at h
    simp only [Memory.read]
    rw [if_neg (by omega)]
    exact Memory.read_none_of_lt m _ a h.2 (by omega)

/-- A canonical buffer lists addresses of BUF only. -/
theorem Memory.read_lt {size : Nat} :
    ∀ (m : Memory) (lo a : Nat) (w : Byte), Memory.wfFrom size lo m = true → Memory.read m a = some w → a < size
  | [], _, _, _, _, h => by simp [Memory.read] at h
  | c :: m, lo, a, w, hw, h => by
    simp only [Memory.wfFrom, Bool.and_eq_true, decide_eq_true_eq] at hw
    simp only [Memory.read] at h
    split at h
    · rename_i hac; rw [hac]; exact hw.1.2
    · exact Memory.read_lt m _ a w hw.2 h

/-! ### Through the state -/

theorem memRead_memWrite (a x : Nat) (v : Byte) (s : State) :
    memRead x (memWrite a v s) = if x = a then some v else memRead x s :=
  Memory.read_write s.buf a v x

theorem memRead_eq_of_buf {s t : State} (h : t.buf = s.buf) (x : Nat) : memRead x t = memRead x s := by
  simp [memRead, h]

end Sys2Proof.Machine
end

