-- ==== Sys2Proof/Laws/State.lean ====
section
/-! SUPPORT. The fields of the state after each update of Machine/Ops.lean and Machine/Engine.lean: one lemma per field per update. -/

namespace Sys2Proof.Machine

/-! ### `memWrite` -/

@[simp] theorem memWrite_cfg (a : Nat) (v : Byte) (s : State) : (memWrite a v s).cfg = s.cfg := rfl
@[simp] theorem memWrite_arg (a : Nat) (v : Byte) (s : State) : (memWrite a v s).arg = s.arg := rfl
@[simp] theorem memWrite_busy (a : Nat) (v : Byte) (s : State) : (memWrite a v s).busy = s.busy := rfl
@[simp] theorem memWrite_result (a : Nat) (v : Byte) (s : State) : (memWrite a v s).result = s.result := rfl
@[simp] theorem memWrite_errval (a : Nat) (v : Byte) (s : State) : (memWrite a v s).errval = s.errval := rfl
@[simp] theorem memWrite_eng (a : Nat) (v : Byte) (s : State) : (memWrite a v s).eng = s.eng := rfl
@[simp] theorem memWrite_sclkLvl (a : Nat) (v : Byte) (s : State) : (memWrite a v s).sclkLvl = s.sclkLvl := rfl
@[simp] theorem memWrite_mosiLvl (a : Nat) (v : Byte) (s : State) : (memWrite a v s).mosiLvl = s.mosiLvl := rfl
@[simp] theorem memWrite_pins (a : Nat) (v : Byte) (s : State) : (memWrite a v s).pins = s.pins := rfl
@[simp] theorem memWrite_buf (a : Nat) (v : Byte) (s : State) : (memWrite a v s).buf = Memory.write s.buf a v := rfl
@[simp] theorem memWrite_trace (a : Nat) (v : Byte) (s : State) : (memWrite a v s).trace = s.trace := rfl
@[simp] theorem memWrite_bufRdata (a : Nat) (v : Byte) (s : State) : (memWrite a v s).bufRdata = s.bufRdata := rfl
@[simp] theorem memWrite_regRdata (a : Nat) (v : Byte) (s : State) : (memWrite a v s).regRdata = s.regRdata := rfl
@[simp] theorem memWrite_rstLast (a : Nat) (v : Byte) (s : State) : (memWrite a v s).rstLast = s.rstLast := rfl
@[simp] theorem memWrite_hostIn (a : Nat) (v : Byte) (s : State) : (memWrite a v s).hostIn = s.hostIn := rfl
@[simp] theorem memWrite_env (a : Nat) (v : Byte) (s : State) : (memWrite a v s).env = s.env := rfl
@[simp] theorem memWrite_tick (a : Nat) (v : Byte) (s : State) : (memWrite a v s).tick = s.tick := rfl

/-! ### `driveSclk` -/

@[simp] theorem driveSclk_cfg (l : Level) (s : State) : (driveSclk l s).cfg = s.cfg := rfl
@[simp] theorem driveSclk_arg (l : Level) (s : State) : (driveSclk l s).arg = s.arg := rfl
@[simp] theorem driveSclk_busy (l : Level) (s : State) : (driveSclk l s).busy = s.busy := rfl
@[simp] theorem driveSclk_result (l : Level) (s : State) : (driveSclk l s).result = s.result := rfl
@[simp] theorem driveSclk_errval (l : Level) (s : State) : (driveSclk l s).errval = s.errval := rfl
@[simp] theorem driveSclk_eng (l : Level) (s : State) : (driveSclk l s).eng = s.eng := rfl
@[simp] theorem driveSclk_sclkLvl (l : Level) (s : State) : (driveSclk l s).sclkLvl = levelAfter l (s.env.drive s.tick).1 := rfl
@[simp] theorem driveSclk_mosiLvl (l : Level) (s : State) : (driveSclk l s).mosiLvl = s.mosiLvl := rfl
@[simp] theorem driveSclk_pins (l : Level) (s : State) : (driveSclk l s).pins = { s.pins with sclkO := .known l, sclkStb := true } := rfl
@[simp] theorem driveSclk_buf (l : Level) (s : State) : (driveSclk l s).buf = s.buf := rfl
@[simp] theorem driveSclk_trace (l : Level) (s : State) : (driveSclk l s).trace = s.trace ++ [.drive .sclk l (s.env.drive s.tick).1] := rfl
@[simp] theorem driveSclk_bufRdata (l : Level) (s : State) : (driveSclk l s).bufRdata = s.bufRdata := rfl
@[simp] theorem driveSclk_regRdata (l : Level) (s : State) : (driveSclk l s).regRdata = s.regRdata := rfl
@[simp] theorem driveSclk_rstLast (l : Level) (s : State) : (driveSclk l s).rstLast = s.rstLast := rfl
@[simp] theorem driveSclk_hostIn (l : Level) (s : State) : (driveSclk l s).hostIn = s.hostIn := rfl
@[simp] theorem driveSclk_env (l : Level) (s : State) : (driveSclk l s).env = (s.env.drive s.tick).2 := rfl
@[simp] theorem driveSclk_tick (l : Level) (s : State) : (driveSclk l s).tick = s.tick := rfl

/-! ### `driveMosi` -/

@[simp] theorem driveMosi_cfg (l : Level) (s : State) : (driveMosi l s).cfg = s.cfg := rfl
@[simp] theorem driveMosi_arg (l : Level) (s : State) : (driveMosi l s).arg = s.arg := rfl
@[simp] theorem driveMosi_busy (l : Level) (s : State) : (driveMosi l s).busy = s.busy := rfl
@[simp] theorem driveMosi_result (l : Level) (s : State) : (driveMosi l s).result = s.result := rfl
@[simp] theorem driveMosi_errval (l : Level) (s : State) : (driveMosi l s).errval = s.errval := rfl
@[simp] theorem driveMosi_eng (l : Level) (s : State) : (driveMosi l s).eng = s.eng := rfl
@[simp] theorem driveMosi_sclkLvl (l : Level) (s : State) : (driveMosi l s).sclkLvl = s.sclkLvl := rfl
@[simp] theorem driveMosi_mosiLvl (l : Level) (s : State) : (driveMosi l s).mosiLvl = levelAfter l (s.env.drive s.tick).1 := rfl
@[simp] theorem driveMosi_pins (l : Level) (s : State) : (driveMosi l s).pins = { s.pins with mosiO := .known l, mosiStb := true } := rfl
@[simp] theorem driveMosi_buf (l : Level) (s : State) : (driveMosi l s).buf = s.buf := rfl
@[simp] theorem driveMosi_trace (l : Level) (s : State) : (driveMosi l s).trace = s.trace ++ [.drive .mosi l (s.env.drive s.tick).1] := rfl
@[simp] theorem driveMosi_bufRdata (l : Level) (s : State) : (driveMosi l s).bufRdata = s.bufRdata := rfl
@[simp] theorem driveMosi_regRdata (l : Level) (s : State) : (driveMosi l s).regRdata = s.regRdata := rfl
@[simp] theorem driveMosi_rstLast (l : Level) (s : State) : (driveMosi l s).rstLast = s.rstLast := rfl
@[simp] theorem driveMosi_hostIn (l : Level) (s : State) : (driveMosi l s).hostIn = s.hostIn := rfl
@[simp] theorem driveMosi_env (l : Level) (s : State) : (driveMosi l s).env = (s.env.drive s.tick).2 := rfl
@[simp] theorem driveMosi_tick (l : Level) (s : State) : (driveMosi l s).tick = s.tick := rfl

/-! ### `readMiso` -/

@[simp] theorem readMiso_cfg (s : State) : (readMiso s).cfg = s.cfg := rfl
@[simp] theorem readMiso_arg (s : State) : (readMiso s).arg = s.arg := rfl
@[simp] theorem readMiso_busy (s : State) : (readMiso s).busy = s.busy := rfl
@[simp] theorem readMiso_result (s : State) : (readMiso s).result = s.result := rfl
@[simp] theorem readMiso_errval (s : State) : (readMiso s).errval = s.errval := rfl
@[simp] theorem readMiso_eng (s : State) : (readMiso s).eng = s.eng := rfl
@[simp] theorem readMiso_sclkLvl (s : State) : (readMiso s).sclkLvl = s.sclkLvl := rfl
@[simp] theorem readMiso_mosiLvl (s : State) : (readMiso s).mosiLvl = s.mosiLvl := rfl
@[simp] theorem readMiso_pins (s : State) : (readMiso s).pins = { s.pins with misoRd := true } := rfl
@[simp] theorem readMiso_buf (s : State) : (readMiso s).buf = s.buf := rfl
@[simp] theorem readMiso_trace (s : State) : (readMiso s).trace = s.trace ++ [.read (misoResult s)] := rfl
@[simp] theorem readMiso_bufRdata (s : State) : (readMiso s).bufRdata = s.bufRdata := rfl
@[simp] theorem readMiso_regRdata (s : State) : (readMiso s).regRdata = s.regRdata := rfl
@[simp] theorem readMiso_rstLast (s : State) : (readMiso s).rstLast = s.rstLast := rfl
@[simp] theorem readMiso_hostIn (s : State) : (readMiso s).hostIn = s.hostIn := rfl
@[simp] theorem readMiso_env (s : State) : (readMiso s).env = (s.env.read s.trace s.tick).2 := rfl
@[simp] theorem readMiso_tick (s : State) : (readMiso s).tick = s.tick := rfl

/-! ### `spin` -/

@[simp] theorem spin_cfg (s : State) : (spin s).cfg = s.cfg := rfl
@[simp] theorem spin_arg (s : State) : (spin s).arg = s.arg := rfl
@[simp] theorem spin_busy (s : State) : (spin s).busy = s.busy := rfl
@[simp] theorem spin_result (s : State) : (spin s).result = s.result := rfl
@[simp] theorem spin_errval (s : State) : (spin s).errval = s.errval := rfl
@[simp] theorem spin_eng (s : State) : (spin s).eng = s.eng := rfl
@[simp] theorem spin_sclkLvl (s : State) : (spin s).sclkLvl = s.sclkLvl := rfl
@[simp] theorem spin_mosiLvl (s : State) : (spin s).mosiLvl = s.mosiLvl := rfl
@[simp] theorem spin_pins (s : State) : (spin s).pins = s.pins := rfl
@[simp] theorem spin_buf (s : State) : (spin s).buf = s.buf := rfl
@[simp] theorem spin_trace (s : State) : (spin s).trace = s.trace ++ [.spin] := rfl
@[simp] theorem spin_bufRdata (s : State) : (spin s).bufRdata = s.bufRdata := rfl
@[simp] theorem spin_regRdata (s : State) : (spin s).regRdata = s.regRdata := rfl
@[simp] theorem spin_rstLast (s : State) : (spin s).rstLast = s.rstLast := rfl
@[simp] theorem spin_hostIn (s : State) : (spin s).hostIn = s.hostIn := rfl
@[simp] theorem spin_env (s : State) : (spin s).env = s.env := rfl
@[simp] theorem spin_tick (s : State) : (spin s).tick = s.tick := rfl

/-! ### `completeOk` -/

@[simp] theorem completeOk_cfg (s : State) : (completeOk s).cfg = s.cfg := rfl
@[simp] theorem completeOk_arg (s : State) : (completeOk s).arg = s.arg := rfl
@[simp] theorem completeOk_busy (s : State) : (completeOk s).busy = false := rfl
@[simp] theorem completeOk_result (s : State) : (completeOk s).result = .ok := rfl
@[simp] theorem completeOk_errval (s : State) : (completeOk s).errval = s.errval := rfl
@[simp] theorem completeOk_eng (s : State) : (completeOk s).eng = { s.eng with phase := .idle } := rfl
@[simp] theorem completeOk_sclkLvl (s : State) : (completeOk s).sclkLvl = s.sclkLvl := rfl
@[simp] theorem completeOk_mosiLvl (s : State) : (completeOk s).mosiLvl = s.mosiLvl := rfl
@[simp] theorem completeOk_pins (s : State) : (completeOk s).pins = s.pins := rfl
@[simp] theorem completeOk_buf (s : State) : (completeOk s).buf = s.buf := rfl
@[simp] theorem completeOk_trace (s : State) : (completeOk s).trace = s.trace := rfl
@[simp] theorem completeOk_bufRdata (s : State) : (completeOk s).bufRdata = s.bufRdata := rfl
@[simp] theorem completeOk_regRdata (s : State) : (completeOk s).regRdata = s.regRdata := rfl
@[simp] theorem completeOk_rstLast (s : State) : (completeOk s).rstLast = s.rstLast := rfl
@[simp] theorem completeOk_hostIn (s : State) : (completeOk s).hostIn = s.hostIn := rfl
@[simp] theorem completeOk_env (s : State) : (completeOk s).env = s.env := rfl
@[simp] theorem completeOk_tick (s : State) : (completeOk s).tick = s.tick := rfl

/-! ### `raiseReadFail` -/

@[simp] theorem raiseReadFail_cfg (e : PinError) (s : State) : (raiseReadFail e s).cfg = s.cfg := rfl
@[simp] theorem raiseReadFail_arg (e : PinError) (s : State) : (raiseReadFail e s).arg = s.arg := rfl
@[simp] theorem raiseReadFail_busy (e : PinError) (s : State) : (raiseReadFail e s).busy = false := rfl
@[simp] theorem raiseReadFail_result (e : PinError) (s : State) : (raiseReadFail e s).result = .readFail := rfl
@[simp] theorem raiseReadFail_errval (e : PinError) (s : State) : (raiseReadFail e s).errval = errvalOf e := rfl
@[simp] theorem raiseReadFail_eng (e : PinError) (s : State) : (raiseReadFail e s).eng = { s.eng with phase := .idle } := rfl
@[simp] theorem raiseReadFail_sclkLvl (e : PinError) (s : State) : (raiseReadFail e s).sclkLvl = s.sclkLvl := rfl
@[simp] theorem raiseReadFail_mosiLvl (e : PinError) (s : State) : (raiseReadFail e s).mosiLvl = s.mosiLvl := rfl
@[simp] theorem raiseReadFail_pins (e : PinError) (s : State) : (raiseReadFail e s).pins = s.pins := rfl
@[simp] theorem raiseReadFail_buf (e : PinError) (s : State) : (raiseReadFail e s).buf = s.buf := rfl
@[simp] theorem raiseReadFail_trace (e : PinError) (s : State) : (raiseReadFail e s).trace = s.trace := rfl
@[simp] theorem raiseReadFail_bufRdata (e : PinError) (s : State) : (raiseReadFail e s).bufRdata = s.bufRdata := rfl
@[simp] theorem raiseReadFail_regRdata (e : PinError) (s : State) : (raiseReadFail e s).regRdata = s.regRdata := rfl
@[simp] theorem raiseReadFail_rstLast (e : PinError) (s : State) : (raiseReadFail e s).rstLast = s.rstLast := rfl
@[simp] theorem raiseReadFail_hostIn (e : PinError) (s : State) : (raiseReadFail e s).hostIn = s.hostIn := rfl
@[simp] theorem raiseReadFail_env (e : PinError) (s : State) : (raiseReadFail e s).env = s.env := rfl
@[simp] theorem raiseReadFail_tick (e : PinError) (s : State) : (raiseReadFail e s).tick = s.tick := rfl

/-! ### `raiseIllegal` -/

@[simp] theorem raiseIllegal_cfg (s : State) : (raiseIllegal s).cfg = s.cfg := rfl
@[simp] theorem raiseIllegal_arg (s : State) : (raiseIllegal s).arg = s.arg := rfl
@[simp] theorem raiseIllegal_busy (s : State) : (raiseIllegal s).busy = s.busy := rfl
@[simp] theorem raiseIllegal_result (s : State) : (raiseIllegal s).result = .illegal := rfl
@[simp] theorem raiseIllegal_errval (s : State) : (raiseIllegal s).errval = s.errval := rfl
@[simp] theorem raiseIllegal_eng (s : State) : (raiseIllegal s).eng = s.eng := rfl
@[simp] theorem raiseIllegal_sclkLvl (s : State) : (raiseIllegal s).sclkLvl = s.sclkLvl := rfl
@[simp] theorem raiseIllegal_mosiLvl (s : State) : (raiseIllegal s).mosiLvl = s.mosiLvl := rfl
@[simp] theorem raiseIllegal_pins (s : State) : (raiseIllegal s).pins = s.pins := rfl
@[simp] theorem raiseIllegal_buf (s : State) : (raiseIllegal s).buf = s.buf := rfl
@[simp] theorem raiseIllegal_trace (s : State) : (raiseIllegal s).trace = s.trace := rfl
@[simp] theorem raiseIllegal_bufRdata (s : State) : (raiseIllegal s).bufRdata = s.bufRdata := rfl
@[simp] theorem raiseIllegal_regRdata (s : State) : (raiseIllegal s).regRdata = s.regRdata := rfl
@[simp] theorem raiseIllegal_rstLast (s : State) : (raiseIllegal s).rstLast = s.rstLast := rfl
@[simp] theorem raiseIllegal_hostIn (s : State) : (raiseIllegal s).hostIn = s.hostIn := rfl
@[simp] theorem raiseIllegal_env (s : State) : (raiseIllegal s).env = s.env := rfl
@[simp] theorem raiseIllegal_tick (s : State) : (raiseIllegal s).tick = s.tick := rfl

/-! ### `setPhase` -/

@[simp] theorem setPhase_cfg (p : Phase) (s : State) : (setPhase p s).cfg = s.cfg := rfl
@[simp] theorem setPhase_arg (p : Phase) (s : State) : (setPhase p s).arg = s.arg := rfl
@[simp] theorem setPhase_busy (p : Phase) (s : State) : (setPhase p s).busy = s.busy := rfl
@[simp] theorem setPhase_result (p : Phase) (s : State) : (setPhase p s).result = s.result := rfl
@[simp] theorem setPhase_errval (p : Phase) (s : State) : (setPhase p s).errval = s.errval := rfl
@[simp] theorem setPhase_eng (p : Phase) (s : State) : (setPhase p s).eng = { s.eng with phase := p } := rfl
@[simp] theorem setPhase_sclkLvl (p : Phase) (s : State) : (setPhase p s).sclkLvl = s.sclkLvl := rfl
@[simp] theorem setPhase_mosiLvl (p : Phase) (s : State) : (setPhase p s).mosiLvl = s.mosiLvl := rfl
@[simp] theorem setPhase_pins (p : Phase) (s : State) : (setPhase p s).pins = s.pins := rfl
@[simp] theorem setPhase_buf (p : Phase) (s : State) : (setPhase p s).buf = s.buf := rfl
@[simp] theorem setPhase_trace (p : Phase) (s : State) : (setPhase p s).trace = s.trace := rfl
@[simp] theorem setPhase_bufRdata (p : Phase) (s : State) : (setPhase p s).bufRdata = s.bufRdata := rfl
@[simp] theorem setPhase_regRdata (p : Phase) (s : State) : (setPhase p s).regRdata = s.regRdata := rfl
@[simp] theorem setPhase_rstLast (p : Phase) (s : State) : (setPhase p s).rstLast = s.rstLast := rfl
@[simp] theorem setPhase_hostIn (p : Phase) (s : State) : (setPhase p s).hostIn = s.hostIn := rfl
@[simp] theorem setPhase_env (p : Phase) (s : State) : (setPhase p s).env = s.env := rfl
@[simp] theorem setPhase_tick (p : Phase) (s : State) : (setPhase p s).tick = s.tick := rfl

/-! ### `beginTick` -/

@[simp] theorem beginTick_cfg (s : State) : (beginTick s).cfg = s.cfg := rfl
@[simp] theorem beginTick_arg (s : State) : (beginTick s).arg = s.arg := rfl
@[simp] theorem beginTick_busy (s : State) : (beginTick s).busy = s.busy := rfl
@[simp] theorem beginTick_result (s : State) : (beginTick s).result = s.result := rfl
@[simp] theorem beginTick_errval (s : State) : (beginTick s).errval = s.errval := rfl
@[simp] theorem beginTick_eng (s : State) : (beginTick s).eng = s.eng := rfl
@[simp] theorem beginTick_sclkLvl (s : State) : (beginTick s).sclkLvl = s.sclkLvl := rfl
@[simp] theorem beginTick_mosiLvl (s : State) : (beginTick s).mosiLvl = s.mosiLvl := rfl
@[simp] theorem beginTick_pins (s : State) : (beginTick s).pins = { s.pins with sclkStb := false, mosiStb := false, misoRd := false } := rfl
@[simp] theorem beginTick_buf (s : State) : (beginTick s).buf = s.buf := rfl
@[simp] theorem beginTick_trace (s : State) : (beginTick s).trace = s.trace := rfl
@[simp] theorem beginTick_bufRdata (s : State) : (beginTick s).bufRdata = s.bufRdata := rfl
@[simp] theorem beginTick_regRdata (s : State) : (beginTick s).regRdata = s.regRdata := rfl
@[simp] theorem beginTick_rstLast (s : State) : (beginTick s).rstLast = (hostNow s).rst := rfl
@[simp] theorem beginTick_hostIn (s : State) : (beginTick s).hostIn = s.hostIn.tail := rfl
@[simp] theorem beginTick_env (s : State) : (beginTick s).env = s.env := rfl
@[simp] theorem beginTick_tick (s : State) : (beginTick s).tick = s.tick + 1 := rfl

/-! ### `initClock` -/

@[simp] theorem initClock_cfg (s : State) : (initClock s).cfg = s.cfg := rfl
@[simp] theorem initClock_arg (s : State) : (initClock s).arg = s.arg := rfl
@[simp] theorem initClock_busy (s : State) : (initClock s).busy = s.busy := rfl
@[simp] theorem initClock_result (s : State) : (initClock s).result = s.result := rfl
@[simp] theorem initClock_errval (s : State) : (initClock s).errval = s.errval := rfl
@[simp] theorem initClock_eng (s : State) : (initClock s).eng = s.eng := rfl
@[simp] theorem initClock_sclkLvl (s : State) : (initClock s).sclkLvl = levelAfter (idleLevel s.cfg.cpol) (s.env.drive s.tick).1 := rfl
@[simp] theorem initClock_mosiLvl (s : State) : (initClock s).mosiLvl = s.mosiLvl := rfl
@[simp] theorem initClock_pins (s : State) : (initClock s).pins = { s.pins with sclkO := .known (idleLevel s.cfg.cpol), sclkStb := true } := rfl
@[simp] theorem initClock_buf (s : State) : (initClock s).buf = s.buf := rfl
@[simp] theorem initClock_trace (s : State) : (initClock s).trace = s.trace ++ [.drive .sclk (idleLevel s.cfg.cpol) (s.env.drive s.tick).1] := rfl
@[simp] theorem initClock_bufRdata (s : State) : (initClock s).bufRdata = s.bufRdata := rfl
@[simp] theorem initClock_regRdata (s : State) : (initClock s).regRdata = s.regRdata := rfl
@[simp] theorem initClock_rstLast (s : State) : (initClock s).rstLast = s.rstLast := rfl
@[simp] theorem initClock_hostIn (s : State) : (initClock s).hostIn = s.hostIn := rfl
@[simp] theorem initClock_env (s : State) : (initClock s).env = (s.env.drive s.tick).2 := rfl
@[simp] theorem initClock_tick (s : State) : (initClock s).tick = s.tick := rfl

/-! ### `assertClock` -/

@[simp] theorem assertClock_cfg (s : State) : (assertClock s).cfg = s.cfg := rfl
@[simp] theorem assertClock_arg (s : State) : (assertClock s).arg = s.arg := rfl
@[simp] theorem assertClock_busy (s : State) : (assertClock s).busy = s.busy := rfl
@[simp] theorem assertClock_result (s : State) : (assertClock s).result = s.result := rfl
@[simp] theorem assertClock_errval (s : State) : (assertClock s).errval = s.errval := rfl
@[simp] theorem assertClock_eng (s : State) : (assertClock s).eng = { s.eng with dcnt := s.cfg.delay } := rfl
@[simp] theorem assertClock_sclkLvl (s : State) : (assertClock s).sclkLvl = levelAfter (activeLevel s.cfg.cpol) (s.env.drive s.tick).1 := rfl
@[simp] theorem assertClock_mosiLvl (s : State) : (assertClock s).mosiLvl = s.mosiLvl := rfl
@[simp] theorem assertClock_pins (s : State) : (assertClock s).pins = { s.pins with sclkO := .known (activeLevel s.cfg.cpol), sclkStb := true } := rfl
@[simp] theorem assertClock_buf (s : State) : (assertClock s).buf = s.buf := rfl
@[simp] theorem assertClock_trace (s : State) : (assertClock s).trace = s.trace ++ [.drive .sclk (activeLevel s.cfg.cpol) (s.env.drive s.tick).1] := rfl
@[simp] theorem assertClock_bufRdata (s : State) : (assertClock s).bufRdata = s.bufRdata := rfl
@[simp] theorem assertClock_regRdata (s : State) : (assertClock s).regRdata = s.regRdata := rfl
@[simp] theorem assertClock_rstLast (s : State) : (assertClock s).rstLast = s.rstLast := rfl
@[simp] theorem assertClock_hostIn (s : State) : (assertClock s).hostIn = s.hostIn := rfl
@[simp] theorem assertClock_env (s : State) : (assertClock s).env = (s.env.drive s.tick).2 := rfl
@[simp] theorem assertClock_tick (s : State) : (assertClock s).tick = s.tick := rfl

/-! ### `deassertClock` -/

@[simp] theorem deassertClock_cfg (s : State) : (deassertClock s).cfg = s.cfg := rfl
@[simp] theorem deassertClock_arg (s : State) : (deassertClock s).arg = s.arg := rfl
@[simp] theorem deassertClock_busy (s : State) : (deassertClock s).busy = s.busy := rfl
@[simp] theorem deassertClock_result (s : State) : (deassertClock s).result = s.result := rfl
@[simp] theorem deassertClock_errval (s : State) : (deassertClock s).errval = s.errval := rfl
@[simp] theorem deassertClock_eng (s : State) : (deassertClock s).eng = { s.eng with dcnt := s.cfg.delay } := rfl
@[simp] theorem deassertClock_sclkLvl (s : State) : (deassertClock s).sclkLvl = levelAfter (idleLevel s.cfg.cpol) (s.env.drive s.tick).1 := rfl
@[simp] theorem deassertClock_mosiLvl (s : State) : (deassertClock s).mosiLvl = s.mosiLvl := rfl
@[simp] theorem deassertClock_pins (s : State) : (deassertClock s).pins = { s.pins with sclkO := .known (idleLevel s.cfg.cpol), sclkStb := true } := rfl
@[simp] theorem deassertClock_buf (s : State) : (deassertClock s).buf = s.buf := rfl
@[simp] theorem deassertClock_trace (s : State) : (deassertClock s).trace = s.trace ++ [.drive .sclk (idleLevel s.cfg.cpol) (s.env.drive s.tick).1] := rfl
@[simp] theorem deassertClock_bufRdata (s : State) : (deassertClock s).bufRdata = s.bufRdata := rfl
@[simp] theorem deassertClock_regRdata (s : State) : (deassertClock s).regRdata = s.regRdata := rfl
@[simp] theorem deassertClock_rstLast (s : State) : (deassertClock s).rstLast = s.rstLast := rfl
@[simp] theorem deassertClock_hostIn (s : State) : (deassertClock s).hostIn = s.hostIn := rfl
@[simp] theorem deassertClock_env (s : State) : (deassertClock s).env = (s.env.drive s.tick).2 := rfl
@[simp] theorem deassertClock_tick (s : State) : (deassertClock s).tick = s.tick := rfl

/-! ### `waitOnce` -/

@[simp] theorem waitOnce_cfg (s : State) : (waitOnce s).cfg = s.cfg := rfl
@[simp] theorem waitOnce_arg (s : State) : (waitOnce s).arg = s.arg := rfl
@[simp] theorem waitOnce_busy (s : State) : (waitOnce s).busy = s.busy := rfl
@[simp] theorem waitOnce_result (s : State) : (waitOnce s).result = s.result := rfl
@[simp] theorem waitOnce_errval (s : State) : (waitOnce s).errval = s.errval := rfl
@[simp] theorem waitOnce_eng (s : State) : (waitOnce s).eng = { s.eng with dcnt := s.eng.dcnt - 1 } := rfl
@[simp] theorem waitOnce_sclkLvl (s : State) : (waitOnce s).sclkLvl = s.sclkLvl := rfl
@[simp] theorem waitOnce_mosiLvl (s : State) : (waitOnce s).mosiLvl = s.mosiLvl := rfl
@[simp] theorem waitOnce_pins (s : State) : (waitOnce s).pins = s.pins := rfl
@[simp] theorem waitOnce_buf (s : State) : (waitOnce s).buf = s.buf := rfl
@[simp] theorem waitOnce_trace (s : State) : (waitOnce s).trace = s.trace ++ [.spin] := rfl
@[simp] theorem waitOnce_bufRdata (s : State) : (waitOnce s).bufRdata = s.bufRdata := rfl
@[simp] theorem waitOnce_regRdata (s : State) : (waitOnce s).regRdata = s.regRdata := rfl
@[simp] theorem waitOnce_rstLast (s : State) : (waitOnce s).rstLast = s.rstLast := rfl
@[simp] theorem waitOnce_hostIn (s : State) : (waitOnce s).hostIn = s.hostIn := rfl
@[simp] theorem waitOnce_env (s : State) : (waitOnce s).env = s.env := rfl
@[simp] theorem waitOnce_tick (s : State) : (waitOnce s).tick = s.tick := rfl

/-! ### `applyReset` -/

@[simp] theorem applyReset_cfg (s : State) : (applyReset s).cfg = State.reset.cfg := rfl
@[simp] theorem applyReset_arg (s : State) : (applyReset s).arg = State.reset.arg := rfl
@[simp] theorem applyReset_busy (s : State) : (applyReset s).busy = State.reset.busy := rfl
@[simp] theorem applyReset_result (s : State) : (applyReset s).result = State.reset.result := rfl
@[simp] theorem applyReset_errval (s : State) : (applyReset s).errval = State.reset.errval := rfl
@[simp] theorem applyReset_eng (s : State) : (applyReset s).eng = State.reset.eng := rfl
@[simp] theorem applyReset_sclkLvl (s : State) : (applyReset s).sclkLvl = State.reset.sclkLvl := rfl
@[simp] theorem applyReset_mosiLvl (s : State) : (applyReset s).mosiLvl = State.reset.mosiLvl := rfl
@[simp] theorem applyReset_pins (s : State) : (applyReset s).pins = State.reset.pins := rfl
@[simp] theorem applyReset_buf (s : State) : (applyReset s).buf = State.reset.buf := rfl
@[simp] theorem applyReset_trace (s : State) : (applyReset s).trace = s.trace := rfl
@[simp] theorem applyReset_bufRdata (s : State) : (applyReset s).bufRdata = State.reset.bufRdata := rfl
@[simp] theorem applyReset_regRdata (s : State) : (applyReset s).regRdata = State.reset.regRdata := rfl
@[simp] theorem applyReset_rstLast (s : State) : (applyReset s).rstLast = s.rstLast := rfl
@[simp] theorem applyReset_hostIn (s : State) : (applyReset s).hostIn = s.hostIn := rfl
@[simp] theorem applyReset_env (s : State) : (applyReset s).env = s.env := rfl
@[simp] theorem applyReset_tick (s : State) : (applyReset s).tick = s.tick := rfl

end Sys2Proof.Machine
end

