-- ==== Sys2Proof/Laws/Ops.lean ====
section
/-! SUPPORT. What each shared operation can do, said once: its frame, and the cases of an answer. -/

namespace Sys2Proof.Machine

/-! ### The host's accesses -/

/-- `regReadAccess` changes no other field than these. -/
theorem regReadAccess_frame (op : RegOp) (s : State) : (regReadAccess op s) =
    { s with regRdata := (regReadAccess op s).regRdata } := by
  cases op <;> rfl

@[simp] theorem regReadAccess_cfg (op : RegOp) (s : State) : (regReadAccess op s).cfg = s.cfg := by
  rw [regReadAccess_frame]
@[simp] theorem regReadAccess_arg (op : RegOp) (s : State) : (regReadAccess op s).arg = s.arg := by
  rw [regReadAccess_frame]
@[simp] theorem regReadAccess_busy (op : RegOp) (s : State) : (regReadAccess op s).busy = s.busy := by
  rw [regReadAccess_frame]
@[simp] theorem regReadAccess_result (op : RegOp) (s : State) : (regReadAccess op s).result = s.result := by
  rw [regReadAccess_frame]
@[simp] theorem regReadAccess_errval (op : RegOp) (s : State) : (regReadAccess op s).errval = s.errval := by
  rw [regReadAccess_frame]
@[simp] theorem regReadAccess_eng (op : RegOp) (s : State) : (regReadAccess op s).eng = s.eng := by
  rw [regReadAccess_frame]
@[simp] theorem regReadAccess_sclkLvl (op : RegOp) (s : State) : (regReadAccess op s).sclkLvl = s.sclkLvl := by
  rw [regReadAccess_frame]
@[simp] theorem regReadAccess_mosiLvl (op : RegOp) (s : State) : (regReadAccess op s).mosiLvl = s.mosiLvl := by
  rw [regReadAccess_frame]
@[simp] theorem regReadAccess_pins (op : RegOp) (s : State) : (regReadAccess op s).pins = s.pins := by
  rw [regReadAccess_frame]
@[simp] theorem regReadAccess_buf (op : RegOp) (s : State) : (regReadAccess op s).buf = s.buf := by
  rw [regReadAccess_frame]
@[simp] theorem regReadAccess_trace (op : RegOp) (s : State) : (regReadAccess op s).trace = s.trace := by
  rw [regReadAccess_frame]
@[simp] theorem regReadAccess_bufRdata (op : RegOp) (s : State) : (regReadAccess op s).bufRdata = s.bufRdata := by
  rw [regReadAccess_frame]
@[simp] theorem regReadAccess_rstLast (op : RegOp) (s : State) : (regReadAccess op s).rstLast = s.rstLast := by
  rw [regReadAccess_frame]
@[simp] theorem regReadAccess_hostIn (op : RegOp) (s : State) : (regReadAccess op s).hostIn = s.hostIn := by
  rw [regReadAccess_frame]
@[simp] theorem regReadAccess_env (op : RegOp) (s : State) : (regReadAccess op s).env = s.env := by
  rw [regReadAccess_frame]
@[simp] theorem regReadAccess_tick (op : RegOp) (s : State) : (regReadAccess op s).tick = s.tick := by
  rw [regReadAccess_frame]

/-- `bufReadAccess` changes no other field than these. -/
theorem bufReadAccess_frame (op : BufOp) (s : State) : (bufReadAccess op s) =
    { s with bufRdata := (bufReadAccess op s).bufRdata } := by
  cases op <;> rfl

@[simp] theorem bufReadAccess_cfg (op : BufOp) (s : State) : (bufReadAccess op s).cfg = s.cfg := by
  rw [bufReadAccess_frame]
@[simp] theorem bufReadAccess_arg (op : BufOp) (s : State) : (bufReadAccess op s).arg = s.arg := by
  rw [bufReadAccess_frame]
@[simp] theorem bufReadAccess_busy (op : BufOp) (s : State) : (bufReadAccess op s).busy = s.busy := by
  rw [bufReadAccess_frame]
@[simp] theorem bufReadAccess_result (op : BufOp) (s : State) : (bufReadAccess op s).result = s.result := by
  rw [bufReadAccess_frame]
@[simp] theorem bufReadAccess_errval (op : BufOp) (s : State) : (bufReadAccess op s).errval = s.errval := by
  rw [bufReadAccess_frame]
@[simp] theorem bufReadAccess_eng (op : BufOp) (s : State) : (bufReadAccess op s).eng = s.eng := by
  rw [bufReadAccess_frame]
@[simp] theorem bufReadAccess_sclkLvl (op : BufOp) (s : State) : (bufReadAccess op s).sclkLvl = s.sclkLvl := by
  rw [bufReadAccess_frame]
@[simp] theorem bufReadAccess_mosiLvl (op : BufOp) (s : State) : (bufReadAccess op s).mosiLvl = s.mosiLvl := by
  rw [bufReadAccess_frame]
@[simp] theorem bufReadAccess_pins (op : BufOp) (s : State) : (bufReadAccess op s).pins = s.pins := by
  rw [bufReadAccess_frame]
@[simp] theorem bufReadAccess_buf (op : BufOp) (s : State) : (bufReadAccess op s).buf = s.buf := by
  rw [bufReadAccess_frame]
@[simp] theorem bufReadAccess_trace (op : BufOp) (s : State) : (bufReadAccess op s).trace = s.trace := by
  rw [bufReadAccess_frame]
@[simp] theorem bufReadAccess_regRdata (op : BufOp) (s : State) : (bufReadAccess op s).regRdata = s.regRdata := by
  rw [bufReadAccess_frame]
@[simp] theorem bufReadAccess_rstLast (op : BufOp) (s : State) : (bufReadAccess op s).rstLast = s.rstLast := by
  rw [bufReadAccess_frame]
@[simp] theorem bufReadAccess_hostIn (op : BufOp) (s : State) : (bufReadAccess op s).hostIn = s.hostIn := by
  rw [bufReadAccess_frame]
@[simp] theorem bufReadAccess_env (op : BufOp) (s : State) : (bufReadAccess op s).env = s.env := by
  rw [bufReadAccess_frame]
@[simp] theorem bufReadAccess_tick (op : BufOp) (s : State) : (bufReadAccess op s).tick = s.tick := by
  rw [bufReadAccess_frame]

/-- `regWriteAccess` changes no other field than these. -/
theorem regWriteAccess_frame (op : RegOp) (s : State) : (regWriteAccess op s) =
    { s with arg := (regWriteAccess op s).arg } := by
  unfold regWriteAccess; split <;> rfl

@[simp] theorem regWriteAccess_cfg (op : RegOp) (s : State) : (regWriteAccess op s).cfg = s.cfg := by
  rw [regWriteAccess_frame]
@[simp] theorem regWriteAccess_busy (op : RegOp) (s : State) : (regWriteAccess op s).busy = s.busy := by
  rw [regWriteAccess_frame]
@[simp] theorem regWriteAccess_result (op : RegOp) (s : State) : (regWriteAccess op s).result = s.result := by
  rw [regWriteAccess_frame]
@[simp] theorem regWriteAccess_errval (op : RegOp) (s : State) : (regWriteAccess op s).errval = s.errval := by
  rw [regWriteAccess_frame]
@[simp] theorem regWriteAccess_eng (op : RegOp) (s : State) : (regWriteAccess op s).eng = s.eng := by
  rw [regWriteAccess_frame]
@[simp] theorem regWriteAccess_sclkLvl (op : RegOp) (s : State) : (regWriteAccess op s).sclkLvl = s.sclkLvl := by
  rw [regWriteAccess_frame]
@[simp] theorem regWriteAccess_mosiLvl (op : RegOp) (s : State) : (regWriteAccess op s).mosiLvl = s.mosiLvl := by
  rw [regWriteAccess_frame]
@[simp] theorem regWriteAccess_pins (op : RegOp) (s : State) : (regWriteAccess op s).pins = s.pins := by
  rw [regWriteAccess_frame]
@[simp] theorem regWriteAccess_buf (op : RegOp) (s : State) : (regWriteAccess op s).buf = s.buf := by
  rw [regWriteAccess_frame]
@[simp] theorem regWriteAccess_trace (op : RegOp) (s : State) : (regWriteAccess op s).trace = s.trace := by
  rw [regWriteAccess_frame]
@[simp] theorem regWriteAccess_bufRdata (op : RegOp) (s : State) : (regWriteAccess op s).bufRdata = s.bufRdata := by
  rw [regWriteAccess_frame]
@[simp] theorem regWriteAccess_regRdata (op : RegOp) (s : State) : (regWriteAccess op s).regRdata = s.regRdata := by
  rw [regWriteAccess_frame]
@[simp] theorem regWriteAccess_rstLast (op : RegOp) (s : State) : (regWriteAccess op s).rstLast = s.rstLast := by
  rw [regWriteAccess_frame]
@[simp] theorem regWriteAccess_hostIn (op : RegOp) (s : State) : (regWriteAccess op s).hostIn = s.hostIn := by
  rw [regWriteAccess_frame]
@[simp] theorem regWriteAccess_env (op : RegOp) (s : State) : (regWriteAccess op s).env = s.env := by
  rw [regWriteAccess_frame]
@[simp] theorem regWriteAccess_tick (op : RegOp) (s : State) : (regWriteAccess op s).tick = s.tick := by
  rw [regWriteAccess_frame]

/-- `bufWriteAccess` changes no other field than these. -/
theorem bufWriteAccess_frame (op : BufOp) (s : State) : (bufWriteAccess op s) =
    { s with buf := (bufWriteAccess op s).buf } := by
  unfold bufWriteAccess memWrite; split
  · split <;> rfl
  · rfl
  · rfl

@[simp] theorem bufWriteAccess_cfg (op : BufOp) (s : State) : (bufWriteAccess op s).cfg = s.cfg := by
  rw [bufWriteAccess_frame]
@[simp] theorem bufWriteAccess_arg (op : BufOp) (s : State) : (bufWriteAccess op s).arg = s.arg := by
  rw [bufWriteAccess_frame]
@[simp] theorem bufWriteAccess_busy (op : BufOp) (s : State) : (bufWriteAccess op s).busy = s.busy := by
  rw [bufWriteAccess_frame]
@[simp] theorem bufWriteAccess_result (op : BufOp) (s : State) : (bufWriteAccess op s).result = s.result := by
  rw [bufWriteAccess_frame]
@[simp] theorem bufWriteAccess_errval (op : BufOp) (s : State) : (bufWriteAccess op s).errval = s.errval := by
  rw [bufWriteAccess_frame]
@[simp] theorem bufWriteAccess_eng (op : BufOp) (s : State) : (bufWriteAccess op s).eng = s.eng := by
  rw [bufWriteAccess_frame]
@[simp] theorem bufWriteAccess_sclkLvl (op : BufOp) (s : State) : (bufWriteAccess op s).sclkLvl = s.sclkLvl := by
  rw [bufWriteAccess_frame]
@[simp] theorem bufWriteAccess_mosiLvl (op : BufOp) (s : State) : (bufWriteAccess op s).mosiLvl = s.mosiLvl := by
  rw [bufWriteAccess_frame]
@[simp] theorem bufWriteAccess_pins (op : BufOp) (s : State) : (bufWriteAccess op s).pins = s.pins := by
  rw [bufWriteAccess_frame]
@[simp] theorem bufWriteAccess_trace (op : BufOp) (s : State) : (bufWriteAccess op s).trace = s.trace := by
  rw [bufWriteAccess_frame]
@[simp] theorem bufWriteAccess_bufRdata (op : BufOp) (s : State) : (bufWriteAccess op s).bufRdata = s.bufRdata := by
  rw [bufWriteAccess_frame]
@[simp] theorem bufWriteAccess_regRdata (op : BufOp) (s : State) : (bufWriteAccess op s).regRdata = s.regRdata := by
  rw [bufWriteAccess_frame]
@[simp] theorem bufWriteAccess_rstLast (op : BufOp) (s : State) : (bufWriteAccess op s).rstLast = s.rstLast := by
  rw [bufWriteAccess_frame]
@[simp] theorem bufWriteAccess_hostIn (op : BufOp) (s : State) : (bufWriteAccess op s).hostIn = s.hostIn := by
  rw [bufWriteAccess_frame]
@[simp] theorem bufWriteAccess_env (op : BufOp) (s : State) : (bufWriteAccess op s).env = s.env := by
  rw [bufWriteAccess_frame]
@[simp] theorem bufWriteAccess_tick (op : BufOp) (s : State) : (bufWriteAccess op s).tick = s.tick := by
  rw [bufWriteAccess_frame]

/-- `hostReads` changes no other field than these. -/
theorem hostReads_frame (h : HostTick) (s : State) : (hostReads h s) =
    { s with bufRdata := (hostReads h s).bufRdata, regRdata := (hostReads h s).regRdata } := by
  unfold hostReads; rw [bufReadAccess_frame, regReadAccess_frame]

@[simp] theorem hostReads_cfg (h : HostTick) (s : State) : (hostReads h s).cfg = s.cfg := by
  rw [hostReads_frame]
@[simp] theorem hostReads_arg (h : HostTick) (s : State) : (hostReads h s).arg = s.arg := by
  rw [hostReads_frame]
@[simp] theorem hostReads_busy (h : HostTick) (s : State) : (hostReads h s).busy = s.busy := by
  rw [hostReads_frame]
@[simp] theorem hostReads_result (h : HostTick) (s : State) : (hostReads h s).result = s.result := by
  rw [hostReads_frame]
@[simp] theorem hostReads_errval (h : HostTick) (s : State) : (hostReads h s).errval = s.errval := by
  rw [hostReads_frame]
@[simp] theorem hostReads_eng (h : HostTick) (s : State) : (hostReads h s).eng = s.eng := by
  rw [hostReads_frame]
@[simp] theorem hostReads_sclkLvl (h : HostTick) (s : State) : (hostReads h s).sclkLvl = s.sclkLvl := by
  rw [hostReads_frame]
@[simp] theorem hostReads_mosiLvl (h : HostTick) (s : State) : (hostReads h s).mosiLvl = s.mosiLvl := by
  rw [hostReads_frame]
@[simp] theorem hostReads_pins (h : HostTick) (s : State) : (hostReads h s).pins = s.pins := by
  rw [hostReads_frame]
@[simp] theorem hostReads_buf (h : HostTick) (s : State) : (hostReads h s).buf = s.buf := by
  rw [hostReads_frame]
@[simp] theorem hostReads_trace (h : HostTick) (s : State) : (hostReads h s).trace = s.trace := by
  rw [hostReads_frame]
@[simp] theorem hostReads_rstLast (h : HostTick) (s : State) : (hostReads h s).rstLast = s.rstLast := by
  rw [hostReads_frame]
@[simp] theorem hostReads_hostIn (h : HostTick) (s : State) : (hostReads h s).hostIn = s.hostIn := by
  rw [hostReads_frame]
@[simp] theorem hostReads_env (h : HostTick) (s : State) : (hostReads h s).env = s.env := by
  rw [hostReads_frame]
@[simp] theorem hostReads_tick (h : HostTick) (s : State) : (hostReads h s).tick = s.tick := by
  rw [hostReads_frame]

/-- `hostAccess` changes no other field than these. -/
theorem hostAccess_frame (h : HostTick) (s : State) : (hostAccess h s) =
    { s with arg := (hostAccess h s).arg, buf := (hostAccess h s).buf, bufRdata := (hostAccess h s).bufRdata, regRdata := (hostAccess h s).regRdata } := by
  unfold hostAccess; rw [bufWriteAccess_frame, regWriteAccess_frame, hostReads_frame]

@[simp] theorem hostAccess_cfg (h : HostTick) (s : State) : (hostAccess h s).cfg = s.cfg := by
  rw [hostAccess_frame]
@[simp] theorem hostAccess_busy (h : HostTick) (s : State) : (hostAccess h s).busy = s.busy := by
  rw [hostAccess_frame]
@[simp] theorem hostAccess_result (h : HostTick) (s : State) : (hostAccess h s).result = s.result := by
  rw [hostAccess_frame]
@[simp] theorem hostAccess_errval (h : HostTick) (s : State) : (hostAccess h s).errval = s.errval := by
  rw [hostAccess_frame]
@[simp] theorem hostAccess_eng (h : HostTick) (s : State) : (hostAccess h s).eng = s.eng := by
  rw [hostAccess_frame]
@[simp] theorem hostAccess_sclkLvl (h : HostTick) (s : State) : (hostAccess h s).sclkLvl = s.sclkLvl := by
  rw [hostAccess_frame]
@[simp] theorem hostAccess_mosiLvl (h : HostTick) (s : State) : (hostAccess h s).mosiLvl = s.mosiLvl := by
  rw [hostAccess_frame]
@[simp] theorem hostAccess_pins (h : HostTick) (s : State) : (hostAccess h s).pins = s.pins := by
  rw [hostAccess_frame]
@[simp] theorem hostAccess_trace (h : HostTick) (s : State) : (hostAccess h s).trace = s.trace := by
  rw [hostAccess_frame]
@[simp] theorem hostAccess_rstLast (h : HostTick) (s : State) : (hostAccess h s).rstLast = s.rstLast := by
  rw [hostAccess_frame]
@[simp] theorem hostAccess_hostIn (h : HostTick) (s : State) : (hostAccess h s).hostIn = s.hostIn := by
  rw [hostAccess_frame]
@[simp] theorem hostAccess_env (h : HostTick) (s : State) : (hostAccess h s).env = s.env := by
  rw [hostAccess_frame]
@[simp] theorem hostAccess_tick (h : HostTick) (s : State) : (hostAccess h s).tick = s.tick := by
  rw [hostAccess_frame]

/-! ### The sequencer -/

/-- `endBit` changes no other field than these. -/
theorem endBit_frame (s : State) : (endBit s) =
    { s with busy := (endBit s).busy, result := (endBit s).result, eng := (endBit s).eng } := by
  unfold endBit; split
  · rfl
  · split <;> rfl

@[simp] theorem endBit_cfg (s : State) : (endBit s).cfg = s.cfg := by
  rw [endBit_frame]
@[simp] theorem endBit_arg (s : State) : (endBit s).arg = s.arg := by
  rw [endBit_frame]
@[simp] theorem endBit_errval (s : State) : (endBit s).errval = s.errval := by
  rw [endBit_frame]
@[simp] theorem endBit_sclkLvl (s : State) : (endBit s).sclkLvl = s.sclkLvl := by
  rw [endBit_frame]
@[simp] theorem endBit_mosiLvl (s : State) : (endBit s).mosiLvl = s.mosiLvl := by
  rw [endBit_frame]
@[simp] theorem endBit_pins (s : State) : (endBit s).pins = s.pins := by
  rw [endBit_frame]
@[simp] theorem endBit_buf (s : State) : (endBit s).buf = s.buf := by
  rw [endBit_frame]
@[simp] theorem endBit_trace (s : State) : (endBit s).trace = s.trace := by
  rw [endBit_frame]
@[simp] theorem endBit_bufRdata (s : State) : (endBit s).bufRdata = s.bufRdata := by
  rw [endBit_frame]
@[simp] theorem endBit_regRdata (s : State) : (endBit s).regRdata = s.regRdata := by
  rw [endBit_frame]
@[simp] theorem endBit_rstLast (s : State) : (endBit s).rstLast = s.rstLast := by
  rw [endBit_frame]
@[simp] theorem endBit_hostIn (s : State) : (endBit s).hostIn = s.hostIn := by
  rw [endBit_frame]
@[simp] theorem endBit_env (s : State) : (endBit s).env = s.env := by
  rw [endBit_frame]
@[simp] theorem endBit_tick (s : State) : (endBit s).tick = s.tick := by
  rw [endBit_frame]

/-- `goto` changes no other field than these. -/
theorem goto_frame (next : Option Phase) (s : State) : (goto next s) =
    { s with busy := (goto next s).busy, result := (goto next s).result, eng := (goto next s).eng } := by
  cases next
  · exact endBit_frame s
  · rfl

@[simp] theorem goto_cfg (next : Option Phase) (s : State) : (goto next s).cfg = s.cfg := by
  rw [goto_frame]
@[simp] theorem goto_arg (next : Option Phase) (s : State) : (goto next s).arg = s.arg := by
  rw [goto_frame]
@[simp] theorem goto_errval (next : Option Phase) (s : State) : (goto next s).errval = s.errval := by
  rw [goto_frame]
@[simp] theorem goto_sclkLvl (next : Option Phase) (s : State) : (goto next s).sclkLvl = s.sclkLvl := by
  rw [goto_frame]
@[simp] theorem goto_mosiLvl (next : Option Phase) (s : State) : (goto next s).mosiLvl = s.mosiLvl := by
  rw [goto_frame]
@[simp] theorem goto_pins (next : Option Phase) (s : State) : (goto next s).pins = s.pins := by
  rw [goto_frame]
@[simp] theorem goto_buf (next : Option Phase) (s : State) : (goto next s).buf = s.buf := by
  rw [goto_frame]
@[simp] theorem goto_trace (next : Option Phase) (s : State) : (goto next s).trace = s.trace := by
  rw [goto_frame]
@[simp] theorem goto_bufRdata (next : Option Phase) (s : State) : (goto next s).bufRdata = s.bufRdata := by
  rw [goto_frame]
@[simp] theorem goto_regRdata (next : Option Phase) (s : State) : (goto next s).regRdata = s.regRdata := by
  rw [goto_frame]
@[simp] theorem goto_rstLast (next : Option Phase) (s : State) : (goto next s).rstLast = s.rstLast := by
  rw [goto_frame]
@[simp] theorem goto_hostIn (next : Option Phase) (s : State) : (goto next s).hostIn = s.hostIn := by
  rw [goto_frame]
@[simp] theorem goto_env (next : Option Phase) (s : State) : (goto next s).env = s.env := by
  rw [goto_frame]
@[simp] theorem goto_tick (next : Option Phase) (s : State) : (goto next s).tick = s.tick := by
  rw [goto_frame]

/-- `advance` changes no other field than these. -/
theorem advance_frame (s : State) : (advance s) =
    { s with busy := (advance s).busy, result := (advance s).result, eng := (advance s).eng } := by
  unfold advance
  split
  · rfl
  · rfl
  · exact goto_frame _ s
  · split
    · rfl
    · exact goto_frame _ s
  · split
    · rfl
    · exact goto_frame _ s
  · exact goto_frame _ s
  · split
    · rfl
    · exact endBit_frame s
  · split
    · rfl
    · exact endBit_frame s

@[simp] theorem advance_cfg (s : State) : (advance s).cfg = s.cfg := by
  rw [advance_frame]
@[simp] theorem advance_arg (s : State) : (advance s).arg = s.arg := by
  rw [advance_frame]
@[simp] theorem advance_errval (s : State) : (advance s).errval = s.errval := by
  rw [advance_frame]
@[simp] theorem advance_sclkLvl (s : State) : (advance s).sclkLvl = s.sclkLvl := by
  rw [advance_frame]
@[simp] theorem advance_mosiLvl (s : State) : (advance s).mosiLvl = s.mosiLvl := by
  rw [advance_frame]
@[simp] theorem advance_pins (s : State) : (advance s).pins = s.pins := by
  rw [advance_frame]
@[simp] theorem advance_buf (s : State) : (advance s).buf = s.buf := by
  rw [advance_frame]
@[simp] theorem advance_trace (s : State) : (advance s).trace = s.trace := by
  rw [advance_frame]
@[simp] theorem advance_bufRdata (s : State) : (advance s).bufRdata = s.bufRdata := by
  rw [advance_frame]
@[simp] theorem advance_regRdata (s : State) : (advance s).regRdata = s.regRdata := by
  rw [advance_frame]
@[simp] theorem advance_rstLast (s : State) : (advance s).rstLast = s.rstLast := by
  rw [advance_frame]
@[simp] theorem advance_hostIn (s : State) : (advance s).hostIn = s.hostIn := by
  rw [advance_frame]
@[simp] theorem advance_env (s : State) : (advance s).env = s.env := by
  rw [advance_frame]
@[simp] theorem advance_tick (s : State) : (advance s).tick = s.tick := by
  rw [advance_frame]

/-- `finishAction` changes no other field than these. -/
theorem finishAction_frame (s : State) : (finishAction s) =
    { s with busy := (finishAction s).busy, result := (finishAction s).result, eng := (finishAction s).eng } := by
  unfold finishAction; split
  · exact advance_frame s
  · rfl

@[simp] theorem finishAction_cfg (s : State) : (finishAction s).cfg = s.cfg := by
  rw [finishAction_frame]
@[simp] theorem finishAction_arg (s : State) : (finishAction s).arg = s.arg := by
  rw [finishAction_frame]
@[simp] theorem finishAction_errval (s : State) : (finishAction s).errval = s.errval := by
  rw [finishAction_frame]
@[simp] theorem finishAction_sclkLvl (s : State) : (finishAction s).sclkLvl = s.sclkLvl := by
  rw [finishAction_frame]
@[simp] theorem finishAction_mosiLvl (s : State) : (finishAction s).mosiLvl = s.mosiLvl := by
  rw [finishAction_frame]
@[simp] theorem finishAction_pins (s : State) : (finishAction s).pins = s.pins := by
  rw [finishAction_frame]
@[simp] theorem finishAction_buf (s : State) : (finishAction s).buf = s.buf := by
  rw [finishAction_frame]
@[simp] theorem finishAction_trace (s : State) : (finishAction s).trace = s.trace := by
  rw [finishAction_frame]
@[simp] theorem finishAction_bufRdata (s : State) : (finishAction s).bufRdata = s.bufRdata := by
  rw [finishAction_frame]
@[simp] theorem finishAction_regRdata (s : State) : (finishAction s).regRdata = s.regRdata := by
  rw [finishAction_frame]
@[simp] theorem finishAction_rstLast (s : State) : (finishAction s).rstLast = s.rstLast := by
  rw [finishAction_frame]
@[simp] theorem finishAction_hostIn (s : State) : (finishAction s).hostIn = s.hostIn := by
  rw [finishAction_frame]
@[simp] theorem finishAction_env (s : State) : (finishAction s).env = s.env := by
  rw [finishAction_frame]
@[simp] theorem finishAction_tick (s : State) : (finishAction s).tick = s.tick := by
  rw [finishAction_frame]

/-- The sequencer keeps what a command latched (10_state.md R26). -/
theorem endBit_latched (s : State) :
    (endBit s).eng.opr = s.eng.opr ∧ (endBit s).eng.base = s.eng.base ∧ (endBit s).eng.len = s.eng.len := by
  unfold endBit; split
  · exact ⟨rfl, rfl, rfl⟩
  · split <;> exact ⟨rfl, rfl, rfl⟩

theorem goto_latched (next : Option Phase) (s : State) :
    (goto next s).eng.opr = s.eng.opr ∧ (goto next s).eng.base = s.eng.base ∧ (goto next s).eng.len = s.eng.len := by
  cases next
  · exact endBit_latched s
  · exact ⟨rfl, rfl, rfl⟩

theorem advance_latched (s : State) :
    (advance s).eng.opr = s.eng.opr ∧ (advance s).eng.base = s.eng.base ∧ (advance s).eng.len = s.eng.len := by
  unfold advance
  split
  · exact ⟨rfl, rfl, rfl⟩
  · exact ⟨rfl, rfl, rfl⟩
  · exact goto_latched _ s
  · split
    · exact ⟨rfl, rfl, rfl⟩
    · exact goto_latched _ s
  · split
    · exact ⟨rfl, rfl, rfl⟩
    · exact goto_latched _ s
  · exact goto_latched _ s
  · split
    · exact ⟨rfl, rfl, rfl⟩
    · exact endBit_latched s
  · split
    · exact ⟨rfl, rfl, rfl⟩
    · exact endBit_latched s

theorem finishAction_latched (s : State) :
    (finishAction s).eng.opr = s.eng.opr ∧ (finishAction s).eng.base = s.eng.base ∧
      (finishAction s).eng.len = s.eng.len := by
  unfold finishAction; split
  · exact advance_latched s
  · exact ⟨rfl, rfl, rfl⟩

@[simp] theorem finishAction_opr (s : State) : (finishAction s).eng.opr = s.eng.opr := (finishAction_latched s).1

@[simp] theorem finishAction_base (s : State) : (finishAction s).eng.base = s.eng.base := (finishAction_latched s).2.1

@[simp] theorem finishAction_len (s : State) : (finishAction s).eng.len = s.eng.len := (finishAction_latched s).2.2

theorem finishAction_busy (s : State) (h : s.busy = true) : finishAction s = advance s := by simp [finishAction, h]

theorem finishAction_ended (s : State) (h : s.busy = false) : finishAction s = s := by simp [finishAction, h]

/-! ### Issued commands -/

/-- `construct` changes no other field than these. -/
theorem construct_frame (k i o : Bool) (p : Polarity) (s : State) : (construct k i o p s) =
    { s with cfg := (construct k i o p s).cfg, busy := (construct k i o p s).busy, result := (construct k i o p s).result, eng := (construct k i o p s).eng } := by
  unfold construct; split <;> rfl

@[simp] theorem construct_arg (k i o : Bool) (p : Polarity) (s : State) : (construct k i o p s).arg = s.arg := by
  rw [construct_frame]
@[simp] theorem construct_errval (k i o : Bool) (p : Polarity) (s : State) : (construct k i o p s).errval = s.errval := by
  rw [construct_frame]
@[simp] theorem construct_sclkLvl (k i o : Bool) (p : Polarity) (s : State) : (construct k i o p s).sclkLvl = s.sclkLvl := by
  rw [construct_frame]
@[simp] theorem construct_mosiLvl (k i o : Bool) (p : Polarity) (s : State) : (construct k i o p s).mosiLvl = s.mosiLvl := by
  rw [construct_frame]
@[simp] theorem construct_pins (k i o : Bool) (p : Polarity) (s : State) : (construct k i o p s).pins = s.pins := by
  rw [construct_frame]
@[simp] theorem construct_buf (k i o : Bool) (p : Polarity) (s : State) : (construct k i o p s).buf = s.buf := by
  rw [construct_frame]
@[simp] theorem construct_trace (k i o : Bool) (p : Polarity) (s : State) : (construct k i o p s).trace = s.trace := by
  rw [construct_frame]
@[simp] theorem construct_bufRdata (k i o : Bool) (p : Polarity) (s : State) : (construct k i o p s).bufRdata = s.bufRdata := by
  rw [construct_frame]
@[simp] theorem construct_regRdata (k i o : Bool) (p : Polarity) (s : State) : (construct k i o p s).regRdata = s.regRdata := by
  rw [construct_frame]
@[simp] theorem construct_rstLast (k i o : Bool) (p : Polarity) (s : State) : (construct k i o p s).rstLast = s.rstLast := by
  rw [construct_frame]
@[simp] theorem construct_hostIn (k i o : Bool) (p : Polarity) (s : State) : (construct k i o p s).hostIn = s.hostIn := by
  rw [construct_frame]
@[simp] theorem construct_env (k i o : Bool) (p : Polarity) (s : State) : (construct k i o p s).env = s.env := by
  rw [construct_frame]
@[simp] theorem construct_tick (k i o : Bool) (p : Polarity) (s : State) : (construct k i o p s).tick = s.tick := by
  rw [construct_frame]

/-- `startStream` changes no other field than these. -/
theorem startStream_frame (opr : Opr) (len : BitVec 16) (s : State) : (startStream opr len s) =
    { s with busy := (startStream opr len s).busy, result := (startStream opr len s).result, eng := (startStream opr len s).eng } := by
  unfold startStream; dsimp only; split <;> rfl

@[simp] theorem startStream_cfg (opr : Opr) (len : BitVec 16) (s : State) : (startStream opr len s).cfg = s.cfg := by
  rw [startStream_frame]
@[simp] theorem startStream_arg (opr : Opr) (len : BitVec 16) (s : State) : (startStream opr len s).arg = s.arg := by
  rw [startStream_frame]
@[simp] theorem startStream_errval (opr : Opr) (len : BitVec 16) (s : State) : (startStream opr len s).errval = s.errval := by
  rw [startStream_frame]
@[simp] theorem startStream_sclkLvl (opr : Opr) (len : BitVec 16) (s : State) : (startStream opr len s).sclkLvl = s.sclkLvl := by
  rw [startStream_frame]
@[simp] theorem startStream_mosiLvl (opr : Opr) (len : BitVec 16) (s : State) : (startStream opr len s).mosiLvl = s.mosiLvl := by
  rw [startStream_frame]
@[simp] theorem startStream_pins (opr : Opr) (len : BitVec 16) (s : State) : (startStream opr len s).pins = s.pins := by
  rw [startStream_frame]
@[simp] theorem startStream_buf (opr : Opr) (len : BitVec 16) (s : State) : (startStream opr len s).buf = s.buf := by
  rw [startStream_frame]
@[simp] theorem startStream_trace (opr : Opr) (len : BitVec 16) (s : State) : (startStream opr len s).trace = s.trace := by
  rw [startStream_frame]
@[simp] theorem startStream_bufRdata (opr : Opr) (len : BitVec 16) (s : State) : (startStream opr len s).bufRdata = s.bufRdata := by
  rw [startStream_frame]
@[simp] theorem startStream_regRdata (opr : Opr) (len : BitVec 16) (s : State) : (startStream opr len s).regRdata = s.regRdata := by
  rw [startStream_frame]
@[simp] theorem startStream_rstLast (opr : Opr) (len : BitVec 16) (s : State) : (startStream opr len s).rstLast = s.rstLast := by
  rw [startStream_frame]
@[simp] theorem startStream_hostIn (opr : Opr) (len : BitVec 16) (s : State) : (startStream opr len s).hostIn = s.hostIn := by
  rw [startStream_frame]
@[simp] theorem startStream_env (opr : Opr) (len : BitVec 16) (s : State) : (startStream opr len s).env = s.env := by
  rw [startStream_frame]
@[simp] theorem startStream_tick (opr : Opr) (len : BitVec 16) (s : State) : (startStream opr len s).tick = s.tick := by
  rw [startStream_frame]

/-- `acceptStream` changes no other field than these. -/
theorem acceptStream_frame (opr : Opr) (len : BitVec 16) (s : State) : (acceptStream opr len s) =
    { s with busy := (acceptStream opr len s).busy, result := (acceptStream opr len s).result, eng := (acceptStream opr len s).eng } := by
  unfold acceptStream; split
  · exact startStream_frame _ _ _
  · rfl

@[simp] theorem acceptStream_cfg (opr : Opr) (len : BitVec 16) (s : State) : (acceptStream opr len s).cfg = s.cfg := by
  rw [acceptStream_frame]
@[simp] theorem acceptStream_arg (opr : Opr) (len : BitVec 16) (s : State) : (acceptStream opr len s).arg = s.arg := by
  rw [acceptStream_frame]
@[simp] theorem acceptStream_errval (opr : Opr) (len : BitVec 16) (s : State) : (acceptStream opr len s).errval = s.errval := by
  rw [acceptStream_frame]
@[simp] theorem acceptStream_sclkLvl (opr : Opr) (len : BitVec 16) (s : State) : (acceptStream opr len s).sclkLvl = s.sclkLvl := by
  rw [acceptStream_frame]
@[simp] theorem acceptStream_mosiLvl (opr : Opr) (len : BitVec 16) (s : State) : (acceptStream opr len s).mosiLvl = s.mosiLvl := by
  rw [acceptStream_frame]
@[simp] theorem acceptStream_pins (opr : Opr) (len : BitVec 16) (s : State) : (acceptStream opr len s).pins = s.pins := by
  rw [acceptStream_frame]
@[simp] theorem acceptStream_buf (opr : Opr) (len : BitVec 16) (s : State) : (acceptStream opr len s).buf = s.buf := by
  rw [acceptStream_frame]
@[simp] theorem acceptStream_trace (opr : Opr) (len : BitVec 16) (s : State) : (acceptStream opr len s).trace = s.trace := by
  rw [acceptStream_frame]
@[simp] theorem acceptStream_bufRdata (opr : Opr) (len : BitVec 16) (s : State) : (acceptStream opr len s).bufRdata = s.bufRdata := by
  rw [acceptStream_frame]
@[simp] theorem acceptStream_regRdata (opr : Opr) (len : BitVec 16) (s : State) : (acceptStream opr len s).regRdata = s.regRdata := by
  rw [acceptStream_frame]
@[simp] theorem acceptStream_rstLast (opr : Opr) (len : BitVec 16) (s : State) : (acceptStream opr len s).rstLast = s.rstLast := by
  rw [acceptStream_frame]
@[simp] theorem acceptStream_hostIn (opr : Opr) (len : BitVec 16) (s : State) : (acceptStream opr len s).hostIn = s.hostIn := by
  rw [acceptStream_frame]
@[simp] theorem acceptStream_env (opr : Opr) (len : BitVec 16) (s : State) : (acceptStream opr len s).env = s.env := by
  rw [acceptStream_frame]
@[simp] theorem acceptStream_tick (opr : Opr) (len : BitVec 16) (s : State) : (acceptStream opr len s).tick = s.tick := by
  rw [acceptStream_frame]

/-- ARG after the host's accesses (10_state.md R22). -/
theorem hostAccess_arg (h : HostTick) (s : State) :
    (hostAccess h s).arg = match h.reg with
      | .write .arg v => v
      | _ => s.arg := by
  simp only [hostAccess, bufWriteAccess_arg, regWriteAccess]
  rcases h.reg with _ | r | ⟨r, v⟩
  · simp
  · simp
  · cases r <;> simp

theorem hostAccess_arg_of_ne {h : HostTick} {s : State} (hw : ∀ v, h.reg ≠ .write .arg v) :
    (hostAccess h s).arg = s.arg := by
  rw [hostAccess_arg]
  split
  · exact absurd ‹_› (hw _)
  · rfl

/-- The register read data after the host's accesses. -/
theorem hostAccess_regRdata (h : HostTick) (s : State) :
    (hostAccess h s).regRdata = match h.reg with
      | .read r => regRead r s
      | _ => s.regRdata := by
  simp only [hostAccess, bufWriteAccess_regRdata, regWriteAccess_regRdata, hostReads, bufReadAccess_regRdata,
    regReadAccess]
  cases h.reg <;> rfl

/-- The byte read data after the host's accesses. -/
theorem hostAccess_bufRdata (h : HostTick) (s : State) :
    (hostAccess h s).bufRdata = match h.buf with
      | .read a => bufReadData a (regReadAccess h.reg s)
      | _ => s.bufRdata := by
  simp only [hostAccess, bufWriteAccess_bufRdata, regWriteAccess_bufRdata, hostReads, bufReadAccess]
  cases h.buf <;> simp

theorem bufReadData_regReadAccess (a : Word) (op : RegOp) (s : State) :
    bufReadData a (regReadAccess op s) = bufReadData a s := by cases op <;> rfl

/-- A byte of BUF after the host's accesses (20_memory.md R33). -/
theorem memRead_hostAccess (h : HostTick) (s : State) (x : Nat) :
    memRead x (hostAccess h s) = match h.buf with
      | .write a v => if x = a.toNat ∧ a.toNat < Config.bufSize then some v else memRead x s
      | _ => memRead x s := by
  have key : ∀ y : State, y.buf = s.buf → memRead x (bufWriteAccess h.buf y) = match h.buf with
      | .write a v => if x = a.toNat ∧ a.toNat < Config.bufSize then some v else memRead x s
      | _ => memRead x s := by
    intro y hy
    unfold bufWriteAccess
    cases h.buf with
    | idle => exact memRead_eq_of_buf hy x
    | read a => exact memRead_eq_of_buf hy x
    | write a v =>
      dsimp only
      split
      · rw [memRead_memWrite, memRead_eq_of_buf hy]; simp [*]
      · rw [memRead_eq_of_buf hy]; simp [*]
  exact key _ (by simp)

theorem issue_next {s t u : State} (h : issue s t = .next u) : s.busy = false ∧ u = t := by
  unfold issue at h
  split at h
  · cases h
  · cases h; exact ⟨by simpa using ‹¬s.busy = true›, rfl⟩

theorem issue_idle {s : State} (h : s.busy = false) (t : State) : issue s t = .next t := by
  simp [issue, h]

theorem issue_ne_fault (s t : State) (f : Fault) : issue s t ≠ .fault f := by
  unfold issue; split <;> simp

/-- An answer of an issued command (41_bit_engine.md R62). -/
theorem exec_next {i : Instr} {s t : State} (h : exec i s = .next t) :
    s.busy = false ∧
    ((∃ k di d p, i = .new k di d p ∧ t = construct k di d p s) ∨
     (∃ len, i = .write len ∧ t = acceptStream .write (lenOperand len) s) ∨
     (∃ len, i = .transfer len ∧ t = acceptStream .transfer (lenOperand len) s)) := by
  cases i with
  | new k di d p => exact ⟨(issue_next h).1, .inl ⟨k, di, d, p, rfl, (issue_next h).2⟩⟩
  | write len => exact ⟨(issue_next h).1, .inr (.inl ⟨len, rfl, (issue_next h).2⟩)⟩
  | transfer len => exact ⟨(issue_next h).1, .inr (.inr ⟨len, rfl, (issue_next h).2⟩)⟩

/-- An answer of a word written to CMD: a command's, or the rejection. -/
theorem acceptWord_next {w : Word} {s t : State} (h : acceptWord w s = .next t) :
    s.busy = false ∧
    ((∃ i, decode w = .ok i ∧ exec i s = .next t) ∨ ((∃ e, decode w = .error e) ∧ t = raiseIllegal s)) := by
  unfold acceptWord at h
  split at h
  · exact ⟨(exec_next h).1, .inl ⟨_, ‹_›, h⟩⟩
  · exact ⟨(issue_next h).1, .inr ⟨⟨_, ‹_›⟩, (issue_next h).2⟩⟩

/-! ### The actions -/

theorem driveData_next {a : Nat} {b : BitVec 3} {s t : State} (h : driveData a b s = .next t) :
    ∃ w, memRead a s = some w ∧ t = driveMosi (dataLevel w b) s := by
  unfold driveData at h
  split at h
  · cases h; exact ⟨_, ‹_›, rfl⟩
  · cases h

theorem updateByte_next {a : Nat} {f : Byte → Byte} {s t : State} (h : updateByte a f s = .next t) :
    ∃ w, memRead a s = some w ∧ t = memWrite a (f w) s := by
  unfold updateByte at h
  split at h
  · cases h; exact ⟨_, ‹_›, rfl⟩
  · cases h

/-- The byte a SAMPLE that reads level `l` writes (41_bit_engine.md R69). -/
def sampledByte (l : Level) (w : Byte) (b : BitVec 3) : Byte :=
  match l with
  | .high => setBit w b
  | .low => clearBit w b

/-- The answers of a SAMPLE (41_bit_engine.md R69). -/
theorem sample_next {a : Nat} {b : BitVec 3} {s t : State} (h : sample a b s = .next t) :
    (∃ l w, misoResult s = readLevel l ∧ memRead a s = some w ∧
      t = memWrite a (sampledByte l w b) (readMiso s)) ∨
    (∃ e, misoResult s = .fail e ∧ t = raiseReadFail e (readMiso s)) := by
  unfold sample at h
  split at h
  · obtain ⟨w, hw, rfl⟩ := updateByte_next h
    exact .inl ⟨.high, w, ‹_›, hw, rfl⟩
  · obtain ⟨w, hw, rfl⟩ := updateByte_next h
    exact .inl ⟨.low, w, ‹_›, hw, rfl⟩
  · cases h; exact .inr ⟨_, ‹_›, rfl⟩

theorem sample_level {a : Nat} {b : BitVec 3} {s : State} {l : Level} {w : Byte}
    (hr : misoResult s = readLevel l) (hw : memRead a s = some w) :
    sample a b s = .next (memWrite a (sampledByte l w b) (readMiso s)) := by
  have hw' : memRead a (readMiso s) = some w := hw
  cases l <;> simp [sample, hr, readLevel, updateByte, hw', sampledByte]

theorem sample_fail {a : Nat} {b : BitVec 3} {s : State} {e : PinError} (hr : misoResult s = .fail e) :
    sample a b s = .next (raiseReadFail e (readMiso s)) := by simp [sample, hr]

theorem driveData_some {a : Nat} {b : BitVec 3} {s : State} {w : Byte} (hw : memRead a s = some w) :
    driveData a b s = .next (driveMosi (dataLevel w b) s) := by simp [driveData, hw]

/-- A result of a read is a level or a failure. -/
theorem readResult_cases (r : ReadResult) : (∃ l, r = readLevel l) ∨ ∃ e, r = .fail e := by
  cases r with
  | high => exact .inl ⟨.high, rfl⟩
  | low => exact .inl ⟨.low, rfl⟩
  | fail e => exact .inr ⟨e, rfl⟩

/-- The answers of an action. -/
theorem perform_next {p : Phase} {a : Nat} {b : BitVec 3} {s t : State} (h : perform p a b s = .next t) :
    (p = .idle ∧ t = s) ∨ (p = .initClock ∧ t = initClock s) ∨
    (p = .driveData ∧ ∃ w, memRead a s = some w ∧ t = driveMosi (dataLevel w b) s) ∨
    (p = .assertClock ∧ t = assertClock s) ∨
    ((p = .activeWait ∨ p = .idleWait) ∧ t = waitOnce s) ∨
    (p = .sample ∧ ∃ l w, misoResult s = readLevel l ∧ memRead a s = some w ∧
      t = memWrite a (sampledByte l w b) (readMiso s)) ∨
    (p = .sample ∧ ∃ e, misoResult s = .fail e ∧ t = raiseReadFail e (readMiso s)) ∨
    (p = .deassertClock ∧ t = deassertClock s) := by
  cases p with
  | idle => cases h; simp
  | initClock => cases h; simp
  | driveData => simp [driveData_next h]
  | assertClock => cases h; simp
  | activeWait => cases h; simp
  | idleWait => cases h; simp
  | deassertClock => cases h; simp
  | sample =>
    rcases sample_next h with h | h
    · exact .inr (.inr (.inr (.inr (.inr (.inl ⟨rfl, h⟩)))))
    · exact .inr (.inr (.inr (.inr (.inr (.inr (.inl ⟨rfl, h⟩))))))

theorem perform_ne_refused (p : Phase) (a : Nat) (b : BitVec 3) (s : State) (r : Refusal) :
    perform p a b s ≠ .refused r := by
  cases p <;> simp [perform, driveData, sample, updateByte] <;> (repeat' split) <;> simp

/-- The only fault of an action is the unwritten byte. -/
theorem perform_fault {p : Phase} {a : Nat} {b : BitVec 3} {s : State} {f : Fault}
    (h : perform p a b s = .fault f) : f = .unwrittenByte := by
  cases p <;> simp [perform, driveData, sample, updateByte] at h <;> (repeat' split at h) <;> simp_all

/-- An engine tick is its action and, while the command goes on, the next phase (41_bit_engine.md R71). -/
theorem engineTick_next {s t : State} (h : engineTick s = .next t) :
    ∃ u, perform s.eng.phase (cursorAddress s) s.eng.bidx s = .next u ∧
      t = finishAction u := by
  unfold engineTick at h
  split at h
  · cases h; exact ⟨_, ‹_›, rfl⟩
  · cases h
  · cases h

theorem engineTick_of_perform {s u : State} (h : perform s.eng.phase (cursorAddress s) s.eng.bidx s = .next u) :
    engineTick s = .next (finishAction u) := by simp [engineTick, h]

/-! ### Ticks -/

/-- The answers of a step: a reset tick, a command's decode tick, an action of the engine, or the host's accesses alone. -/
theorem step_next {s t : State} (h : step s = .next t) :
    (resetTick s = true ∧ t = hostReads (hostNow s) (applyReset (beginTick s))) ∨
    (resetTick s = false ∧ ∃ w, cmdWrite (hostNow s).reg = some w ∧
      acceptWord w (hostAccess (hostNow s) (beginTick s)) = .next t) ∨
    (resetTick s = false ∧ cmdWrite (hostNow s).reg = none ∧ writesRunningRange (hostNow s).buf (beginTick s) = false ∧
      s.busy = true ∧ engineTick (hostAccess (hostNow s) (beginTick s)) = .next t) ∨
    (resetTick s = false ∧ cmdWrite (hostNow s).reg = none ∧ s.busy = false ∧
      t = hostAccess (hostNow s) (beginTick s)) := by
  unfold step tickOnce at h
  split at h
  · cases h; exact .inl ⟨‹_›, rfl⟩
  · rename_i hr
    simp only [Bool.not_eq_true] at hr
    split at h
    · exact .inr (.inl ⟨hr, _, ‹_›, h⟩)
    · unfold workTick at h
      split at h
      · cases h
      · rename_i hw
        simp only [Bool.not_eq_true] at hw
        split at h
        · exact .inr (.inr (.inl ⟨hr, ‹_›, hw, by simpa using ‹(beginTick s).busy = true›, h⟩))
        · cases h
          exact .inr (.inr (.inr ⟨hr, ‹_›, by simpa using ‹¬(beginTick s).busy = true›, rfl⟩))

theorem hostNow_of_nil {s : State} (h : s.hostIn = []) : hostNow s = HostTick.quiet := by
  simp [hostNow, h]

@[simp] theorem hostAccess_quiet (s : State) : hostAccess HostTick.quiet s = s := rfl

/-- A tick with the host idle: the engine's action, or nothing. -/
theorem step_quiet {s : State} (h : Quiet s) :
    step s = if s.busy then engineTick (beginTick s) else .next (beginTick s) := by
  have hn := hostNow_of_nil h.1
  unfold step tickOnce workTick
  rw [show resetTick s = false by simp [resetTick, hn, HostTick.quiet, h.2]]
  simp [hn, HostTick.quiet, cmdWrite, writesRunningRange, beginTick_busy]
  rfl

theorem quiet_beginTick {s : State} (h : Quiet s) : Quiet (beginTick s) := by
  have hn := hostNow_of_nil h.1
  simp [Quiet, h.1, hn, HostTick.quiet]

end Sys2Proof.Machine
end

