-- ==== Sys2Proof/Laws/Engine.lean ====
section
/-! SUPPORT. What the sequencer's choice of the next phase guarantees (41_bit_engine.md R71), and that the engine does not see ARG
or the read data of the ports (20_memory.md R39, 70_reset_and_hazards.md R107). -/

namespace Sys2Proof.Machine

/-- A phase that a bit can start with or go on to: an action of its own, whose presence bits are set. -/
def Follows (p : Phase) (opr : Opr) (c : BusConfig) : Prop :=
  p ≠ .idle ∧ p ≠ .initClock ∧ phaseGuard p opr c = true ∧ p ≠ .activeWait ∧ p ≠ .idleWait

theorem startPhase_follows {opr : Opr} {c : BusConfig} (ho : opr ≠ .new)
    (h : c.doutP = true ∨ c.clkP = true ∨ sampleGuard opr c = true) : Follows (startPhase opr c) opr c := by
  unfold Follows startPhase firstDrive firstAssert firstSample firstDeassert
  by_cases hd : c.doutP = true <;> by_cases hc : c.clkP = true <;> by_cases hs : sampleGuard opr c = true <;>
    simp_all [phaseGuard]

/-- The action of a WRITE or TRANSFER needs one of the lines. -/
theorem guard_lines {p : Phase} {opr : Opr} {c : BusConfig} (h : phaseGuard p opr c = true) (h1 : p ≠ .idle)
    (h2 : p ≠ .initClock) :
    opr ≠ .new ∧ (c.doutP = true ∨ c.clkP = true ∨ sampleGuard opr c = true) := by
  cases p <;> simp_all [phaseGuard, sampleGuard]

theorem firstDeassert_follows {opr : Opr} {c : BusConfig} (ho : opr ≠ .new) :
    ∀ p, firstDeassert c = some p → Follows p opr c := by
  intro p h
  unfold firstDeassert at h
  (repeat' split at h) <;> simp at h <;> subst h <;> simp_all [Follows, phaseGuard]

theorem firstSample_follows {opr : Opr} {c : BusConfig} (ho : opr ≠ .new) :
    ∀ p, firstSample opr c = some p → Follows p opr c := by
  intro p h
  unfold firstSample firstDeassert at h
  (repeat' split at h) <;> simp at h <;> subst h <;> simp_all [Follows, phaseGuard]

theorem firstAssert_follows {opr : Opr} {c : BusConfig} (ho : opr ≠ .new) :
    ∀ p, firstAssert opr c = some p → Follows p opr c := by
  intro p h
  unfold firstAssert firstSample firstDeassert at h
  (repeat' split at h) <;> simp at h <;> subst h <;> simp_all [Follows, phaseGuard]

/-- ERRVAL holds an error of PIN_ERR_W bits (10_state.md R24). -/
theorem errvalOf_lt (e : PinError) : (errvalOf e).toNat < 2 ^ Config.pinErrW := by
  simp only [errvalOf, BitVec.toNat_setWidth]
  exact Nat.lt_of_le_of_lt (Nat.mod_le _ _) (BitVec.isLt _)

/-! ### The engine and the ports -/

/-- `s` with other values of ARG and of the read data of the two ports. -/
def withPorts (a x : Word) (y : Byte) (s : State) : State := { s with arg := a, regRdata := x, bufRdata := y }

/-- The answer with its next state changed by `f`. -/
def mapNext (f : State → State) : Host.Outcome State Fault Refusal → Host.Outcome State Fault Refusal
  | .next s => .next (f s)
  | .fault e => .fault e
  | .refused r => .refused r

theorem endBit_withPorts (a x : Word) (y : Byte) (s : State) :
    endBit (withPorts a x y s) = withPorts a x y (endBit s) := by
  unfold endBit
  by_cases h : s.eng.bidx ≠ 0
  · rw [if_pos h, if_pos (show (withPorts a x y s).eng.bidx ≠ 0 from h)]; rfl
  · rw [if_neg h, if_neg (show ¬(withPorts a x y s).eng.bidx ≠ 0 from h)]
    by_cases h' : s.eng.widx.toNat + 1 < s.eng.len.toNat
    · rw [if_pos h', if_pos (show (withPorts a x y s).eng.widx.toNat + 1 < (withPorts a x y s).eng.len.toNat from h')]; rfl
    · rw [if_neg h', if_neg (show ¬(withPorts a x y s).eng.widx.toNat + 1 < (withPorts a x y s).eng.len.toNat from h')]; rfl

theorem goto_withPorts (n : Option Phase) (a x : Word) (y : Byte) (s : State) :
    goto n (withPorts a x y s) = withPorts a x y (goto n s) := by
  cases n
  · exact endBit_withPorts a x y s
  · rfl

theorem advance_withPorts (a x : Word) (y : Byte) (s : State) :
    advance (withPorts a x y s) = withPorts a x y (advance s) := by
  have hp : (withPorts a x y s).eng = s.eng := rfl
  have hc : (withPorts a x y s).cfg = s.cfg := rfl
  unfold advance
  rw [hp, hc]
  cases s.eng.phase <;> dsimp only
  · rfl
  · exact goto_withPorts ..
  · split
    · rfl
    · exact goto_withPorts ..
  · split
    · rfl
    · exact goto_withPorts ..
  · exact goto_withPorts ..
  · split
    · rfl
    · exact endBit_withPorts ..
  · split
    · rfl
    · exact endBit_withPorts ..

theorem perform_withPorts (p : Phase) (c : Nat) (b : BitVec 3) (a x : Word) (y : Byte) (s : State) :
    perform p c b (withPorts a x y s) = mapNext (withPorts a x y) (perform p c b s) := by
  have hd : ∀ t : State, memRead c (withPorts a x y t) = memRead c t := fun _ => rfl
  have hm : misoResult (withPorts a x y s) = misoResult s := rfl
  have hr : readMiso (withPorts a x y s) = withPorts a x y (readMiso s) := rfl
  cases p <;> try rfl
  · simp only [perform, driveData, hd]
    cases memRead c s <;> rfl
  · simp only [perform, sample, hm, hr]
    cases misoResult s with
    | fail e => rfl
    | high => simp only [updateByte, hd]; cases memRead c (readMiso s) <;> rfl
    | low => simp only [updateByte, hd]; cases memRead c (readMiso s) <;> rfl

/-- The engine's action does not see ARG or the read data, and keeps them. -/
theorem engineTick_withPorts (a x : Word) (y : Byte) (s : State) :
    engineTick (withPorts a x y s) = mapNext (withPorts a x y) (engineTick s) := by
  have h := perform_withPorts s.eng.phase (cursorAddress s) s.eng.bidx a x y s
  unfold engineTick
  rw [show (withPorts a x y s).eng = s.eng from rfl, show cursorAddress (withPorts a x y s) = cursorAddress s from rfl, h]
  cases perform s.eng.phase (cursorAddress s) s.eng.bidx s with
  | next t =>
    simp only [mapNext, finishAction, show (withPorts a x y t).busy = t.busy from rfl]
    split
    · rw [advance_withPorts]
    · rfl
  | fault e => rfl
  | refused r => rfl

end Sys2Proof.Machine
end

