-- ==== Sys2Proof/Laws/Operands.lean ====
section
/-! SUPPORT. The bit operations of 41_bit_engine.md R66, R69 and R74, bit by bit. -/

namespace Sys2Proof.Machine

theorem bitMask_getLsbD (b : BitVec 3) (j : Nat) : (bitMask b).getLsbD j = decide (j = b.toNat) := by
  have hb := b.isLt
  simp only [bitMask, BitVec.getLsbD_shiftLeft, BitVec.getLsbD_one]
  by_cases h : j = b.toNat
  · simp [h]; omega
  · simp [h]; omega

/-- DRIVE_DATA's level is the level of the bit itself (00_scope.md R12). -/
theorem dataLevel_eq (w : Byte) (b : BitVec 3) : dataLevel w b = bitLevel (w.getLsbD b.toNat) := by
  have key : (w &&& bitMask b = 0) ↔ w.getLsbD b.toNat = false := by
    constructor
    · intro h
      have := congrArg (BitVec.getLsbD · b.toNat) h
      simpa [bitMask_getLsbD] using this
    · intro h
      apply BitVec.eq_of_getLsbD_eq
      intro i _
      simp only [BitVec.getLsbD_and, bitMask_getLsbD]
      by_cases hi : i = b.toNat
      · subst hi; simp [h]
      · simp [hi]
  unfold dataLevel bitLevel
  cases h : w.getLsbD b.toNat
  · rw [if_pos (key.2 h)]; rfl
  · rw [if_neg (fun hc => by rw [key.1 hc] at h; cases h)]; rfl

/-- A SAMPLE writes its bit and keeps the others. -/
theorem sampledByte_getLsbD (l : Level) (w : Byte) (b b' : BitVec 3) :
    (sampledByte l w b).getLsbD b'.toNat = if b' = b then decide (l = .high) else w.getLsbD b'.toNat := by
  have hb' := b'.isLt
  have e : b' = b ↔ b'.toNat = b.toNat := ⟨fun h => by rw [h], fun h => BitVec.eq_of_toNat_eq h⟩
  cases l <;> simp only [sampledByte, setBit, clearBit, BitVec.getLsbD_or, BitVec.getLsbD_and, BitVec.getLsbD_not,
    bitMask_getLsbD, e]
  · by_cases h : b'.toNat = b.toNat <;> simp [h]; omega
  · by_cases h : b'.toNat = b.toNat <;> simp [h]

end Sys2Proof.Machine
end

