-- ==== Sys2Proof/Laws/PerInstr.lean ====
section
/-! SUPPORT. Statements for every command, one lemma per constructor of Instr. -/

namespace Sys2Proof.Laws.OpcodeField

/-- The OP field that 30_encoding.md R49 gives a command. -/
def opOf : Instr → BitVec 2
  | .new _ _ _ _ => 0b00#2
  | .write _ => 0b01#2
  | .transfer _ => 0b10#2

/-- The command's word has its OP and no reserved bit (30_encoding.md R49). -/
def Statement (i : Instr) : Prop := opField (encode i) = opOf i ∧ reservedField (encode i) = 0

theorem new (k i o : Bool) (p : Polarity) : Statement (.new k i o p) := by
  cases k <;> cases i <;> cases o <;> cases p <;> exact ⟨by decide, by decide⟩

theorem write (len : Nat) : Statement (.write len) := ⟨opField_streamWord _ _, reservedField_streamWord _ _⟩

theorem transfer (len : Nat) : Statement (.transfer len) := ⟨opField_streamWord _ _, reservedField_streamWord _ _⟩

end Sys2Proof.Laws.OpcodeField
end

