-- ==== Sys2Proof/Laws/Run.lean ====
section
/-! SUPPORT. Runs of a quiet block: their composition, and what a run of actions leaves behind. -/

namespace Sys2Proof.Machine

/-! ### Ticks -/

@[simp] theorem ticks_zero (s : State) : ticks 0 s = .next s := rfl

theorem ticks_succ (k : Nat) (s : State) :
    ticks (k + 1) s = match step s with
      | .next t => ticks k t
      | .fault f => .fault f
      | .refused r => .refused r := by
  unfold ticks
  simp only [Host.Core.run, core]
  cases step s <;> rfl

theorem ticks_add (j k : Nat) (s : State) :
    ticks (j + k) s = match ticks j s with
      | .next t => ticks k t
      | .fault f => .fault f
      | .refused r => .refused r := by
  induction j generalizing s with
  | zero => simp
  | succ j ih =>
    rw [Nat.add_right_comm, ticks_succ, ticks_succ]
    cases step s <;> simp [ih]

/-- `k` ticks lead from `s` to `t`, and a command runs at the start of each. -/
def RunsTo (k : Nat) (s t : State) : Prop :=
  ticks k s = .next t ∧ ∀ j, j < k → ∃ v, ticks j s = .next v ∧ v.busy = true

theorem runsTo_zero (s : State) : RunsTo 0 s s := ⟨rfl, fun j hj => absurd hj (Nat.not_lt_zero j)⟩

theorem runsTo_trans {j k : Nat} {s t u : State} (h1 : RunsTo j s t) (h2 : RunsTo k t u) : RunsTo (j + k) s u := by
  refine ⟨by rw [ticks_add, h1.1]; exact h2.1, fun i hi => ?_⟩
  by_cases hij : i < j
  · exact h1.2 i hij
  · obtain ⟨v, hv, hb⟩ := h2.2 (i - j) (by omega)
    refine ⟨v, ?_, hb⟩
    rw [show i = j + (i - j) by omega, ticks_add, h1.1]
    exact hv

theorem finishes_iff (k : Nat) (t u : State) : Finishes k t u ↔ RunsTo k t u ∧ u.busy = false :=
  ⟨fun h => ⟨⟨h.1, h.2.2⟩, h.2.1⟩, fun h => ⟨h.1.1, h.2, h.1.2⟩⟩

/-- One tick of a running command with the host idle. -/
theorem runsTo_one {s t : State} (hq : Quiet s) (hb : s.busy = true) (h : engineTick (beginTick s) = .next t) :
    RunsTo 1 s t := by
  refine ⟨?_, fun j hj => ?_⟩
  · rw [ticks_succ, step_quiet hq, hb]; simp [h]
  · have : j = 0 := by omega
    subst this; exact ⟨s, rfl, hb⟩

/-! ### What the environment has answered -/

/-- The environment `e`, after the events `tr`, can answer the events `ev` and is then `e'` (60_exceptions.md R99). -/
def Answers : Env → List Event → List Event → Env → Prop
  | e, _, [], e' => e' = e
  | e, tr, .drive ln l st :: ev, e' =>
    ∃ n, (e.drive n).1 = st ∧ Answers (e.drive n).2 (tr ++ [.drive ln l st]) ev e'
  | e, tr, .read r :: ev, e' =>
    ∃ n, (e.read tr n).1 = r ∧ Answers (e.read tr n).2 (tr ++ [.read r]) ev e'
  | e, tr, .spin :: ev, e' => Answers e (tr ++ [.spin]) ev e'

theorem answers_append {e e1 e2 : Env} {tr ev ev' : List Event} (h : Answers e tr ev e1)
    (h' : Answers e1 (tr ++ ev) ev' e2) : Answers e tr (ev ++ ev') e2 := by
  induction ev generalizing e tr with
  | nil => rw [Answers] at h; subst h; simpa using h'
  | cons x ev ih =>
    cases x with
    | drive ln l st =>
      obtain ⟨n, h1, h2⟩ := h
      exact ⟨n, h1, ih h2 (by simpa using h')⟩
    | read r =>
      obtain ⟨n, h1, h2⟩ := h
      exact ⟨n, h1, ih h2 (by simpa using h')⟩
    | spin => exact ih (tr := tr ++ [.spin]) h (by simpa using h')

/-- The record of a line after the events `ev` (10_state.md R27). -/
def recordAfter (line : DrivenLine) : LineLevel → List Event → LineLevel
  | r, [] => r
  | r, .drive ln l st :: ev => recordAfter line (if ln = line then levelAfter l st else r) ev
  | r, .read _ :: ev => recordAfter line r ev
  | r, .spin :: ev => recordAfter line r ev

theorem recordAfter_append (line : DrivenLine) (r : LineLevel) (ev ev' : List Event) :
    recordAfter line r (ev ++ ev') = recordAfter line (recordAfter line r ev) ev' := by
  induction ev generalizing r with
  | nil => rfl
  | cons x ev ih => cases x <;> exact ih _

/-- `u` is `s` after the events `ev` of a quiet run: the trace, the records and the environment follow the events, the registers
keep their values. -/
structure Ran (s u : State) (ev : List Event) : Prop where
  quiet : Quiet u
  cfg : u.cfg = s.cfg
  arg : u.arg = s.arg
  bufRdata : u.bufRdata = s.bufRdata
  regRdata : u.regRdata = s.regRdata
  trace : u.trace = s.trace ++ ev
  env : Answers s.env s.trace ev u.env
  sclk : u.sclkLvl = recordAfter .sclk s.sclkLvl ev
  mosi : u.mosiLvl = recordAfter .mosi s.mosiLvl ev

theorem ran_refl {s : State} (h : Quiet s) : Ran s s [] :=
  ⟨h, rfl, rfl, rfl, rfl, by simp, rfl, rfl, rfl⟩

theorem ran_trans {s t u : State} {ev ev' : List Event} (h : Ran s t ev) (h' : Ran t u ev') : Ran s u (ev ++ ev') := by
  refine ⟨h'.quiet, h'.cfg.trans h.cfg, h'.arg.trans h.arg, h'.bufRdata.trans h.bufRdata,
    h'.regRdata.trans h.regRdata, ?_, ?_, ?_, ?_⟩
  · rw [h'.trace, h.trace, List.append_assoc]
  · have := h'.env; rw [h.trace] at this; exact answers_append h.env this
  · rw [h'.sclk, h.sclk, recordAfter_append]
  · rw [h'.mosi, h.mosi, recordAfter_append]

/-- A sequencing step after a run. -/
theorem ran_goto {s u : State} {ev : List Event} (h : Ran s u ev) (n : Option Phase) : Ran s (goto n u) ev :=
  ⟨by simpa [Quiet] using h.quiet, by simpa using h.cfg, by simpa using h.arg, by simpa using h.bufRdata,
    by simpa using h.regRdata, by simpa using h.trace, by simpa using h.env, by simpa using h.sclk,
    by simpa using h.mosi⟩

theorem ran_of_goto {s u : State} {ev : List Event} {n : Option Phase} (h : Ran (goto n s) u ev) : Ran s u ev :=
  ⟨h.quiet, by simpa using h.cfg, by simpa using h.arg, by simpa using h.bufRdata,
    by simpa using h.regRdata, by simpa using h.trace, by simpa using h.env, by simpa using h.sclk,
    by simpa using h.mosi⟩

/-- The part of the engine that only the end of a bit changes. -/
def sameCursor (x y : State) : Prop :=
  y.eng.opr = x.eng.opr ∧ y.eng.base = x.eng.base ∧ y.eng.len = x.eng.len ∧ y.eng.widx = x.eng.widx ∧
    y.eng.bidx = x.eng.bidx

theorem sameCursor_refl (x : State) : sameCursor x x := ⟨rfl, rfl, rfl, rfl, rfl⟩

theorem sameCursor_trans {x y z : State} (h : sameCursor x y) (h' : sameCursor y z) : sameCursor x z :=
  ⟨h'.1.trans h.1, h'.2.1.trans h.2.1, h'.2.2.1.trans h.2.2.1, h'.2.2.2.1.trans h.2.2.2.1,
    h'.2.2.2.2.trans h.2.2.2.2⟩

/-- A run of a segment of a bit: the events, with BUF, ERRVAL, BUSY, RESULT and the cursor kept. -/
structure Segment (x y : State) (ev : List Event) : Prop where
  ran : Ran x y ev
  busy : y.busy = x.busy
  result : y.result = x.result
  errval : y.errval = x.errval
  cursor : sameCursor x y

theorem segment_refl {s : State} (h : Quiet s) : Segment s s [] := ⟨ran_refl h, rfl, rfl, rfl, sameCursor_refl s⟩

theorem segment_trans {s t u : State} {ev ev' : List Event} (h : Segment s t ev) (h' : Segment t u ev') :
    Segment s u (ev ++ ev') :=
  ⟨ran_trans h.ran h'.ran, h'.busy.trans h.busy, h'.result.trans h.result, h'.errval.trans h.errval,
    sameCursor_trans h.cursor h'.cursor⟩

/-! ### The segments of a bit (41_bit_engine.md R64) -/

theorem engineTick_phase {s : State} {p : Phase} {u : State} (hp : s.eng.phase = p) (hub : u.busy = true)
    (h : perform p (cursorAddress s) s.eng.bidx s = .next u) : engineTick s = .next (advance u) := by
  rw [engineTick_of_perform (u := u) (by rw [hp]; exact h), finishAction_busy _ hub]

/-- DRIVE_DATA, if data-out is present (R66). -/
theorem drive_segment {x : State} (hq : Quiet x) (hb : x.busy = true)
    (hw : x.cfg.doutP = true → ∃ w, memRead (cursorAddress x) x = some w) :
    ∃ y ev, RunsTo x.cfg.doutP.toNat (goto (firstDrive x.eng.opr x.cfg) x) (goto (firstAssert y.eng.opr y.cfg) y) ∧
      Segment x y ev ∧ y.buf = x.buf ∧
      (if x.cfg.doutP then ∃ w st, memRead (cursorAddress x) x = some w ∧
        ev = [.drive .mosi (bitLevel (w.getLsbD x.eng.bidx.toNat)) st] else ev = []) := by
  by_cases hd : x.cfg.doutP = true
  · obtain ⟨w, hw⟩ := hw hd
    let s : State := setPhase .driveData x
    have hs : goto (firstDrive x.eng.opr x.cfg) x = s := by simp [firstDrive, hd, goto, s]
    let y : State := driveMosi (dataLevel w x.eng.bidx) (beginTick s)
    have hn : hostNow s = HostTick.quiet := hostNow_of_nil hq.1
    have ht : engineTick (beginTick s) = .next (advance y) :=
      engineTick_phase (p := .driveData) rfl hb (driveData_some hw)
    have ha : advance y = goto (firstAssert y.eng.opr y.cfg) y := rfl
    refine ⟨y, [.drive .mosi (dataLevel w x.eng.bidx) (x.env.drive (x.tick + 1)).1], ?_, ⟨⟨?_, rfl, rfl, rfl, rfl, rfl, ?_, rfl, rfl⟩, rfl, rfl, rfl, sameCursor_refl x⟩, rfl, ?_⟩
    · rw [hs, hd]; exact runsTo_one hq hb (by rw [ht, ha])
    · exact quiet_beginTick (s := s) hq
    · exact ⟨x.tick + 1, rfl, rfl⟩
    · rw [if_pos hd]; exact ⟨w, _, hw, by rw [dataLevel_eq]⟩
  · simp only [Bool.not_eq_true] at hd
    refine ⟨x, [], ?_, segment_refl hq, rfl, by simp [hd]⟩
    have : firstDrive x.eng.opr x.cfg = firstAssert x.eng.opr x.cfg := by simp [firstDrive, hd]
    rw [this, hd]; exact runsTo_zero _

/-- The drive that opens a clock half: active or idle (R67, R70). -/
def halfDrive (active : Bool) : Phase := if active then .assertClock else .deassertClock
/-- The wait of a clock half (R68). -/
def halfWait (active : Bool) : Phase := if active then .activeWait else .idleWait
/-- The level of a clock half. -/
def halfLevel (active : Bool) (p : Polarity) : Level := if active then activeLevel p else idleLevel p
/-- What follows a clock half (R71). -/
def halfNext (active : Bool) (opr : Opr) (c : BusConfig) : Option Phase := if active then firstSample opr c else none

theorem segment_setPhase {x y : State} {p : Phase} {ev : List Event} (h : Segment (setPhase p x) y ev) : Segment x y ev :=
  ⟨⟨h.ran.quiet, h.ran.cfg, h.ran.arg, h.ran.bufRdata, h.ran.regRdata, h.ran.trace, h.ran.env, h.ran.sclk, h.ran.mosi⟩,
    h.busy, h.result, h.errval, h.cursor⟩

/-- The waits of a clock half (R68). -/
theorem wait_segment (active : Bool) (n : Nat) {s : State} (hq : Quiet s) (hb : s.busy = true)
    (hp : s.eng.phase = halfWait active) (hd : s.eng.dcnt.toNat = n + 1) :
    ∃ y, RunsTo (n + 1) s (goto (halfNext active y.eng.opr y.cfg) y) ∧ Segment s y (List.replicate (n + 1) .spin) ∧
      y.buf = s.buf ∧ y.eng.dcnt = 0 := by
  induction n generalizing s with
  | zero =>
    let y : State := waitOnce (beginTick s)
    have hz : y.eng.dcnt = 0 := by
      apply BitVec.eq_of_toNat_eq
      show (s.eng.dcnt - 1).toNat = 0
      simp [BitVec.toNat_sub, hd]
    have ha : advance y = goto (halfNext active y.eng.opr y.cfg) y := by
      have hy : y.eng.phase = halfWait active := hp
      unfold advance
      cases active <;> rw [hy] <;> simp [halfWait, hz, halfNext] <;> rfl
    refine ⟨y, ?_, ⟨⟨quiet_beginTick (s := s) hq, rfl, rfl, rfl, rfl, rfl, rfl, rfl, rfl⟩, rfl, rfl, rfl, sameCursor_refl s⟩, rfl, hz⟩
    have := engineTick_phase (s := beginTick s) (p := halfWait active) (u := y) hp hb (by cases active <;> rfl)
    rw [ha] at this
    exact runsTo_one hq hb this
  | succ n ih =>
    let y : State := waitOnce (beginTick s)
    have hz : y.eng.dcnt.toNat = n + 1 := by
      show (s.eng.dcnt - 1).toNat = n + 1
      have := s.eng.dcnt.isLt
      rw [BitVec.toNat_sub, hd]; simp; omega
    have hz0 : y.eng.dcnt ≠ 0 := fun h => by rw [h] at hz; simp at hz
    have hy : y.eng.phase = halfWait active := hp
    have ha : advance y = setPhase (halfWait active) y := by
      unfold advance
      cases active <;> rw [hy] <;> exact if_pos hz0
    have ht := engineTick_phase (s := beginTick s) (p := halfWait active) (u := y) hp hb (by cases active <;> rfl)
    rw [ha] at ht
    obtain ⟨z, hr, hs, hbuf, hz'⟩ := ih (s := setPhase (halfWait active) y) (quiet_beginTick (s := s) hq) hb rfl hz
    refine ⟨z, ?_, ?_, hbuf, hz'⟩
    · rw [Nat.add_comm (n + 1) 1]; exact runsTo_trans (runsTo_one hq hb ht) hr
    · rw [List.replicate_succ]
      exact segment_trans (t := y) (ev := [.spin])
        ⟨⟨quiet_beginTick (s := s) hq, rfl, rfl, rfl, rfl, rfl, rfl, rfl, rfl⟩, rfl, rfl, rfl, sameCursor_refl s⟩
        (segment_setPhase hs)

/-- A clock half: its drive and DELAY waits (R67, R68, R70). -/
theorem half_segment (active : Bool) {x : State} (hq : Quiet x) (hb : x.busy = true) :
    ∃ y st, RunsTo (1 + x.cfg.delay.toNat) (setPhase (halfDrive active) x) (goto (halfNext active y.eng.opr y.cfg) y) ∧
      Segment x y (.drive .sclk (halfLevel active x.cfg.cpol) st :: List.replicate x.cfg.delay.toNat .spin) ∧
      y.buf = x.buf ∧ y.eng.dcnt = 0 := by
  let s := setPhase (halfDrive active) x
  let y : State := driveSclk (halfLevel active x.cfg.cpol) { beginTick s with eng := { s.eng with dcnt := x.cfg.delay } }
  have hn : hostNow s = HostTick.quiet := hostNow_of_nil hq.1
  have ht := engineTick_phase (s := beginTick s) (p := halfDrive active) (u := y) rfl hb (by cases active <;> rfl)
  have hy : y.eng.phase = halfDrive active := rfl
  have hseg : Segment x y [.drive .sclk (halfLevel active x.cfg.cpol) (x.env.drive (x.tick + 1)).1] :=
    ⟨⟨quiet_beginTick (s := s) hq, rfl, rfl, rfl, rfl, rfl, ⟨x.tick + 1, rfl, rfl⟩, rfl, rfl⟩, rfl, rfl, rfl, sameCursor_refl x⟩
  by_cases hd : x.cfg.delay = 0
  · have ha : advance y = goto (halfNext active y.eng.opr y.cfg) y := by
      have hd' : y.cfg.delay = 0 := hd
      unfold advance
      cases active <;> rw [hy] <;> simp [halfDrive, hd', halfNext] <;> rfl
    rw [ha] at ht
    refine ⟨y, (x.env.drive (x.tick + 1)).1, ?_, ?_, rfl, hd⟩
    · rw [hd]; exact runsTo_one hq hb ht
    · rw [hd]; exact hseg
  · have ha : advance y = setPhase (halfWait active) y := by
      have hd' : y.cfg.delay ≠ 0 := hd
      unfold advance
      cases active <;> rw [hy] <;> exact if_pos hd'
    rw [ha] at ht
    have hpos : x.cfg.delay.toNat = (x.cfg.delay.toNat - 1) + 1 := by
      have : x.cfg.delay.toNat ≠ 0 := fun h => hd (BitVec.eq_of_toNat_eq h)
      omega
    obtain ⟨z, hr, hs, hbuf, hz⟩ := wait_segment active (x.cfg.delay.toNat - 1) (s := setPhase (halfWait active) y)
      (quiet_beginTick (s := s) hq) hb rfl hpos
    rw [← hpos] at hr hs
    exact ⟨z, _, runsTo_trans (runsTo_one hq hb ht) hr, segment_trans hseg (segment_setPhase hs), hbuf, hz⟩

/-- A SAMPLE (R69, R86). -/
theorem sample_segment {x : State} (hq : Quiet x) (hb : x.busy = true) {w : Byte} (hw : memRead (cursorAddress x) x = some w) :
    (∃ y l, RunsTo 1 (setPhase .sample x) (goto (firstDeassert y.cfg) y) ∧ Segment x y [.read (readLevel l)] ∧
      y.buf = (memWrite (cursorAddress x) (sampledByte l w x.eng.bidx) x).buf) ∨
    (∃ y e, RunsTo 1 (setPhase .sample x) y ∧ Ran x y [.read (.fail e)] ∧ y.buf = x.buf ∧ y.busy = false ∧
      y.result = .readFail ∧ y.errval = errvalOf e ∧ y.eng.phase = .idle) := by
  let s := setPhase .sample x
  have hm : ∀ r, misoResult (beginTick s) = r → (x.env.read x.trace (x.tick + 1)).1 = r := fun r h => h
  rcases readResult_cases (misoResult (beginTick s)) with ⟨l, hl⟩ | ⟨e, he⟩
  · left
    let y : State := memWrite (cursorAddress x) (sampledByte l w x.eng.bidx) (readMiso (beginTick s))
    have ht := engineTick_phase (s := beginTick s) (p := .sample) (u := y) rfl hb (sample_level hl hw)
    refine ⟨y, l, runsTo_one hq hb ht, ⟨⟨quiet_beginTick (s := s) hq, rfl, rfl, rfl, rfl, ?_, ⟨x.tick + 1, hm _ hl, ?_⟩, rfl, rfl⟩, rfl, rfl, rfl, sameCursor_refl x⟩, rfl⟩
    · show x.trace ++ [.read (misoResult (beginTick s))] = _; rw [hl]
    · exact rfl
  · right
    let y : State := raiseReadFail e (readMiso (beginTick s))
    have ht : engineTick (beginTick s) = .next y := by
      rw [engineTick_of_perform (s := beginTick s) (u := y) (sample_fail he), finishAction_ended _ rfl]
    refine ⟨y, e, runsTo_one hq hb ht, ⟨quiet_beginTick (s := s) hq, rfl, rfl, rfl, rfl, ?_, ⟨x.tick + 1, hm _ he, ?_⟩, rfl, rfl⟩, rfl, rfl, rfl, rfl, rfl⟩
    · show x.trace ++ [.read (misoResult (beginTick s))] = _; rw [he]
    · exact rfl

/-- The events of a bit up to its sample (R64). -/
def openEvents (c : BusConfig) (l : Level) (st st' : DriveStatus) : List Event :=
  (if c.doutP then [.drive .mosi l st] else [])
  ++ (if c.clkP then .drive .sclk (activeLevel c.cpol) st' :: List.replicate c.delay.toNat .spin else [])

/-- The events of a bit after its sample (R64). -/
def closeEvents (c : BusConfig) (st : DriveStatus) : List Event :=
  if c.clkP then .drive .sclk (idleLevel c.cpol) st :: List.replicate c.delay.toNat .spin else []

/-- The current bit of the current word, where it has been written. -/
def cursorBit (x : State) : Bool := ((memRead (cursorAddress x) x).getD 0).getLsbD x.eng.bidx.toNat

theorem open_segment {x : State} (hq : Quiet x) (hb : x.busy = true)
    (hw : x.cfg.doutP = true → (memRead (cursorAddress x) x).isSome = true) :
    ∃ y st st', RunsTo (x.cfg.doutP.toNat + x.cfg.clkP.toNat * (1 + x.cfg.delay.toNat))
        (goto (firstDrive x.eng.opr x.cfg) x) (goto (firstSample y.eng.opr y.cfg) y) ∧
      Segment x y (openEvents x.cfg (bitLevel (cursorBit x)) st st') ∧ y.buf = x.buf := by
  obtain ⟨y, ev, hr, hs, hbuf, hev⟩ := drive_segment hq hb (fun h => Option.isSome_iff_exists.1 (hw h))
  have hev' : ∃ st, ev = if x.cfg.doutP then [.drive .mosi (bitLevel (cursorBit x)) st] else [] := by
    by_cases hd : x.cfg.doutP = true
    · rw [if_pos hd] at hev
      obtain ⟨w, st, hw, rfl⟩ := hev
      exact ⟨st, by simp [hd, cursorBit, hw]⟩
    · rw [if_neg hd] at hev
      exact ⟨.ok, by simp [hd, hev]⟩
  obtain ⟨st, rfl⟩ := hev'
  by_cases hk : x.cfg.clkP = true
  · have hk' : y.cfg.clkP = true := by rw [hs.ran.cfg]; exact hk
    obtain ⟨z, st', hr', hs', hbuf', -⟩ := half_segment true (x := y) hs.ran.quiet (by rw [hs.busy]; exact hb)
    have hg : goto (firstAssert y.eng.opr y.cfg) y = setPhase (halfDrive true) y := by simp [firstAssert, hk', goto, halfDrive]
    rw [hg] at hr
    refine ⟨z, st, st', ?_, ?_, hbuf'.trans hbuf⟩
    · rw [hk, ← hs.ran.cfg]
      simpa [halfNext, hs.ran.cfg] using runsTo_trans hr hr'
    · have := segment_trans hs hs'
      simpa [openEvents, hk, hs.ran.cfg, halfLevel] using this
  · simp only [Bool.not_eq_true] at hk
    have hk' : y.cfg.clkP = false := by rw [hs.ran.cfg]; exact hk
    refine ⟨y, st, .ok, ?_, ?_, hbuf⟩
    · have hg : firstAssert y.eng.opr y.cfg = firstSample y.eng.opr y.cfg := by simp [firstAssert, hk']
      simpa [hk, hg] using hr
    · simpa [openEvents, hk] using hs

theorem close_segment {x : State} (hq : Quiet x) (hb : x.busy = true) :
    ∃ y st, RunsTo (x.cfg.clkP.toNat * (1 + x.cfg.delay.toNat)) (goto (firstDeassert x.cfg) x) (endBit y) ∧
      Segment x y (closeEvents x.cfg st) ∧ y.buf = x.buf := by
  by_cases hk : x.cfg.clkP = true
  · obtain ⟨z, st', hr', hs', hbuf', -⟩ := half_segment false (x := x) hq hb
    refine ⟨z, st', ?_, ?_, hbuf'⟩
    · have hg : goto (firstDeassert x.cfg) x = setPhase (halfDrive false) x := by simp [firstDeassert, hk, goto, halfDrive]
      rw [hg, hk]; simpa [halfNext, goto] using hr'
    · simpa [closeEvents, hk, halfLevel] using hs'
  · simp only [Bool.not_eq_true] at hk
    exact ⟨x, .ok, by simpa [hk, firstDeassert, goto] using runsTo_zero _, by simpa [closeEvents, hk] using segment_refl hq, rfl⟩

/-- One bit of a running WRITE or TRANSFER (R64, R69, R71, R86). -/
theorem bit_segment {x : State} (hq : Quiet x) (hb : x.busy = true)
    (hw : x.cfg.doutP = true ∨ sampleGuard x.eng.opr x.cfg = true → (memRead (cursorAddress x) x).isSome = true) :
    (∃ y st st' st'' l, RunsTo (bitActionCount x.eng.opr x.cfg) (goto (firstDrive x.eng.opr x.cfg) x) (endBit y) ∧
      Segment x y (openEvents x.cfg (bitLevel (cursorBit x)) st st'
        ++ (if sampleGuard x.eng.opr x.cfg then [.read (readLevel l)] else []) ++ closeEvents x.cfg st'') ∧
      y.buf = if sampleGuard x.eng.opr x.cfg then
        (memWrite (cursorAddress x) (sampledByte l ((memRead (cursorAddress x) x).getD 0) x.eng.bidx) x).buf else x.buf) ∨
    (∃ y st st' e, RunsTo (x.cfg.doutP.toNat + x.cfg.clkP.toNat * (1 + x.cfg.delay.toNat) + 1)
        (goto (firstDrive x.eng.opr x.cfg) x) y ∧ sampleGuard x.eng.opr x.cfg = true ∧
      Ran x y (openEvents x.cfg (bitLevel (cursorBit x)) st st' ++ [.read (.fail e)]) ∧
      y.buf = x.buf ∧ y.busy = false ∧ y.result = .readFail ∧ y.errval = errvalOf e ∧ y.eng.phase = .idle) := by
  obtain ⟨y, st, st', hr, hs, hbuf⟩ := open_segment hq hb (fun h => hw (.inl h))
  have hyb : y.busy = true := by rw [hs.busy]; exact hb
  have hsg : sampleGuard y.eng.opr y.cfg = sampleGuard x.eng.opr x.cfg := by rw [hs.cursor.1, hs.ran.cfg]
  have hca : cursorAddress y = cursorAddress x := by
    unfold cursorAddress; rw [hs.cursor.2.1, hs.cursor.2.2.2.1]
  by_cases hg : sampleGuard x.eng.opr x.cfg = true
  · obtain ⟨w, hw⟩ := Option.isSome_iff_exists.1 (hw (.inr hg))
    have hgoto : goto (firstSample y.eng.opr y.cfg) y = setPhase .sample y := by
      simp [firstSample, hsg, hg, goto]
    rw [hgoto] at hr
    have hyw : memRead (cursorAddress y) y = some w := by rw [hca]; unfold memRead; rw [hbuf]; exact hw
    rcases sample_segment hs.ran.quiet hyb hyw with ⟨z, l, hr2, hs2, hbuf2⟩ | ⟨z, e, hr2, hs2, hbuf2, h1, h2, h3, h4⟩
    · left
      have hzb : z.busy = true := by rw [hs2.busy]; exact hyb
      obtain ⟨u, st'', hr3, hs3, hbuf3⟩ := close_segment hs2.ran.quiet hzb
      have hzc : z.cfg = x.cfg := by rw [hs2.ran.cfg, hs.ran.cfg]
      refine ⟨u, st, st', st'', l, ?_, ?_, ?_⟩
      · have := runsTo_trans hr (runsTo_trans hr2 hr3)
        rw [hzc] at this
        have e : bitActionCount x.eng.opr x.cfg = x.cfg.doutP.toNat + x.cfg.clkP.toNat * (1 + x.cfg.delay.toNat) + (1 + x.cfg.clkP.toNat * (1 + x.cfg.delay.toNat)) := by
          rw [bitActionCount, hg, show 2 + 2 * x.cfg.delay.toNat = (1 + x.cfg.delay.toNat) + (1 + x.cfg.delay.toNat) by omega, Nat.mul_add]
          simp; omega
        rw [e]; exact this
      · rw [if_pos hg]
        have := segment_trans hs (segment_trans hs2 hs3)
        rw [hzc] at this
        simpa [List.append_assoc] using this
      · rw [if_pos hg, hbuf3, hbuf2, hca, hs.cursor.2.2.2.2]
        simp [memWrite, hbuf, hw]
    · right
      refine ⟨z, st, st', e, runsTo_trans hr hr2, hg, ran_trans hs.ran hs2, hbuf2.trans hbuf, h1, h2, h3, h4⟩
  · left
    have hgoto : goto (firstSample y.eng.opr y.cfg) y = goto (firstDeassert y.cfg) y := by
      simp [firstSample, hsg, hg]
    rw [hgoto] at hr
    obtain ⟨u, st'', hr3, hs3, hbuf3⟩ := close_segment hs.ran.quiet hyb
    refine ⟨u, st, st', st'', .low, ?_, ?_, ?_⟩
    · have := runsTo_trans hr hr3
      rw [hs.ran.cfg] at this
      have e : bitActionCount x.eng.opr x.cfg = x.cfg.doutP.toNat + x.cfg.clkP.toNat * (1 + x.cfg.delay.toNat) + (x.cfg.clkP.toNat * (1 + x.cfg.delay.toNat)) := by
          simp only [Bool.not_eq_true] at hg
          rw [bitActionCount, hg, show 2 + 2 * x.cfg.delay.toNat = (1 + x.cfg.delay.toNat) + (1 + x.cfg.delay.toNat) by omega, Nat.mul_add]
          simp; omega
      rw [e]; exact this
    · rw [if_neg hg]
      have := segment_trans hs hs3
      rw [hs.ran.cfg] at this
      simpa using this
    · rw [if_neg hg, hbuf3, hbuf]

end Sys2Proof.Machine
end

