-- ==== Sys2Proof/Laws/Stream.lean ====
section
/-! SUPPORT. The run of an accepted WRITE or TRANSFER, bit by bit: its events, what it leaves in BUF, its end. -/

namespace Sys2Proof.Machine

theorem answers_split {e e' : Env} {tr ev ev' : List Event} (h : Answers e tr (ev ++ ev') e') :
    ∃ e1, Answers e tr ev e1 ∧ Answers e1 (tr ++ ev) ev' e' := by
  induction ev generalizing e tr with
  | nil => exact ⟨e, rfl, by simpa using h⟩
  | cons x ev ih =>
    cases x with
    | drive ln l st => obtain ⟨n, h1, h2⟩ := h; obtain ⟨e1, h3, h4⟩ := ih h2; exact ⟨e1, ⟨n, h1, h3⟩, by simpa using h4⟩
    | read r => obtain ⟨n, h1, h2⟩ := h; obtain ⟨e1, h3, h4⟩ := ih h2; exact ⟨e1, ⟨n, h1, h3⟩, by simpa using h4⟩
    | spin => obtain ⟨e1, h3, h4⟩ := ih (tr := tr ++ [.spin]) h; exact ⟨e1, h3, by simpa using h4⟩

/-- An oracle answers the reads with its list. -/
theorem answers_reads {ds : List DriveStatus} {rs : List ReadResult} {e' : Env} {tr ev : List Event} (h : Answers (.oracle ds rs) tr ev e') :
    ∀ i, i < rs.length → i < (readResults ev).length → (readResults ev)[i]? = rs[i]? := by
  induction ev generalizing ds rs tr with
  | nil => intro i _ hi; simp [readResults] at hi
  | cons x ev ih =>
    cases x with
    | drive ln l st =>
      obtain ⟨n, h1, h2⟩ := h
      have : ∃ ds', (Env.oracle ds rs).drive n = (st, .oracle ds' rs) := by
        cases ds with
        | nil => exact ⟨[], by rw [← h1]; rfl⟩
        | cons d ds => exact ⟨ds, by rw [← h1]; rfl⟩
      obtain ⟨ds', hd⟩ := this
      rw [hd] at h2
      exact ih h2
    | read r =>
      obtain ⟨n, h1, h2⟩ := h
      cases rs with
      | nil => intro i hi; simp at hi
      | cons r0 rs =>
        have hr : r0 = r := h1
        subst hr
        intro i hi hi'
        have e : readResults (Event.read r0 :: ev) = r0 :: readResults ev := rfl
        rw [e] at hi' ⊢
        cases i with
        | zero => rfl
        | succ i => exact ih (h2 : Answers (.oracle ds rs) _ _ _) i (by simpa using hi) (by simpa using hi')
    | spin => exact ih (tr := tr ++ [.spin]) h

theorem mem_bitOrder (b : BitVec 3) : b ∈ bitOrder := by revert b; decide

/-- The level of the `m`-th bit of a command's words. -/
def levelAt (base : Word) (s : State) (m : Nat) : Level :=
  bitLevel ((wordAt base (m / 8) s).getLsbD (7 - m % 8))

theorem commandLevels_eq (base : Word) (len : Nat) (s : State) :
    commandLevels base len s = (List.range (8 * len)).map (levelAt base s) := by
  unfold commandLevels
  induction len with
  | zero => rfl
  | succ n ih =>
    rw [List.range_succ, List.flatMap_append, ih, show 8 * (n + 1) = 8 * n + 8 by omega, List.range_add, List.map_append]
    congr 1
    simp only [List.flatMap_cons, List.flatMap_nil, List.append_nil, wordLevels, bitOrder, List.map_cons, List.map_nil, List.map_map]
    have h8 : List.range 8 = [0,1,2,3,4,5,6,7] := by decide
    rw [h8]
    simp only [List.map_cons, List.map_nil, Function.comp, levelAt]
    simp only [show (8 * n + 0) / 8 = n by omega, show (8 * n + 1) / 8 = n by omega, show (8 * n + 2) / 8 = n by omega, show (8 * n + 3) / 8 = n by omega, show (8 * n + 4) / 8 = n by omega, show (8 * n + 5) / 8 = n by omega, show (8 * n + 6) / 8 = n by omega, show (8 * n + 7) / 8 = n by omega,
      show (8 * n + 0) % 8 = 0 by omega, show (8 * n + 1) % 8 = 1 by omega, show (8 * n + 2) % 8 = 2 by omega, show (8 * n + 3) % 8 = 3 by omega, show (8 * n + 4) % 8 = 4 by omega, show (8 * n + 5) % 8 = 5 by omega, show (8 * n + 6) % 8 = 6 by omega, show (8 * n + 7) % 8 = 7 by omega]
    rfl

theorem readResults_append (a b : List Event) : readResults (a ++ b) = readResults a ++ readResults b := by
  simp [readResults]

theorem driveStatuses_append (l) (a b : List Event) : driveStatuses l (a ++ b) = driveStatuses l a ++ driveStatuses l b := by
  simp [driveStatuses]

theorem readResults_spins (n : Nat) : readResults (List.replicate n .spin) = [] := by
  unfold readResults; rw [List.filterMap_replicate]; rfl

theorem driveStatuses_spins (l) (n : Nat) : driveStatuses l (List.replicate n .spin) = [] := by
  unfold driveStatuses; rw [List.filterMap_replicate]; rfl

theorem recordAfter_spins (l r) (n : Nat) : recordAfter l r (List.replicate n .spin) = r := by
  induction n with
  | zero => rfl
  | succ n ih => exact ih

@[simp] theorem readResults_open (c l st st') : readResults (openEvents c l st st') = [] := by
  unfold openEvents
  rw [readResults_append]
  cases c.doutP <;> cases c.clkP <;> simp [readResults, Event.readOf]
@[simp] theorem readResults_close (c st) : readResults (closeEvents c st) = [] := by
  unfold closeEvents
  cases c.clkP <;> simp [readResults, Event.readOf]

theorem sclk_open (c l st st' r) (h : c.clkP = true) : driveStatuses .sclk (openEvents c l st st') = [st'] ∧
    recordAfter .sclk r (openEvents c l st st') = levelAfter (activeLevel c.cpol) st' := by
  unfold openEvents
  rw [recordAfter_append]
  cases c.doutP <;> simp [h, driveStatuses, Event.statusOn, recordAfter, recordAfter_spins, List.filterMap_cons]

theorem sclk_close (c st r) (h : c.clkP = true) : driveStatuses .sclk (closeEvents c st) = [st] ∧
    recordAfter .sclk r (closeEvents c st) = levelAfter (idleLevel c.cpol) st := by
  unfold closeEvents
  simp [h, driveStatuses, Event.statusOn, recordAfter, recordAfter_spins, List.filterMap_cons]

theorem mosi_open (c l st st' r) (h : c.doutP = true) : driveStatuses .mosi (openEvents c l st st') = [st] ∧
    recordAfter .mosi r (openEvents c l st st') = levelAfter l st := by
  unfold openEvents
  rw [recordAfter_append]
  cases c.clkP <;> simp [h, driveStatuses, Event.statusOn, recordAfter, recordAfter_spins, List.filterMap_cons]

theorem mosi_close (c st r) : driveStatuses .mosi (closeEvents c st) = [] ∧
    recordAfter .mosi r (closeEvents c st) = r := by
  unfold closeEvents
  cases c.clkP <;> simp [driveStatuses, Event.statusOn, recordAfter, recordAfter_spins, List.filterMap_cons]

theorem sclk_none (c l st st' r) (h : c.clkP = false) : recordAfter .sclk r (openEvents c l st st') = r ∧ ∀ st'', recordAfter .sclk r (closeEvents c st'') = r := by
  unfold openEvents closeEvents
  rw [recordAfter_append]
  cases c.doutP <;> simp [h, recordAfter]

theorem mosi_none (c l st st' r) (h : c.doutP = false) : recordAfter .mosi r (openEvents c l st st') = r := by
  unfold openEvents
  rw [recordAfter_append]
  cases c.clkP <;> simp [h, recordAfter, recordAfter_spins]

/-- What the events of the first `m` bits are. -/
structure Bits (c : BusConfig) (sg : Bool) (lv : Nat → Level) (sc mo : LineLevel) (m : Nat) (ev : List Event) : Prop where
  shape : ev.map Event.unanswered = ((List.range m).map lv).flatMap (bitTrace c sg)
  reads : (readResults ev).length = if sg then m else 0
  levels : ∀ r, r ∈ readResults ev → isLevel r = true
  sclk : if c.clkP ∧ 0 < m then ∃ st, (driveStatuses .sclk ev).getLast? = some st ∧ recordAfter .sclk sc ev = levelAfter (idleLevel c.cpol) st
    else recordAfter .sclk sc ev = sc
  mosi : if c.doutP ∧ 0 < m then ∃ st, (driveStatuses .mosi ev).getLast? = some st ∧ recordAfter .mosi mo ev = levelAfter (lv (m - 1)) st
    else recordAfter .mosi mo ev = mo

theorem bits_zero (c sg lv sc mo) : Bits c sg lv sc mo 0 [] := ⟨rfl, by simp [readResults], by simp [readResults], by simp [recordAfter], by simp [recordAfter]⟩

theorem bits_succ {c sg lv sc mo m ev} (h : Bits c sg lv sc mo m ev) (st st' st'' l) :
    Bits c sg lv sc mo (m + 1) (ev ++ (openEvents c (lv m) st st' ++ (if sg then [.read (readLevel l)] else []) ++ closeEvents c st'')) where
  shape := by
    rw [List.map_append, h.shape, List.range_succ, List.map_append (l₁ := List.range m), List.flatMap_append]
    congr 1
    simp only [List.map_cons, List.map_nil, List.flatMap_cons, List.flatMap_nil, List.append_nil]
    unfold bitTrace openEvents closeEvents
    cases c.doutP <;> cases c.clkP <;> cases sg <;> simp [Event.unanswered]
  reads := by
    simp only [readResults_append, readResults_open, readResults_close, List.length_append, h.reads]
    cases sg <;> simp [readResults, Event.readOf, List.filterMap_cons]
  levels := by
    intro r hr
    simp only [readResults_append, readResults_open, readResults_close, List.nil_append, List.append_nil, List.mem_append] at hr
    rcases hr with hr | hr
    · exact h.levels r hr
    · cases sg
      · simp [readResults] at hr
      · simp [readResults, Event.readOf, List.filterMap_cons] at hr
        subst hr; cases l <;> rfl
  sclk := by
    have hread : ∀ r, recordAfter .sclk r (if sg then [Event.read (readLevel l)] else []) = r := by intro r; cases sg <;> rfl
    by_cases hk : c.clkP = true
    · rw [if_pos ⟨hk, by omega⟩]
      refine ⟨st'', ?_, ?_⟩
      · rw [driveStatuses_append, driveStatuses_append, (sclk_close c st'' .unknown hk).1]; simp
      · rw [recordAfter_append, recordAfter_append, (sclk_close c st'' _ hk).2]
    · rw [if_neg (fun h => hk h.1)]
      simp only [Bool.not_eq_true] at hk
      have := h.sclk
      rw [if_neg (fun h => by simp [hk] at h)] at this
      rw [recordAfter_append, recordAfter_append, recordAfter_append, this, (sclk_none c (lv m) st st' sc hk).1, hread, (sclk_none c (lv m) st st' sc hk).2]
  mosi := by
    have hread : ∀ r, recordAfter .mosi r (if sg then [Event.read (readLevel l)] else []) = r := by intro r; cases sg <;> rfl
    have hread' : driveStatuses .mosi (if sg then [Event.read (readLevel l)] else []) = [] := by cases sg <;> rfl
    by_cases hk : c.doutP = true
    · rw [if_pos ⟨hk, by omega⟩]
      refine ⟨st, ?_, ?_⟩
      · rw [driveStatuses_append, driveStatuses_append, driveStatuses_append, (mosi_close c st'' .unknown).1, hread', (mosi_open c (lv m) st st' .unknown hk).1]; simp
      · rw [recordAfter_append, recordAfter_append, recordAfter_append, (mosi_close c st'' _).2, hread, (mosi_open c _ st st' _ hk).2]; rfl
    · rw [if_neg (fun h => hk h.1)]
      simp only [Bool.not_eq_true] at hk
      have := h.mosi
      rw [if_neg (fun h => by simp [hk] at h)] at this
      rw [recordAfter_append, recordAfter_append, recordAfter_append, this, mosi_none c (lv m) st st' mo hk, hread, (mosi_close c st'' _).2]

/-- The memory after reads `rs`. -/
structure Filled (base : Word) (len : Nat) (rs : List ReadResult) (s x : State) : Prop where
  inside : ∀ i w, i < len → memRead (base.toNat + i) s = some w → ∃ w', memRead (base.toNat + i) x = some w' ∧
    ∀ b : BitVec 3, w'.getLsbD b.toNat = sampledBit (rs[streamIndex i b]?) (w.getLsbD b.toNat)
  outside : ∀ a, a < base.toNat ∨ base.toNat + len ≤ a → memRead a x = memRead a s

theorem filled_nil (base len s) {x : State} (h : x.buf = s.buf) : Filled base len [] s x :=
  ⟨fun i w _ h' => ⟨w, by rw [memRead, h]; exact h', fun b => by simp [sampledBit]⟩, fun a _ => by simp [memRead, h]⟩

theorem filled_succ {base len rs s x} (h : Filled base len rs s x) {m : Nat} (hm : rs.length = m) (hlen : m < 8 * len)
    {y : State} {l : Level} {w : Byte} {b : BitVec 3} (hb : b.toNat = 7 - m % 8)
    (hw : memRead (base.toNat + m / 8) x = some w)
    (hy : y.buf = (memWrite (base.toNat + m / 8) (sampledByte l w b) x).buf) :
    Filled base len (rs ++ [readLevel l]) s y where
  inside := by
    intro i w0 hi h0
    obtain ⟨w', hw', hbits⟩ := h.inside i w0 hi h0
    have hread : memRead (base.toNat + i) y = if base.toNat + i = base.toNat + m / 8 then some (sampledByte l w b) else memRead (base.toNat + i) x := by
      have : memRead (base.toNat + i) y = memRead (base.toNat + i) (memWrite (base.toNat + m / 8) (sampledByte l w b) x) := by simp [memRead, hy]
      rw [this, memRead_memWrite]
    have other : ∀ b' : BitVec 3, streamIndex i b' ≠ m → (rs ++ [readLevel l])[streamIndex i b']? = rs[streamIndex i b']? := by
      intro b' hne
      rw [List.getElem?_append]
      split
      · rfl
      · rename_i h1
        have h2 : rs.length ≤ streamIndex i b' := by omega
        rw [List.getElem?_eq_none h2, List.getElem?_eq_none]
        simp; omega
    by_cases hi' : i = m / 8
    · subst hi'
      rw [hw] at hw'; cases hw'
      refine ⟨_, by rw [hread, if_pos rfl], fun b' => ?_⟩
      rw [sampledByte_getLsbD]
      have hb'7 := b'.isLt
      split
      · rename_i hbb; subst hbb
        have : streamIndex (m / 8) b' = rs.length := by unfold streamIndex; omega
        rw [this]; simp
        cases l <;> rfl
      · rename_i hbb
        have : streamIndex (m / 8) b' ≠ m := by
          unfold streamIndex; intro hh; apply hbb; apply BitVec.eq_of_toNat_eq; omega
        rw [hbits, other b' this]
    · refine ⟨w', by rw [hread, if_neg (by omega)]; exact hw', fun b' => ?_⟩
      have hb'7 := b'.isLt
      rw [hbits, other b' (by unfold streamIndex; omega)]
  outside := by
    intro a ha
    have : memRead a y = memRead a (memWrite (base.toNat + m / 8) (sampledByte l w b) x) := by simp [memRead, hy]
    rw [this, memRead_memWrite, if_neg (by omega)]
    exact h.outside a ha

/-- Adding a failure at the end changes nothing. -/
theorem filled_fail {base len rs s x} (h : Filled base len rs s x) (e : PinError) {y : State} (hy : y.buf = x.buf) :
    Filled base len (rs ++ [.fail e]) s y where
  inside := by
    intro i w hi hw
    obtain ⟨w', h1, h2⟩ := h.inside i w hi hw
    refine ⟨w', by rw [memRead, hy]; exact h1, fun b => ?_⟩
    rw [h2]
    rcases Nat.lt_trichotomy (streamIndex i b) rs.length with hlt | heq | hgt
    · rw [List.getElem?_append_left hlt]
    · rw [heq]; simp [sampledBit]
    · rw [List.getElem?_eq_none (by omega), List.getElem?_eq_none (by simp; omega)]
  outside := fun a ha => by rw [memRead, hy]; exact h.outside a ha

/-- `x` is the running command that `s` started, with the first `m` bits done and the events `ev`. -/
structure Progress (s : State) (opr : Opr) (len : Nat) (m : Nat) (x : State) (ev : List Event) : Prop where
  ran : Ran s x ev
  busy : x.busy = true
  errval : x.errval = s.errval
  eopr : x.eng.opr = opr
  ebase : x.eng.base = s.arg
  elen : x.eng.len.toNat = len
  bits : Bits s.cfg (sampleGuard opr s.cfg) (levelAt s.arg s) s.sclkLvl s.mosiLvl m ev
  filled : Filled s.arg len (readResults ev) s x
  keep : sampleGuard opr s.cfg = false → x.buf = s.buf
  count : ev.length = m * bitActionCount opr s.cfg

/-- The cursor stands at bit `m` of the stream. -/
def cursorAt (m : Nat) (x : State) : Prop := x.eng.widx.toNat = m / 8 ∧ x.eng.bidx.toNat = 7 - m % 8

/-- The command failed at bit `m`. -/
structure Failed (s : State) (opr : Opr) (len : Nat) (m : Nat) (u : State) (ev : List Event) : Prop where
  ran : Ran s u ev
  busy : u.busy = false
  result : u.result = .readFail
  phase : u.eng.phase = .idle
  sg : sampleGuard opr s.cfg = true
  ends : ∃ e evm st st', ev = evm ++ openEvents s.cfg (levelAt s.arg s m) st st' ++ [.read (.fail e)] ∧ u.errval = errvalOf e ∧
    Bits s.cfg (sampleGuard opr s.cfg) (levelAt s.arg s) s.sclkLvl s.mosiLvl m evm
  filled : Filled s.arg len (readResults ev) s u
  count : ev.length = m * bitActionCount opr s.cfg + (s.cfg.doutP.toNat + s.cfg.clkP.toNat * (1 + s.cfg.delay.toNat) + 1)

theorem open_length (c l st st') : (openEvents c l st st').length = c.doutP.toNat + c.clkP.toNat * (1 + c.delay.toNat) := by
  unfold openEvents; cases c.doutP <;> cases c.clkP <;> simp <;> omega

theorem close_length (c st) : (closeEvents c st).length = c.clkP.toNat * (1 + c.delay.toNat) := by
  unfold closeEvents; cases c.clkP <;> simp <;> omega

theorem bit_count (c : BusConfig) (opr : Opr) : bitActionCount opr c = c.doutP.toNat + c.clkP.toNat * (1 + c.delay.toNat) + (sampleGuard opr c).toNat + c.clkP.toNat * (1 + c.delay.toNat) := by
  rw [bitActionCount, show 2 + 2 * c.delay.toNat = (1 + c.delay.toNat) + (1 + c.delay.toNat) by omega, Nat.mul_add]
  omega

theorem progress_bit {s x : State} {opr : Opr} {len m : Nat} {ev : List Event} (h : Progress s opr len m x ev) (hc : cursorAt m x)
    (hlt : m < 8 * len) (hw : s.cfg.doutP = true ∨ sampleGuard opr s.cfg = true → RangeWritten s.arg len s) :
    (∃ y ev', RunsTo (bitActionCount opr s.cfg) (goto (firstDrive opr s.cfg) x) (endBit y) ∧ Progress s opr len (m + 1) y ev' ∧ cursorAt m y) ∨
    (∃ u ev', RunsTo (s.cfg.doutP.toNat + s.cfg.clkP.toNat * (1 + s.cfg.delay.toNat) + 1) (goto (firstDrive opr s.cfg) x) u ∧ Failed s opr len m u ev') := by
  have hxc := h.ran.cfg
  have ho := h.eopr
  have ha : cursorAddress x = s.arg.toNat + m / 8 := by
    unfold cursorAddress wordAddress; rw [h.ebase, hc.1]
  have hi : m / 8 < len := by omega
  -- the current byte
  have hbyte : ∀ w0, memRead (s.arg.toNat + m / 8) s = some w0 → ∃ w, memRead (cursorAddress x) x = some w ∧ w.getLsbD (7 - m % 8) = w0.getLsbD (7 - m % 8) := by
    intro w0 h0
    obtain ⟨w', h1, h2⟩ := h.filled.inside _ _ hi h0
    refine ⟨w', by rw [ha]; exact h1, ?_⟩
    have := h2 x.eng.bidx
    rw [hc.2] at this
    rw [this]
    have : (readResults ev)[streamIndex (m / 8) x.eng.bidx]? = none := by
      rw [List.getElem?_eq_none]
      rw [h.bits.reads]; unfold streamIndex; rw [hc.2]; split <;> omega
    rw [this]; rfl
  have hlv : s.cfg.doutP = true ∨ sampleGuard opr s.cfg = true → bitLevel (cursorBit x) = levelAt s.arg s m := by
    intro hh
    obtain ⟨w0, hw0⟩ := Option.isSome_iff_exists.1 (hw hh _ hi)
    obtain ⟨w, h1, h2⟩ := hbyte w0 hw0
    unfold cursorBit levelAt wordAt
    rw [h1, hw0, hc.2]; simp [h2]
  have hopen : ∀ st st', openEvents s.cfg (bitLevel (cursorBit x)) st st' = openEvents s.cfg (levelAt s.arg s m) st st' := by
    intro st st'
    by_cases hd : s.cfg.doutP = true
    · rw [hlv (.inl hd)]
    · unfold openEvents; rw [if_neg hd, if_neg hd]
  rcases bit_segment h.ran.quiet h.busy (by
      rw [hxc, ho]; intro hh
      obtain ⟨w0, hw0⟩ := Option.isSome_iff_exists.1 (hw hh _ hi)
      obtain ⟨w, h1, h2⟩ := hbyte w0 hw0
      rw [h1]; rfl) with ⟨y, st, st', st'', l, hr, hs, hbuf⟩ | ⟨u, st, st', e, hr, hsg, hran, hbuf, hb, hres, herr, hph⟩
  · left
    rw [hxc, ho] at hr hs hbuf
    rw [hopen] at hs
    have hbits := bits_succ h.bits st st' st'' l
    refine ⟨y, _, hr, ⟨ran_trans h.ran hs.ran, hs.busy.trans h.busy, hs.errval.trans h.errval, hs.cursor.1.trans ho, hs.cursor.2.1.trans h.ebase, by rw [hs.cursor.2.2.1]; exact h.elen, hbits, ?_, ?_, ?_⟩, ?_, ?_⟩
    · have e1 : readResults (ev ++ (openEvents s.cfg (levelAt s.arg s m) st st' ++ (if sampleGuard opr s.cfg then [.read (readLevel l)] else []) ++ closeEvents s.cfg st'')) = readResults ev ++ (if sampleGuard opr s.cfg then [readLevel l] else []) := by
        rw [readResults_append, readResults_append, readResults_append, readResults_open, readResults_close]
        cases sampleGuard opr s.cfg <;> simp [readResults, Event.readOf]
      rw [e1]
      by_cases hg : sampleGuard opr s.cfg = true
      · rw [if_pos hg]
        rw [if_pos hg] at hbuf
        obtain ⟨w0, hw0⟩ := Option.isSome_iff_exists.1 (hw (.inr hg) _ hi)
        obtain ⟨w, h1, h2⟩ := hbyte w0 hw0
        rw [h1] at hbuf
        rw [ha] at hbuf h1
        exact filled_succ h.filled (by rw [h.bits.reads, if_pos hg]) hlt hc.2 h1 hbuf
      · rw [if_neg hg] at hbuf ⊢
        rw [List.append_nil]
        exact ⟨fun i w hi hw => by
          obtain ⟨w', h1, h2⟩ := h.filled.inside i w hi hw
          exact ⟨w', by rw [memRead, hbuf]; exact h1, h2⟩, fun a ha => by rw [memRead, hbuf]; exact h.filled.outside a ha⟩
    · intro hg
      rw [if_neg (by simp [hg])] at hbuf
      rw [hbuf]; exact h.keep hg
    · rw [List.length_append, List.length_append, List.length_append, h.count, open_length, close_length, Nat.add_mul, Nat.one_mul, bit_count s.cfg opr]
      cases sampleGuard opr s.cfg <;> simp <;> omega
    · rw [hs.cursor.2.2.2.1]; exact hc.1
    · rw [hs.cursor.2.2.2.2]; exact hc.2
  · right
    rw [hxc, ho] at hr
    rw [ho, hxc] at hsg
    rw [hxc, hopen] at hran
    refine ⟨u, _, hr, ran_trans h.ran hran, hb, hres, hph, hsg, ⟨e, ev, st, st', by simp, herr, h.bits⟩, ?_, ?_⟩
    · have : readResults (ev ++ (openEvents s.cfg (levelAt s.arg s m) st st' ++ [.read (.fail e)])) = readResults ev ++ [.fail e] := by
        rw [readResults_append, readResults_append, readResults_open]; rfl
      rw [this]
      exact filled_fail h.filled e hbuf
    · rw [List.length_append, List.length_append, h.count, open_length]; simp

theorem endBit_progress {s y : State} {opr : Opr} {len m : Nat} {ev : List Event} (h : Progress s opr len (m + 1) y ev) (hc : cursorAt m y)
    (hlt : m < 8 * len) (hn : bitActionCount opr s.cfg ≠ 0) (hop : opr ≠ .new) :
    (m + 1 = 8 * len ∧ endBit y = completeOk y) ∨
    (m + 1 < 8 * len ∧ ∃ x, endBit y = goto (firstDrive opr s.cfg) x ∧ Progress s opr len (m + 1) x ev ∧ cursorAt (m + 1) x) := by
  have hsp : firstDrive opr s.cfg = some (startPhase opr s.cfg) := by
    have hn' := hn
    rw [bit_count] at hn'
    unfold startPhase firstDrive firstAssert firstSample firstDeassert
    by_cases hd : s.cfg.doutP = true
    · simp [hd]
    · by_cases hk : s.cfg.clkP = true
      · simp [hd, hk]
      · by_cases hg : sampleGuard opr s.cfg = true
        · simp [hd, hk, hg]
        · simp [hd, hk, hg] at hn'
  have hbi : y.eng.bidx ≠ 0 ↔ m % 8 ≠ 7 := by
    have : y.eng.bidx = 0 ↔ y.eng.bidx.toNat = 0 := ⟨fun h => by rw [h]; rfl, fun h => BitVec.eq_of_toNat_eq h⟩
    rw [ne_eq, this, hc.2]; omega
  unfold endBit
  by_cases hb : y.eng.bidx ≠ 0
  · right
    rw [if_pos hb]
    refine ⟨by have := hbi.1 hb; omega, { y with eng := { y.eng with bidx := y.eng.bidx - 1 } }, ?_, ⟨⟨h.ran.quiet, h.ran.cfg, h.ran.arg, h.ran.bufRdata, h.ran.regRdata, h.ran.trace, h.ran.env, h.ran.sclk, h.ran.mosi⟩, h.busy, h.errval, h.eopr, h.ebase, h.elen, h.bits, ⟨h.filled.inside, h.filled.outside⟩, h.keep, h.count⟩, ?_, ?_⟩
    · rw [hsp, h.eopr, h.ran.cfg]; rfl
    · have := hbi.1 hb; have := hc.1; show y.eng.widx.toNat = _; omega
    · have := hbi.1 hb; have h2 := hc.2; show (y.eng.bidx - 1).toNat = _; rw [BitVec.toNat_sub, h2]; simp; omega
  · rw [if_neg hb]
    have hm7 : m % 8 = 7 := by by_contra hh; exact hb (hbi.2 hh)
    by_cases hl : y.eng.widx.toNat + 1 < y.eng.len.toNat
    · right
      rw [if_pos hl]
      rw [hc.1, h.elen] at hl
      refine ⟨by omega, { y with eng := { y.eng with widx := y.eng.widx + 1, bidx := 7 } }, ?_, ⟨⟨h.ran.quiet, h.ran.cfg, h.ran.arg, h.ran.bufRdata, h.ran.regRdata, h.ran.trace, h.ran.env, h.ran.sclk, h.ran.mosi⟩, h.busy, h.errval, h.eopr, h.ebase, h.elen, h.bits, ⟨h.filled.inside, h.filled.outside⟩, h.keep, h.count⟩, ?_, ?_⟩
      · rw [hsp, h.eopr, h.ran.cfg]; rfl
      · show (y.eng.widx + 1).toNat = _
        have := y.eng.len.isLt
        rw [h.elen] at this
        rw [BitVec.toNat_add, hc.1]; simp; omega
      · show (7#3).toNat = _; simp; omega
    · left
      rw [if_neg hl]
      rw [hc.1, h.elen] at hl
      exact ⟨by omega, rfl⟩

/-- The whole stream. -/
theorem stream_run {s : State} {opr : Opr} {len : Nat} (hn : bitActionCount opr s.cfg ≠ 0) (hop : opr ≠ .new)
    (hw : s.cfg.doutP = true ∨ sampleGuard opr s.cfg = true → RangeWritten s.arg len s) (d : Nat) :
    ∀ m x ev, Progress s opr len m x ev → cursorAt m x → m + d + 1 = 8 * len →
    (∃ y ev', RunsTo ((d + 1) * bitActionCount opr s.cfg) (goto (firstDrive opr s.cfg) x) (completeOk y) ∧ Progress s opr len (8 * len) y ev') ∨
    (∃ u ev' m', m ≤ m' ∧ m' < 8 * len ∧ RunsTo ((m' - m) * bitActionCount opr s.cfg + (s.cfg.doutP.toNat + s.cfg.clkP.toNat * (1 + s.cfg.delay.toNat) + 1)) (goto (firstDrive opr s.cfg) x) u ∧ Failed s opr len m' u ev') := by
  induction d with
  | zero =>
    intro m x ev hp hc hm
    rcases progress_bit hp hc (by omega) hw with ⟨y, ev', hr, hp', hc'⟩ | ⟨u, ev', hr, hf⟩
    · rcases endBit_progress hp' hc' (by omega) hn hop with ⟨h1, h2⟩ | ⟨h1, _⟩
      · left; rw [h2] at hr; exact ⟨y, ev', by simpa using hr, by rw [← h1]; exact hp'⟩
      · omega
    · right; exact ⟨u, ev', m, le_refl _, by omega, by simpa using hr, hf⟩
  | succ d ih =>
    intro m x ev hp hc hm
    rcases progress_bit hp hc (by omega) hw with ⟨y, ev', hr, hp', hc'⟩ | ⟨u, ev', hr, hf⟩
    · rcases endBit_progress hp' hc' (by omega) hn hop with ⟨h1, h2⟩ | ⟨h1, z, hz, hp2, hc2⟩
      · omega
      · rw [hz] at hr
        rcases ih (m + 1) z ev' hp2 hc2 (by omega) with ⟨y2, ev2, hr2, hp3⟩ | ⟨u, ev2, m', h1, h2, hr2, hf⟩
        · left
          refine ⟨y2, ev2, ?_, hp3⟩
          rw [Nat.add_mul (d + 1) 1, Nat.one_mul, Nat.add_comm]
          exact runsTo_trans hr hr2
        · right
          refine ⟨u, ev2, m', by omega, h2, ?_, hf⟩
          have e : m' - m = (m' - (m + 1)) + 1 := by omega
          rw [e, Nat.add_mul, Nat.one_mul, Nat.add_comm _ (bitActionCount opr s.cfg), Nat.add_assoc]
          exact runsTo_trans hr hr2
    · right; exact ⟨u, ev', m, le_refl _, by omega, by simpa using hr, hf⟩

structure Completed (s : State) (opr : Opr) (len : Nat) (u : State) (ev : List Event) : Prop where
  ran : Ran s u ev
  busy : u.busy = false
  result : u.result = .ok
  errval : u.errval = s.errval
  bits : Bits s.cfg (sampleGuard opr s.cfg) (levelAt s.arg s) s.sclkLvl s.mosiLvl (8 * len) ev
  filled : Filled s.arg len (readResults ev) s u
  keep : sampleGuard opr s.cfg = false → u.buf = s.buf
  count : ev.length = 8 * len * bitActionCount opr s.cfg

theorem bits_empty (c : BusConfig) (opr : Opr) (lv sc mo) (m : Nat) (h : m = 0 ∨ bitActionCount opr c = 0) : Bits c (sampleGuard opr c) lv sc mo m [] := by
  by_cases hm : m = 0
  · subst hm; exact bits_zero ..
  · have hn : bitActionCount opr c = 0 := by omega
    rw [bit_count] at hn
    have h1 : c.doutP = false := by cases h : c.doutP <;> simp [h] at hn ⊢
    have h2 : c.clkP = false := by cases h : c.clkP <;> simp [h] at hn ⊢
    have h3 : sampleGuard opr c = false := by cases h : sampleGuard opr c <;> simp [h] at hn ⊢
    refine ⟨?_, by simp [h3, readResults], by simp [readResults], by simp [h2, recordAfter], by simp [h1, recordAfter]⟩
    have : bitTrace c (sampleGuard opr c) = fun _ => [] := by funext l; simp [bitTrace, h1, h2, h3]
    rw [this]; simp

theorem command_run {s : State} {opr : Opr} {len : Nat} (hop : opr ≠ .new) (h : Ready opr len s) :
    ∃ k u ev, Finishes k (acceptStream opr (lenOperand len) s) u ∧
      ((k = 8 * len * bitActionCount opr s.cfg ∧ Completed s opr len u ev) ∨
       ∃ m, m < 8 * len ∧ k = m * bitActionCount opr s.cfg + (s.cfg.doutP.toNat + s.cfg.clkP.toNat * (1 + s.cfg.delay.toNat) + 1) ∧
         Failed s opr len m u ev) := by
  have hlf := h.lenFits
  have hl : (lenOperand len).toNat = len := by simp [lenOperand]; omega
  have hacc : acceptStream opr (lenOperand len) s = startStream opr (lenOperand len) s := by
    unfold acceptStream stateChecks rangeFits baseOperand
    rw [hl]; simp [h.configured, h.fits]
  rw [hacc]
  have hl0 : lenOperand len = 0#16 ↔ len = 0 := by
    constructor
    · intro h0; rw [← hl, h0]; rfl
    · intro h0; exact BitVec.eq_of_toNat_eq (by rw [hl, h0]; rfl)
  have hrange : s.cfg.doutP = true ∨ sampleGuard opr s.cfg = true → RangeWritten s.arg len s := by
    intro hh
    apply h.written
    rcases hh with hh | hh
    · exact .inl hh
    · right; simp [sampleGuard] at hh; exact ⟨hh.1.1, hh.1.2⟩
  by_cases he : streamEmpty opr s.cfg (lenOperand len) = true
  · have he' : len = 0 ∨ bitActionCount opr s.cfg = 0 := by
      simpa [streamEmpty, hl0] using he
    refine ⟨0, startStream opr (lenOperand len) s, [], ?_, .inl ⟨?_, ?_⟩⟩
    · refine (finishes_iff _ _ _).2 ⟨runsTo_zero _, ?_⟩
      simp [startStream, he, h.idle]
    · rcases he' with h | h <;> simp [h]
    · have e : startStream opr (lenOperand len) s = { s with eng := (startStream opr (lenOperand len) s).eng, result := .ok } := by
        simp [startStream, he]
      rw [e]
      refine ⟨⟨h.quiet, rfl, rfl, rfl, rfl, by simp, rfl, rfl, rfl⟩, h.idle, rfl, rfl, bits_empty _ _ _ _ _ _ (by omega), filled_nil _ _ _ rfl, fun _ => rfl, ?_⟩
      rcases he' with h | h <;> simp [h]
  · have he' : len ≠ 0 ∧ bitActionCount opr s.cfg ≠ 0 := by
      simpa [streamEmpty, hl0] using he
    let x : State := { s with busy := true, result := .none, eng := { s.eng with opr := opr, base := s.arg, len := lenOperand len, widx := 0, bidx := 7 } }
    have hn := he'.2
    have hsp : firstDrive opr s.cfg = some (startPhase opr s.cfg) := by
      have hn' := hn
      rw [bit_count] at hn'
      unfold startPhase firstDrive firstAssert firstSample firstDeassert
      by_cases hd : s.cfg.doutP = true
      · simp [hd]
      · by_cases hk : s.cfg.clkP = true
        · simp [hd, hk]
        · by_cases hg : sampleGuard opr s.cfg = true
          · simp [hd, hk, hg]
          · simp [hd, hk, hg] at hn'
    have e : startStream opr (lenOperand len) s = goto (firstDrive opr s.cfg) x := by
      rw [hsp]; simp [startStream, he]; rfl
    have hp : Progress s opr len 0 x [] := ⟨⟨h.quiet, rfl, rfl, rfl, rfl, by simp [x], rfl, rfl, rfl⟩, rfl, rfl, rfl, rfl, hl, bits_zero .., filled_nil _ _ _ rfl, fun _ => rfl, by simp⟩
    rw [e]
    rcases stream_run he'.2 hop hrange (8 * len - 1) 0 x [] hp ⟨rfl, rfl⟩ (by omega) with ⟨y, ev, hr, hy⟩ | ⟨u, ev, m, _, hm, hr, hf⟩
    · refine ⟨_, completeOk y, ev, (finishes_iff _ _ _).2 ⟨hr, rfl⟩, .inl ⟨by rw [show 8 * len - 1 + 1 = 8 * len by omega], ?_⟩⟩
      exact ⟨⟨hy.ran.quiet, hy.ran.cfg, hy.ran.arg, hy.ran.bufRdata, hy.ran.regRdata, hy.ran.trace, hy.ran.env, hy.ran.sclk, hy.ran.mosi⟩, rfl, rfl, hy.errval, hy.bits, ⟨hy.filled.inside, hy.filled.outside⟩, hy.keep, hy.count⟩
    · exact ⟨_, u, ev, (finishes_iff _ _ _).2 ⟨hr, hf.busy⟩, .inr ⟨m, hm, by simp, hf⟩⟩

theorem write_run {s : State} {len : Nat} (h : Ready .write len s) :
    ∃ t u ev, exec (.write len) s = .next t ∧ Finishes (8 * len * bitActionCount .write s.cfg) t u ∧ Completed s .write len u ev := by
  obtain ⟨k, u, ev, hf, ⟨rfl, hr⟩ | ⟨m, hm, hk, hfail⟩⟩ := command_run (by decide) h
  · exact ⟨_, u, ev, issue_idle h.idle _, hf, hr⟩
  · have := hfail.sg; simp [sampleGuard] at this

theorem transfer_run {s : State} {len : Nat} (h : Ready .transfer len s) :
    ∃ t k u ev, exec (.transfer len) s = .next t ∧ Finishes k t u ∧ 
      ((k = 8 * len * bitActionCount .transfer s.cfg ∧ Completed s .transfer len u ev) ∨
       ∃ m, m < 8 * len ∧ k = m * bitActionCount .transfer s.cfg + (s.cfg.doutP.toNat + s.cfg.clkP.toNat * (1 + s.cfg.delay.toNat) + 1) ∧
         Failed s .transfer len m u ev) := by
  obtain ⟨k, u, ev, hf, hr⟩ := command_run (by decide) h
  exact ⟨_, k, u, ev, issue_idle h.idle _, hf, hr⟩

end Sys2Proof.Machine
end

