-- ==== Sys2Proof/Tests/Slice0.lean ====
section
/-! SUPPORT. The model's own tests: the well-formedness check, words written out from 30_encoding.md, single ticks from
95_test_vectors.md, and for each statement with hypotheses a witness that meets them. -/

namespace Sys2Proof.Tests

open Sys2Proof.Machine

/-! ### WellFormed -/

theorem test_wf_write_too_long : (Instr.write 65536).wf = false := by decide
theorem test_wf_transfer_too_long : (Instr.transfer 65536).wf = false := by decide
theorem test_wf_longest : (Instr.write 65535).wf = true ∧ (Instr.transfer 65535).wf = true := by decide

/-! ### Words bit by bit: LEN, reserved, CPOL, DOUT_P, DIN_P, CLK_P, OP (30_encoding.md R49, R57) -/

theorem test_decode_new_all :
    decode (0b0000000000000000#16 ++ 0b0000000000#10 ++ 0b1#1 ++ 0b1#1 ++ 0b1#1 ++ 0b1#1 ++ 0b00#2)
      = .ok (.new true true true .idleHigh) := by decide
theorem test_decode_new_clock_only :
    decode (0b0000000000000000#16 ++ 0b0000000000#10 ++ 0b0#1 ++ 0b0#1 ++ 0b0#1 ++ 0b1#1 ++ 0b00#2)
      = .ok (.new true false false .idleLow) := by decide
theorem test_decode_new_din_only :
    decode (0b0000000000000000#16 ++ 0b0000000000#10 ++ 0b0#1 ++ 0b0#1 ++ 0b1#1 ++ 0b0#1 ++ 0b00#2)
      = .ok (.new false true false .idleLow) := by decide
theorem test_decode_write :
    decode (0b0000000000000011#16 ++ 0b00000000000000#14 ++ 0b01#2) = .ok (.write 3) := by decide
theorem test_decode_transfer :
    decode (0b1000000000000000#16 ++ 0b00000000000000#14 ++ 0b10#2) = .ok (.transfer 32768) := by decide
theorem test_decode_illegal :
    decode 0x00000003#32 = .error .reservedOp ∧ decode 0x00000040#32 = .error .reservedBits ∧
    decode 0x00010000#32 = .error .newWithLen ∧ decode 0x00010005#32 = .error .configBits ∧
    decode 0x00018002#32 = .error .reservedBits := by decide
theorem test_table_words :
    decodeTableWord 32 0x3C = some (.new true true true .idleHigh) ∧ decodeTableWord 32 0x10001 = some (.write 1) ∧
    decodeTableWord 32 0x20002 = some (.transfer 2) ∧ decodeTableWord 32 3 = none := by decide

/-! ### Small states -/

/-- A block with all lines, the byte 0xB0 at address 0, and ARG = 0. -/
def idleBus : State :=
  { State.reset with
    cfg := { clkP := true, dinP := true, doutP := true, cpol := .idleLow, delay := 2, configured := true }
    buf := [(0, 0xB0#8)] }

/-- The same block in a command on the one word at address 0, before the action of `p`. -/
def runningBus (opr : Opr) (p : Phase) (env : Env) : State :=
  { idleBus with
    busy := true
    sclkLvl := .known .high
    env := env
    eng := { opr := opr, base := 0, len := 1, widx := 0, bidx := 7, phase := p, dcnt := 1 } }

/-- The same block before a SAMPLE that reads `r`. -/
def samplingBus (r : ReadResult) : State := runningBus .transfer .sample (.oracle [] [r])

/-- `s` with one tick of the host. -/
def withHost (h : HostTick) (s : State) : State := { s with hostIn := [h] }

theorem one_le_bufSize : 1 ≤ Config.bufSize := Nat.le_add_left _ _
theorem bufSize_le : Config.bufSize ≤ 4294967296 := by
  have := Config.bufSizePred.isLt
  unfold Config.bufSize; omega

/-! ### Single ticks -/

/-- 00_scope.md R13's table. -/
theorem test_clock_levels : idleLevel .idleLow = .low ∧ idleLevel .idleHigh = .high ∧
    activeLevel .idleLow = .high ∧ activeLevel .idleHigh = .low := by decide

/-- A register read of an idle block leaves RESULT and ARG (20_memory.md R39). -/
theorem test_read_keeps_state :
    ∃ t, step { withHost { rst := false, reg := .read .status, buf := .idle } idleBus with result := .ok, arg := 7 } = .next t ∧
      t.regRdata = 0x00000006#32 ∧ t.result = .ok ∧ t.arg = 7 := ⟨_, rfl, by decide, rfl, rfl⟩

/-- 40_construction.md R58's example: `new clk=1, din=1, dout=1, cpol=IdleHigh, delay=5`. -/
theorem test_new_latches : ∃ t, exec (.new true true true .idleHigh) { State.reset with arg := 5 } = .next t ∧
    regRead .cfg t = 0x0000003C#32 ∧ regRead .delay t = 5 ∧ t.busy = true := ⟨_, rfl, by decide, by decide, rfl⟩

/-- The INIT_CLOCK tick of the same example: the trace and STATUS = 0x00000006. -/
theorem test_new_init_clock :
    ∃ t, step { runningBus .new .initClock (.oracle [.ok] []) with
        cfg := { clkP := true, dinP := true, doutP := true, cpol := .idleHigh, delay := 5, configured := true } } = .next t ∧
      t.trace = [.drive .sclk .high .ok] ∧ regRead .status t = 0x00000006#32 := ⟨_, rfl, by decide, by decide⟩

/-- 10110000 drives bit 7 = 1 first (42_write.md, 20_memory.md R34). -/
theorem test_write_drives_msb : ∃ t, step (runningBus .write .driveData (.oracle [.ok] [])) = .next t ∧
    t.trace = [.drive .mosi .high .ok] ∧ t.eng.phase = .assertClock := ⟨_, rfl, by decide, rfl⟩

/-- A WRITE has no SAMPLE: its last active wait goes to DEASSERT_CLOCK (41_bit_engine.md R64). -/
theorem test_write_skips_sample : ∃ t, step (runningBus .write .activeWait (.oracle [] [])) = .next t ∧
    t.trace = [.spin] ∧ t.eng.phase = .deassertClock := ⟨_, rfl, by decide, rfl⟩

/-- In a wait tick sclk_o keeps its level and no strobe is asserted (10_state.md R28). -/
theorem test_wait_keeps_output :
    ∃ t, step { runningBus .write .activeWait (.oracle [] []) with
        pins := { sclkO := .known .high, sclkStb := true, mosiO := .known .low, mosiStb := false, misoRd := false } } = .next t ∧
      t.pins = { sclkO := .known .high, sclkStb := false, mosiO := .known .low, mosiStb := false, misoRd := false } :=
  ⟨_, rfl, rfl⟩

/-- A Low sampled into bit 7 of 0xB0 leaves 0x30 (41_bit_engine.md R69). -/
theorem test_transfer_clears_bit : ∃ t, step (samplingBus .low) = .next t ∧ memRead 0 t = some 0x30#8 ∧
    t.eng.phase = .deassertClock := ⟨_, rfl, by decide, rfl⟩

/-- A failing read leaves the buffer and the clock (60_exceptions.md R86, R88). -/
theorem test_transfer_read_fail : ∃ t, step (samplingBus (.fail ⟨7⟩)) = .next t ∧ t.result = .readFail ∧
    memRead 0 t = some 0xB0#8 ∧ t.sclkLvl = .known .high := ⟨_, rfl, rfl, by decide, rfl⟩

/-! ### Witnesses: the hypotheses of the statements can be met -/

theorem witness_DecodeEncodeRoundTrip : (Instr.write 65535).wf = true ∧ (Instr.transfer 0).wf = true ∧
    (Instr.new true false true .idleHigh).wf = true := by decide
theorem witness_EncodeDecodeRoundTrip : decode 0xFFFF0002#32 = .ok (.transfer 65535) ∧
    decode 0x00000001#32 = .ok (.write 0) ∧ decode 0x0000003C#32 = .ok (.new true true true .idleHigh) := by decide
theorem witness_IllegalWordsExactly : State.reset.busy = false ∧ decode 0xFFFFFFFF#32 = .error .reservedOp ∧
    decode 0x00008001#32 = .error .reservedBits ∧ decode 0x80000000#32 = .error .newWithLen ∧
    decode 0x00000022#32 = .error .configBits := by decide
theorem witness_StepRunsDecodedCommand : resetTick (State.reset.withFetchWord 32 0x1C) = false ∧
    cmdWrite (hostNow (State.reset.withFetchWord 32 0x1C)).reg = some 0x1C#32 ∧
    decode 0x1C#32 = .ok (.new true true true .idleLow) := by decide
/-- A word that decodes to Illegal, in an idle block. -/
theorem witness_StepRunsDecodedCommand_illegal : resetTick (withHost (cmdTick 3) idleBus) = false ∧
    cmdWrite (hostNow (withHost (cmdTick 3) idleBus)).reg = some 3#32 ∧ decode 3#32 = .error .reservedOp ∧
    (withHost (cmdTick 3) idleBus).busy = false := by decide
theorem witness_PlacedWordRunsNext : (Instr.write 1).wf = true := by decide
theorem witness_TickWithoutCommand : resetTick State.reset = false ∧ cmdWrite (hostNow State.reset).reg = none := by decide
theorem witness_TickWithoutCommand_in_range :
    resetTick (withHost { rst := false, reg := .idle, buf := .write 0 1 } (samplingBus .low)) = false ∧
    cmdWrite (hostNow (withHost { rst := false, reg := .idle, buf := .write 0 1 } (samplingBus .low))).reg = none ∧
    writesRunningRange (.write 0 1) (samplingBus .low) = true ∧
    writesRunningRange (.write 1 1) (samplingBus .low) = false := by decide
theorem witness_HostWritesIssueCommand : (Instr.transfer 2).wf = true ∧ State.reset.busy = false ∧
    State.reset.rstLast = false ∧
    { State.reset with hostIn := hostIssue (.transfer 2) 4 }.hostIn = hostIssue (.transfer 2) 4 := by decide
theorem witness_RejectionChangesOnlyResult : State.reset.busy = false ∧ decode 0x3#32 = .error .reservedOp ∧
    decode 0x10001#32 = .ok (.write 1) ∧ State.reset.cfg.configured = false := by decide
/-- The third condition at its boundary for the largest buffer, and a word under none of them. -/
theorem witness_RejectionChangesOnlyResult_range : idleBus.cfg.configured = true ∧
    Config.bufSize < (0xFFFFFFFF#32).toNat + 2 ∧ ¬ Config.bufSize < idleBus.arg.toNat + 1 := by
  have h := one_le_bufSize
  have h' := bufSize_le
  have e : (0xFFFFFFFF#32).toNat = 4294967295 := by decide
  have e' : idleBus.arg.toNat = 0 := by decide
  exact ⟨rfl, by omega, by omega⟩
theorem witness_UnconfiguredStreamsAreIllegal : State.reset.busy = false ∧ State.reset.cfg.configured = false := by decide
theorem witness_CmdWriteWhileBusyRefused : (withHost (cmdTick 3) (samplingBus .low)).busy = true ∧
    resetTick (withHost (cmdTick 3) (samplingBus .low)) = false ∧
    cmdWrite (hostNow (withHost (cmdTick 3) (samplingBus .low))).reg = some 3#32 := by decide
theorem witness_AcceptedStreamStarts : idleBus.busy = false ∧ idleBus.cfg.configured = true ∧
    idleBus.arg.toNat + 0 ≤ Config.bufSize ∧ idleBus.arg.toNat + 1 ≤ Config.bufSize :=
  ⟨rfl, rfl, Nat.zero_le _, one_le_bufSize⟩
theorem witness_NewLatchesConfiguration : State.reset.busy = false := by decide
theorem witness_NewDrivesClockIdleAndEnds : idleBus.busy = false ∧ Quiet idleBus := ⟨rfl, rfl, rfl⟩
theorem witness_CfgReadsBackNew : State.reset.busy = false := by decide
theorem witness_RegisterReadReturnsContent :
    ∀ r, (hostNow (withHost { rst := false, reg := .read r, buf := .idle } (samplingBus .low))).reg = .read r ∧
      resetTick (withHost { rst := false, reg := .read r, buf := .idle } (samplingBus .low)) = false ∧
      ∃ t, step (withHost { rst := false, reg := .read r, buf := .idle } (samplingBus .low)) = .next t := by
  intro r; cases r <;> exact ⟨rfl, rfl, _, rfl⟩
/-- A read in an idle block, and the tick of a running one without the read. -/
theorem witness_RegisterReadReturnsContent_idle :
    (withHost { rst := false, reg := .read .status, buf := .idle } idleBus).busy = false ∧
    resetTick (withHost { rst := false, reg := .read .status, buf := .idle } idleBus) = false ∧
    hostNow (withHost { rst := false, reg := .read .status, buf := .idle } idleBus) =
      { rst := false, reg := .read .status, buf := .idle } ∧ (samplingBus .low).rstLast = false ∧
    ∃ t, step { samplingBus .low with hostIn := { rst := false, reg := .idle, buf := .idle } :: [] } = .next t :=
  ⟨rfl, rfl, rfl, rfl, _, rfl⟩
theorem witness_RegisterWriteOfIdleBlock :
    ∀ r : RegName, (withHost { rst := false, reg := .write r 5, buf := .idle } idleBus).busy = false ∧
      resetTick (withHost { rst := false, reg := .write r 5, buf := .idle } idleBus) = false ∧
      hostNow (withHost { rst := false, reg := .write r 5, buf := .idle } idleBus) =
        { rst := false, reg := .write r 5, buf := .idle } := by
  intro r; cases r <;> decide
theorem witness_HostByteWriteStores :
    (withHost { rst := false, reg := .idle, buf := .write 0 7 } idleBus).busy = false ∧
    resetTick (withHost { rst := false, reg := .idle, buf := .write 0 7 } idleBus) = false ∧
    hostNow (withHost { rst := false, reg := .idle, buf := .write 0 7 } idleBus) =
      { rst := false, reg := .idle, buf := .write 0 7 } ∧ (0#32).toNat < Config.bufSize :=
  ⟨rfl, rfl, rfl, one_le_bufSize⟩
/-- A byte outside a running range, a byte inside it, and a byte nothing has written. -/
theorem witness_HostByteReadReturns :
    (∃ t, step (withHost { rst := false, reg := .idle, buf := .read 0 } idleBus) = .next t) ∧
    memRead 0 idleBus = some 0xB0#8 ∧ streamRunning idleBus = false ∧
    (∃ t, step (withHost { rst := false, reg := .idle, buf := .read 0 } (samplingBus .low)) = .next t) ∧
    streamRunning (samplingBus .low) = true ∧ (samplingBus .low).eng.base.toNat ≤ 0 ∧
    0 < (samplingBus .low).eng.base.toNat + (samplingBus .low).eng.len.toNat ∧
    memRead 0 State.reset = none ∧ (0#32).toNat < Config.bufSize :=
  ⟨⟨_, rfl⟩, by decide, by decide, ⟨_, rfl⟩, by decide, by decide, by decide, by decide, one_le_bufSize⟩
/-- An address outside BUF, for every buffer that leaves one. -/
theorem witness_HostByteReadReturns_outside : Config.bufSize ≠ 4294967296 → Config.bufSize ≤ (0xFFFFFFFF#32).toNat := by
  have h := bufSize_le
  have e : (0xFFFFFFFF#32).toNat = 4294967295 := by decide
  omega
/-- A read in an idle block, and the ticks of a running one and of a NEW without the read. -/
theorem witness_HostByteReadReturns_idle :
    (withHost { rst := false, reg := .idle, buf := .read 0 } idleBus).busy = false ∧
    resetTick (withHost { rst := false, reg := .idle, buf := .read 0 } idleBus) = false ∧
    hostNow (withHost { rst := false, reg := .idle, buf := .read 0 } idleBus) =
      { rst := false, reg := .idle, buf := .read 0 } ∧ (samplingBus .low).rstLast = false ∧ State.reset.rstLast = false ∧
    (∃ t, step { samplingBus .low with hostIn := { rst := false, reg := .idle, buf := .idle } :: [] } = .next t) ∧
    ∃ t, step { State.reset with hostIn := { rst := false, reg := .write .cmd 0x1C, buf := .idle } :: [] } = .next t :=
  ⟨rfl, rfl, rfl, rfl, rfl, ⟨_, rfl⟩, _, rfl⟩
theorem wf_idleBus : Memory.wf idleBus.buf = true := by
  simp [Memory.wf, Memory.wfFrom, idleBus, Config.bufSize]
theorem witness_BufferFormIsCanonical : Memory.wf [] = true ∧ Memory.wf [(0, 0xB0#8)] = true :=
  ⟨rfl, wf_idleBus⟩
theorem witness_DriveDataDrivesTheBit : (runningBus .write .driveData .loopback).busy = true ∧
    (runningBus .write .driveData .loopback).eng.phase = .driveData ∧
    memRead ((runningBus .write .driveData .loopback).eng.base.toNat +
      (runningBus .write .driveData .loopback).eng.widx.toNat) (runningBus .write .driveData .loopback) = some 0xB0#8 := by
  decide
theorem witness_ClockActionsDriveAndLoad : ∃ p l, (p = Phase.assertClock ∧ l = activeLevel idleBus.cfg.cpol) ∨
    (p = Phase.deassertClock ∧ l = idleLevel idleBus.cfg.cpol) := ⟨.assertClock, .high, .inl ⟨rfl, rfl⟩⟩
theorem witness_ActiveHalfTakesDelaySpins : (runningBus .transfer .assertClock .loopback).busy = true ∧
    Quiet (runningBus .transfer .assertClock .loopback) ∧
    (runningBus .transfer .assertClock .loopback).cfg.clkP = true ∧
    (runningBus .transfer .assertClock .loopback).eng.phase = .assertClock := ⟨rfl, ⟨rfl, rfl⟩, rfl, rfl⟩
theorem witness_SampleWritesOneBit : ∀ l, (samplingBus (readLevel l)).busy = true ∧
    (samplingBus (readLevel l)).eng.phase = .sample ∧
    memRead ((samplingBus (readLevel l)).eng.base.toNat + (samplingBus (readLevel l)).eng.widx.toNat)
      (samplingBus (readLevel l)) = some 0xB0#8 ∧ misoResult (samplingBus (readLevel l)) = readLevel l := by
  intro l; cases l <;> decide
theorem witness_ReadFailEndsCommand : (samplingBus (.fail ⟨7⟩)).busy = true ∧
    (samplingBus (.fail ⟨7⟩)).eng.phase = .sample ∧ misoResult (samplingBus (.fail ⟨7⟩)) = .fail ⟨7⟩ := by decide
theorem witness_UnwrittenByteFaults :
    memRead 0 { runningBus .write .driveData .loopback with buf := [] } = none ∧
    memRead 0 { samplingBus .low with buf := [] } = none ∧ misoResult { samplingBus .low with buf := [] } = readLevel .low ∧
    memRead 0 { samplingBus (.fail ⟨7⟩) with buf := [] } = none ∧
    misoResult { samplingBus (.fail ⟨7⟩) with buf := [] } = .fail ⟨7⟩ := by decide

theorem idleBus_checks : stateChecks 1 idleBus = true := by
  simp [stateChecks, rangeFits, baseOperand, idleBus, State.reset, Config.bufSize]
/-- A WRITE and a TRANSFER that are accepted and run. -/
theorem witness_SequencerPerformsTheStream : Quiet idleBus ∧ idleBus.busy = false ∧
    (∃ t, exec (.write 1) idleBus = .next t ∧ t.busy = true) ∧
    (∃ t, exec (.transfer 1) idleBus = .next t ∧ t.busy = true) := by
  refine ⟨⟨rfl, rfl⟩, rfl, ⟨_, rfl, ?_⟩, ⟨_, rfl, ?_⟩⟩ <;>
    (unfold acceptStream; rw [show lenOperand 1 = 1 from rfl, idleBus_checks]; rfl)

/-- A ready block, for the empty and for a one-word command, in every environment. -/
theorem ready_idleBus (opr : Opr) (len : Nat) (h : len = 0 ∨ len = 1) (env : Env) : Ready opr len { idleBus with env := env } where
  idle := rfl
  quiet := ⟨rfl, rfl⟩
  lenFits := by omega
  configured := rfl
  fits := by
    have := one_le_bufSize
    show 0 + len ≤ Config.bufSize
    omega
  written := fun _ i hi => by
    have : i = 0 := by omega
    subst this; rfl
theorem witness_WriteShiftsOutTheWords : Ready .write 0 idleBus ∧ Ready .write 1 idleBus :=
  ⟨ready_idleBus _ 0 (.inl rfl) _, ready_idleBus _ 1 (.inr rfl) _⟩
theorem witness_WriteTraceClosedForm : Ready .write 1 idleBus := ready_idleBus _ 1 (.inr rfl) _
theorem witness_WriteFrame : Ready .write 1 idleBus := ready_idleBus _ 1 (.inr rfl) _
theorem witness_WriteLeavesLines : Ready .write 1 idleBus ∧ 0 < 1 ∧ idleBus.cfg.clkP = true ∧ idleBus.cfg.doutP = true :=
  ⟨ready_idleBus _ 1 (.inr rfl) _, by decide, rfl, rfl⟩
theorem witness_TransferEndsOkOrReadFail : Ready .transfer 0 idleBus ∧ Ready .transfer 1 idleBus :=
  ⟨ready_idleBus _ 0 (.inl rfl) _, ready_idleBus _ 1 (.inr rfl) _⟩
theorem witness_TransferFillsTheBuffer : Ready .transfer 1 idleBus ∧ memRead (idleBus.arg.toNat + 0) idleBus = some 0xB0#8 :=
  ⟨ready_idleBus _ 1 (.inr rfl) _, by decide⟩
theorem witness_TransferDrivesInputBits : Ready .transfer 1 idleBus ∧ idleBus.cfg.doutP = true :=
  ⟨ready_idleBus _ 1 (.inr rfl) _, rfl⟩
theorem witness_TransferTraceClosedForm : Ready .transfer 1 idleBus := ready_idleBus _ 1 (.inr rfl) _
theorem witness_TransferFrame : Ready .transfer 1 idleBus := ready_idleBus _ 1 (.inr rfl) _
theorem witness_TransferReceivesTheReads :
    Ready .transfer 1 { idleBus with env := .oracle [] (List.replicate 8 .high) } ∧ idleBus.cfg.clkP = true ∧
    idleBus.cfg.dinP = true ∧ 8 * 1 ≤ (List.replicate 8 ReadResult.high).length ∧
    ∀ r, r ∈ (List.replicate 8 ReadResult.high).take (8 * 1) → isLevel r = true :=
  ⟨ready_idleBus _ 1 (.inr rfl) _, rfl, rfl, by decide, by decide⟩
/-- A failure at the first sample and at the last one. -/
theorem witness_TransferAbortsAtFailingRead :
    Ready .transfer 1 { idleBus with env := .oracle [] ([] ++ .fail ⟨7⟩ :: [.low]) } ∧
    Ready .transfer 1 { idleBus with env := .oracle [] (List.replicate 7 .high ++ .fail ⟨7⟩ :: []) } ∧
    idleBus.cfg.clkP = true ∧ idleBus.cfg.dinP = true ∧ (List.replicate 7 ReadResult.high).length < 8 * 1 ∧
    ∀ r, r ∈ List.replicate 7 ReadResult.high → isLevel r = true :=
  ⟨ready_idleBus _ 1 (.inr rfl) _, ready_idleBus _ 1 (.inr rfl) _, rfl, rfl, by decide, by decide⟩
theorem witness_LoopbackIdentity : Ready .transfer 1 { idleBus with env := .loopback } ∧ idleBus.cfg.doutP = true ∧
    idleBus.cfg.dinP = true := ⟨ready_idleBus _ 1 (.inr rfl) _, rfl, rfl⟩
theorem witness_TransferWithoutDataInIsWrite :
    Quiet { idleBus with cfg := { idleBus.cfg with dinP := false } } ∧ idleBus.busy = false ∧
    idleBus.cfg.configured = true ∧ idleBus.arg.toNat + 1 ≤ Config.bufSize := ⟨⟨rfl, rfl⟩, rfl, rfl, one_le_bufSize⟩

/-- The invariant holds in the middle of a TRANSFER. -/
theorem samplingBus_inv (r : ReadResult) : (samplingBus r).Inv where
  bufWf := wf_idleBus
  busyPhase := by simp [samplingBus, runningBus]
  busyResult := fun _ => rfl
  guarded := rfl
  unconfigured := fun h => by cases h
  runConfigured := fun _ => rfl
  cursor := fun _ => ⟨Nat.zero_lt_one, one_le_bufSize⟩
  waiting := fun h => by rcases h with h | h <;> cases h
  errvalBound := Nat.two_pow_pos _
  strobes := by simp [samplingBus, runningBus, idleBus, State.reset, PinOut.reset]
theorem witness_StepKeepsInv : (samplingBus .low).Inv ∧ ∃ t, step (samplingBus .low) = .next t :=
  ⟨samplingBus_inv _, _, rfl⟩
theorem witness_StepKeepsClockInv : (samplingBus .low).ClockInv ∧ ∃ t, step (samplingBus .low) = .next t :=
  ⟨fun _ => .inl rfl, _, rfl⟩
theorem witness_ConfigurationChangesOnlyByNewOrReset :
    (∃ t, step (State.reset.withFetchWord 32 0x1C) = .next t ∧ t.cfg ≠ State.reset.cfg) ∧
    (∃ t, step (withHost { rst := true, reg := .idle, buf := .idle } idleBus) = .next t ∧ t.cfg ≠ idleBus.cfg) :=
  ⟨⟨_, rfl, by decide⟩, ⟨_, rfl, by decide⟩⟩
theorem witness_ErrvalChangesOnlyByReadFail :
    ∃ t, step { samplingBus (.fail ⟨7⟩) with errval := errvalOf ⟨7⟩ + 1 } = .next t ∧ t.errval ≠ errvalOf ⟨7⟩ + 1 := by
  refine ⟨_, rfl, ?_⟩
  show errvalOf ⟨7⟩ ≠ errvalOf ⟨7⟩ + 1
  simp
/-- A command that goes on and one that ends. -/
theorem witness_RunningCommandEndsWithOneOutcome :
    ((samplingBus .low).Inv ∧ (samplingBus .low).busy = true ∧ resetTick (samplingBus .low) = false ∧
      ∃ t, step (samplingBus .low) = .next t ∧ t.busy = true) ∧
    ((samplingBus (.fail ⟨7⟩)).Inv ∧ (samplingBus (.fail ⟨7⟩)).busy = true ∧
      resetTick (samplingBus (.fail ⟨7⟩)) = false ∧ ∃ t, step (samplingBus (.fail ⟨7⟩)) = .next t ∧ t.busy = false) :=
  ⟨⟨samplingBus_inv _, rfl, rfl, _, rfl, rfl⟩, ⟨samplingBus_inv _, rfl, rfl, _, rfl, rfl⟩⟩
theorem witness_TickAppendsItsStrobe : ∃ t, step (runningBus .write .assertClock .loopback) = .next t := ⟨_, rfl⟩
theorem witness_RunningTickFrame : (samplingBus .low).busy = true ∧ resetTick (samplingBus .low) = false ∧
    ∃ t, step (samplingBus .low) = .next t := ⟨rfl, rfl, _, rfl⟩
theorem witness_DriveStatusIsSwallowed :
    (∃ t, step { runningBus .write .assertClock .loopback with env := .oracle (.ok :: []) [] } = .next t ∧
      t.pins.sclkStb = true) ∧
    (∃ t, step { runningBus .write .driveData .loopback with env := .oracle (.ok :: []) [] } = .next t ∧
      t.pins.mosiStb = true) ∧
    step { runningBus .write .driveData .loopback with buf := [], env := .oracle (.ok :: []) [] } =
      .fault .unwrittenByte := ⟨⟨_, rfl, rfl⟩, ⟨_, rfl, rfl⟩, rfl⟩
theorem witness_ArgWriteWhileBusyChangesArgOnly : (samplingBus .low).busy = true ∧ (samplingBus .low).rstLast = false ∧
    (∃ t, step { samplingBus .low with hostIn := HostTick.quiet :: [] } = .next t) ∧
    step { samplingBus .low with buf := [], hostIn := HostTick.quiet :: [] } = .fault .unwrittenByte :=
  ⟨rfl, rfl, ⟨_, rfl⟩, rfl⟩

/-- The invariant holds in NEW's INIT_CLOCK. -/
theorem initClock_inv : (runningBus .new .initClock .loopback).Inv where
  bufWf := wf_idleBus
  busyPhase := by simp [runningBus]
  busyResult := fun _ => rfl
  guarded := rfl
  unconfigured := fun h => by cases h
  runConfigured := fun _ => rfl
  cursor := fun h => by cases h
  waiting := fun h => by rcases h with h | h <;> cases h
  errvalBound := Nat.two_pow_pos _
  strobes := by simp [runningBus, idleBus, State.reset, PinOut.reset]
theorem witness_HostWriteOutsideRunningRange : (runningBus .new .initClock .loopback).Inv ∧
    (runningBus .new .initClock .loopback).busy = true ∧ (runningBus .new .initClock .loopback).rstLast = false ∧
    (0#32).toNat < Config.bufSize ∧ (runningBus .new .initClock .loopback).eng.opr = .new ∧
    ∃ t, step { runningBus .new .initClock .loopback with hostIn := HostTick.quiet :: [] } = .next t :=
  ⟨initClock_inv, rfl, rfl, one_le_bufSize, rfl, _, rfl⟩
/-- The address after the running range, for every buffer of two bytes or more. -/
theorem witness_HostWriteOutsideRunningRange_stream : 2 ≤ Config.bufSize → (samplingBus .low).Inv ∧
    (samplingBus .low).busy = true ∧ (samplingBus .low).rstLast = false ∧ (1#32).toNat < Config.bufSize ∧
    (samplingBus .low).eng.base.toNat + (samplingBus .low).eng.len.toNat ≤ (1#32).toNat ∧
    ∃ t, step { samplingBus .low with hostIn := HostTick.quiet :: [] } = .next t :=
  fun h => ⟨samplingBus_inv _, rfl, rfl, h, by decide, _, rfl⟩
theorem witness_HostWriteInRunningRangeFaults :
    (withHost { rst := false, reg := .idle, buf := .write 0 1 } (samplingBus .low)).busy = true ∧
    (samplingBus .low).eng.opr ≠ .new ∧
    resetTick (withHost { rst := false, reg := .idle, buf := .write 0 1 } (samplingBus .low)) = false ∧
    cmdWrite (hostNow (withHost { rst := false, reg := .idle, buf := .write 0 1 } (samplingBus .low))).reg = none ∧
    (samplingBus .low).eng.base.toNat ≤ (0#32).toNat ∧
    (0#32).toNat < (samplingBus .low).eng.base.toNat + (samplingBus .low).eng.len.toNat := by decide
theorem witness_IdleBlockWaits : State.reset.busy = false ∧ State.reset.rstLast = false ∧
    hostNow State.reset = HostTick.quiet := by decide
theorem witness_ResetTickResets : (hostNow (withHost { rst := true, reg := .idle, buf := .idle } (samplingBus .low))).rst = true ∧
    { samplingBus .low with rstLast := true }.rstLast = true := by decide

end Sys2Proof.Tests
end

section
/-! PROOFS. What one tick does on the pin port (10_state.md R27, R28, R30), and O50. -/

namespace Sys2Proof.Machine

/-! ### The pin port of a tick -/

/-- No strobe is asserted. -/
def NoStrobe (t : State) : Prop := t.pins.sclkStb = false ∧ t.pins.mosiStb = false ∧ t.pins.misoRd = false

/-- The pin port, the trace and the line records of the two states are the same. -/
structure SameLines (t u : State) : Prop where
  trace : u.trace = t.trace
  pins : u.pins = t.pins
  sclkLvl : u.sclkLvl = t.sclkLvl
  mosiLvl : u.mosiLvl = t.mosiLvl

/-- From `s` to `t` the trace grows by the event, if there is one; `t` asserts the event's strobe and no other, and a line that the
event does not drive is kept. -/
def PinStep (s t : State) : Option Event → Prop
  | none => t.trace = s.trace ∧ NoStrobe t ∧ SclkKept s t ∧ MosiKept s t
  | some .spin => t.trace = s.trace ++ [.spin] ∧ NoStrobe t ∧ SclkKept s t ∧ MosiKept s t
  | some (.drive .sclk l st) => t.trace = s.trace ++ [.drive .sclk l st] ∧
      (t.pins.sclkStb = true ∧ t.pins.mosiStb = false ∧ t.pins.misoRd = false) ∧
      (t.pins.sclkO = .known l ∧ t.sclkLvl = levelAfter l st) ∧ MosiKept s t
  | some (.drive .mosi l st) => t.trace = s.trace ++ [.drive .mosi l st] ∧
      (t.pins.mosiStb = true ∧ t.pins.sclkStb = false ∧ t.pins.misoRd = false) ∧
      (t.pins.mosiO = .known l ∧ t.mosiLvl = levelAfter l st) ∧ SclkKept s t
  | some (.read r) => t.trace = s.trace ++ [.read r] ∧
      (t.pins.misoRd = true ∧ t.pins.sclkStb = false ∧ t.pins.mosiStb = false) ∧ SclkKept s t ∧ MosiKept s t

/-- A `PinStep` speaks of the lines only. -/
theorem PinStep.congr_right {s t u : State} {ev : Option Event} (h : PinStep s t ev) (hl : SameLines t u) :
    PinStep s u ev := by
  obtain ⟨htr, hp, hs, hm⟩ := hl
  rcases ev with _ | (⟨_ | _, l, st⟩ | r | _) <;>
    simpa only [PinStep, NoStrobe, SclkKept, MosiKept, htr, hp, hs, hm] using h

/-! ### What leaves the lines alone -/

theorem sameLines_finishAction (t : State) : SameLines t (finishAction t) := by constructor <;> simp

theorem sameLines_setEng (e : Engine) (t : State) : SameLines t { t with eng := e } := ⟨rfl, rfl, rfl, rfl⟩

theorem sameLines_memWrite (a : Nat) (v : Byte) (t : State) : SameLines t (memWrite a v t) := ⟨rfl, rfl, rfl, rfl⟩

theorem sameLines_raiseReadFail (e : PinError) (t : State) : SameLines t (raiseReadFail e t) := ⟨rfl, rfl, rfl, rfl⟩

theorem sameLines_raiseIllegal (t : State) : SameLines t (raiseIllegal t) := ⟨rfl, rfl, rfl, rfl⟩

theorem sameLines_construct (k i o : Bool) (p : Polarity) (t : State) : SameLines t (construct k i o p t) := by
  constructor <;> rw [construct_frame]

theorem sameLines_acceptStream (opr : Opr) (len : BitVec 16) (t : State) : SameLines t (acceptStream opr len t) := by
  constructor <;> rw [acceptStream_frame]

/-- The decode tick of a command performs no action (41_bit_engine.md R62). -/
theorem sameLines_of_acceptWord {w : Word} {s t : State} (h : acceptWord w s = .next t) : SameLines s t := by
  obtain ⟨-, ⟨i, -, hi⟩ | ⟨-, rfl⟩⟩ := acceptWord_next h
  · obtain ⟨-, ⟨k, di, d, p, -, rfl⟩ | ⟨len, -, rfl⟩ | ⟨len, -, rfl⟩⟩ := exec_next hi
    · exact sameLines_construct k di d p s
    · exact sameLines_acceptStream .write _ s
    · exact sameLines_acceptStream .transfer _ s
  · exact sameLines_raiseIllegal s

/-! ### The event of a tick -/

/-- The start of a tick and the host's accesses: the strobes fall and no event is made (10_state.md R28). -/
theorem pinStep_hostAccess_beginTick (h : HostTick) (s : State) : PinStep s (hostAccess h (beginTick s)) none := by
  simp [PinStep, NoStrobe, SclkKept, MosiKept, beginTick]

section
variable {s u : State} (h : PinStep s u none)
include h

theorem PinStep.driveSclk (l : Level) :
    PinStep s (driveSclk l u) (some (.drive .sclk l (u.env.drive u.tick).1)) := by
  obtain ⟨htr, ⟨-, hm, hr⟩, -, hk⟩ := h
  exact ⟨by simp [htr], ⟨rfl, hm, hr⟩, ⟨rfl, rfl⟩, hk⟩

theorem PinStep.driveMosi (l : Level) :
    PinStep s (driveMosi l u) (some (.drive .mosi l (u.env.drive u.tick).1)) := by
  obtain ⟨htr, ⟨hs, -, hr⟩, hk, -⟩ := h
  exact ⟨by simp [htr], ⟨rfl, hs, hr⟩, ⟨rfl, rfl⟩, hk⟩

theorem PinStep.readMiso : PinStep s (readMiso u) (some (.read (misoResult u))) := by
  obtain ⟨htr, ⟨hs, hm, -⟩, hk⟩ := h
  exact ⟨by simp [htr], ⟨rfl, hs, hm⟩, hk⟩

theorem PinStep.waitOnce : PinStep s (waitOnce u) (some .spin) := by
  obtain ⟨htr, hk⟩ := h
  exact ⟨by simp [htr], hk⟩

/-- ASSERT_CLOCK loads DCNT before it drives (41_bit_engine.md R67). -/
theorem PinStep.assertClock :
    PinStep s (assertClock u) (some (.drive .sclk (activeLevel u.cfg.cpol) (u.env.drive u.tick).1)) :=
  PinStep.driveSclk (h.congr_right (sameLines_setEng _ u)) _

/-- DEASSERT_CLOCK loads DCNT before it drives (41_bit_engine.md R70). -/
theorem PinStep.deassertClock :
    PinStep s (deassertClock u) (some (.drive .sclk (idleLevel u.cfg.cpol) (u.env.drive u.tick).1)) :=
  PinStep.driveSclk (h.congr_right (sameLines_setEng _ u)) _

/-- An action makes at most one event (41_bit_engine.md R66 to R70). -/
theorem PinStep.perform {p : Phase} {a : Nat} {b : BitVec 3} {t : State} (hp : perform p a b u = .next t) :
    ∃ ev, PinStep s t ev := by
  rcases perform_next hp with ⟨-, rfl⟩ | ⟨-, rfl⟩ | ⟨-, w, -, rfl⟩ | ⟨-, rfl⟩ | ⟨-, rfl⟩ | ⟨-, l, w, -, -, rfl⟩ |
    ⟨-, e, -, rfl⟩ | ⟨-, rfl⟩
  · exact ⟨_, h⟩
  · exact ⟨_, h.driveSclk _⟩
  · exact ⟨_, h.driveMosi _⟩
  · exact ⟨_, h.assertClock⟩
  · exact ⟨_, h.waitOnce⟩
  · exact ⟨_, h.readMiso.congr_right (sameLines_memWrite _ _ _)⟩
  · exact ⟨_, h.readMiso.congr_right (sameLines_raiseReadFail _ _)⟩
  · exact ⟨_, h.deassertClock⟩

theorem PinStep.engineTick {t : State} (ht : engineTick u = .next t) : ∃ ev, PinStep s t ev := by
  obtain ⟨v, hv, rfl⟩ := engineTick_next ht
  obtain ⟨ev, hev⟩ := h.perform hv
  exact ⟨ev, hev.congr_right (sameLines_finishAction v)⟩

end

/-- Outside reset every tick is a `PinStep`. -/
theorem pinStep_of_step {s t : State} (hr : resetTick s = false) (h : step s = .next t) : ∃ ev, PinStep s t ev := by
  have hstart := pinStep_hostAccess_beginTick (hostNow s) s
  rcases step_next h with ⟨hr', -⟩ | ⟨-, w, -, hw⟩ | ⟨-, -, -, -, ht⟩ | ⟨-, -, -, rfl⟩
  · simp [hr] at hr'
  · exact ⟨none, hstart.congr_right (sameLines_of_acceptWord hw)⟩
  · exact hstart.engineTick ht
  · exact ⟨none, hstart⟩

/-- A reset tick makes no event and asserts no strobe (70_reset_and_hazards.md R103). -/
theorem noStrobe_of_resetTick {s t : State} (hr : resetTick s = true) (h : step s = .next t) :
    t.trace = s.trace ∧ NoStrobe t := by
  rcases step_next h with ⟨-, rfl⟩ | ⟨hr', -⟩ | ⟨hr', -⟩ | ⟨hr', -⟩
  · simp [NoStrobe, State.reset, PinOut.reset]
  all_goals simp [hr] at hr'

/-- Settles O50: outside reset by the event that the tick's action makes, in a reset tick by the reset values of the port. -/
theorem tickAppendsItsStrobe : Obligations.TickAppendsItsStrobe := by
  intro s t h
  cases hr : resetTick s with
  | true =>
    obtain ⟨htr, hs, hm, hd⟩ := noStrobe_of_resetTick hr h
    exact .inl ⟨htr, hs, hm, hd, nofun⟩
  | false =>
    obtain ⟨ev, hev⟩ := pinStep_of_step hr h
    match ev, hev with
    | none, ⟨htr, ⟨hs, hm, hd⟩, hk⟩ => exact .inl ⟨htr, hs, hm, hd, fun _ => hk⟩
    | some .spin, ⟨htr, ⟨hs, hm, hd⟩, hk⟩ => exact .inr (.inl ⟨htr, hs, hm, hd, hk⟩)
    | some (.drive .sclk l st), ⟨htr, ⟨hs, hm, hd⟩, ⟨ho, hl⟩, hk⟩ =>
      exact .inr (.inr (.inl ⟨l, st, htr, hs, hm, hd, ho, hl, hk⟩))
    | some (.drive .mosi l st), ⟨htr, ⟨hm, hs, hd⟩, ⟨ho, hl⟩, hk⟩ =>
      exact .inr (.inr (.inr (.inl ⟨l, st, htr, hm, hs, hd, ho, hl, hk⟩)))
    | some (.read r), ⟨htr, ⟨hd, hs, hm⟩, hk⟩ => exact .inr (.inr (.inr (.inr ⟨r, htr, hd, hs, hm, hk⟩)))

end Sys2Proof.Machine
end

section
/-! PROOFS. What an action and the sequencer keep, and O45: every step keeps `State.Inv`. -/

namespace Sys2Proof.Machine

/-! ### The frame of an action and of an engine tick -/

/-- An action changes no other field than these. -/
theorem perform_frame {p : Phase} {a : Nat} {b : BitVec 3} {s t : State} (h : perform p a b s = .next t) : t =
    { s with busy := t.busy, result := t.result, errval := t.errval, eng := t.eng, sclkLvl := t.sclkLvl,
             mosiLvl := t.mosiLvl, pins := t.pins, buf := t.buf, trace := t.trace, env := t.env } := by
  rcases perform_next h with ⟨-, rfl⟩ | ⟨-, rfl⟩ | ⟨-, w, -, rfl⟩ | ⟨-, rfl⟩ | ⟨-, rfl⟩ | ⟨-, l, w, -, -, rfl⟩ |
    ⟨-, e, -, rfl⟩ | ⟨-, rfl⟩ <;> rfl

/-- An engine tick changes no other field than these. -/
theorem engineTick_frame {s t : State} (h : engineTick s = .next t) : t =
    { s with busy := t.busy, result := t.result, errval := t.errval, eng := t.eng, sclkLvl := t.sclkLvl,
             mosiLvl := t.mosiLvl, pins := t.pins, buf := t.buf, trace := t.trace, env := t.env } := by
  obtain ⟨u, hu, rfl⟩ := engineTick_next h
  have hf := perform_frame hu
  rw [finishAction_frame u]
  generalize finishAction u = v
  rw [hf]

/-- An action ends the command by a read failure, or keeps its place but for DCNT (41_bit_engine.md R66 to R70, 60_exceptions.md R86). -/
theorem perform_fails_or_goes_on {p : Phase} {a : Nat} {b : BitVec 3} {s t : State} (h : perform p a b s = .next t) :
    (p = .sample ∧ ∃ e, misoResult s = .fail e ∧ t = raiseReadFail e (readMiso s)) ∨
    (t.busy = s.busy ∧ t.result = s.result ∧ t.errval = s.errval ∧ t.eng = { s.eng with dcnt := t.eng.dcnt }) := by
  rcases perform_next h with ⟨-, rfl⟩ | ⟨-, rfl⟩ | ⟨-, w, -, rfl⟩ | ⟨-, rfl⟩ | ⟨-, rfl⟩ | ⟨-, l, w, -, -, rfl⟩ |
    hf | ⟨-, rfl⟩
  any_goals exact .inr ⟨rfl, rfl, rfl, rfl⟩
  exact .inl hf

theorem construct_cfg (k i o : Bool) (p : Polarity) (s : State) : (construct k i o p s).cfg = newConfig k i o p s := by
  unfold construct
  split <;> rfl

/-! ### The two halves of the invariant -/

/-- The strobes are those of present lines (10_state.md R28). -/
def StrobesPresent (s : State) : Prop :=
  (s.pins.sclkStb = true → s.cfg.clkP = true) ∧ (s.pins.mosiStb = true → s.cfg.doutP = true) ∧
    (s.pins.misoRd = true → s.cfg.dinP = true)

/-- The half of `State.Inv` that the sequencer does not touch: BUF, the configuration, ERRVAL and the strobes. -/
structure BaseInv (s : State) : Prop where
  bufWf : Memory.wf s.buf = true
  unconfigured : s.cfg.configured = false → s.cfg = BusConfig.reset
  errvalBound : s.errval.toNat < 2 ^ Config.pinErrW
  strobes : StrobesPresent s

/-- The half of `State.Inv` about the place of the engine in a command. -/
structure PlaceInv (s : State) : Prop where
  busyPhase : s.busy = true ↔ s.eng.phase ≠ .idle
  busyResult : s.busy = true → s.result = .none
  guarded : phaseGuard s.eng.phase s.eng.opr s.cfg = true
  runConfigured : s.busy = true → s.cfg.configured = true
  cursor : streamRunning s = true →
    s.eng.widx.toNat < s.eng.len.toNat ∧ s.eng.base.toNat + s.eng.len.toNat ≤ Config.bufSize
  waiting : s.eng.phase = .activeWait ∨ s.eng.phase = .idleWait →
    s.eng.dcnt ≠ 0 ∧ s.eng.dcnt.toNat ≤ s.cfg.delay.toNat

theorem inv_iff {s : State} : s.Inv ↔ BaseInv s ∧ PlaceInv s :=
  ⟨fun ⟨hbuf, hbp, hbr, hg, hu, hrc, hc, hw, he, hs⟩ => ⟨⟨hbuf, hu, he, hs⟩, ⟨hbp, hbr, hg, hrc, hc, hw⟩⟩,
   fun ⟨⟨hbuf, hu, he, hs⟩, ⟨hbp, hbr, hg, hrc, hc, hw⟩⟩ => ⟨hbuf, hbp, hbr, hg, hu, hrc, hc, hw, he, hs⟩⟩

/-! ### BUF, the configuration, ERRVAL and the strobes -/

theorem strobesPresent_of_noStrobe {s : State} (h : NoStrobe s) : StrobesPresent s := by
  obtain ⟨hs, hm, hd⟩ := h
  simp [StrobesPresent, hs, hm, hd]

theorem BaseInv.congr {s t : State} (h : BaseInv s) (hcfg : t.cfg = s.cfg) (he : t.errval = s.errval)
    (hbuf : Memory.wf t.buf = true) (hst : StrobesPresent t) : BaseInv t :=
  ⟨hbuf, by rw [hcfg]; exact h.unconfigured, by rw [he]; exact h.errvalBound, hst⟩

theorem BaseInv.setEng {s : State} (h : BaseInv s) (e : Engine) : BaseInv { s with eng := e } :=
  h.congr rfl rfl h.bufWf h.strobes

theorem bufWf_memWrite {s : State} (h : Memory.wf s.buf = true) {a : Nat} (ha : a < Config.bufSize) (v : Byte) :
    Memory.wf (memWrite a v s).buf = true := Memory.wf_write h ha v

theorem bufWf_hostAccess {s : State} (h : Memory.wf s.buf = true) (ht : HostTick) :
    Memory.wf (hostAccess ht s).buf = true := by
  unfold hostAccess bufWriteAccess
  split
  · split
    · exact bufWf_memWrite (by simpa using h) ‹_› _
    · simpa using h
  · simpa using h
  · simpa using h

/-- The start of a tick and the host's accesses assert no strobe. -/
theorem noStrobe_hostAccess_beginTick (h : HostTick) (s : State) : NoStrobe (hostAccess h (beginTick s)) := by
  simp [NoStrobe]

theorem BaseInv.hostAccess_beginTick {s : State} (h : BaseInv s) (ht : HostTick) :
    BaseInv (hostAccess ht (beginTick s)) :=
  h.congr (by simp) (by simp) (bufWf_hostAccess (s := beginTick s) h.bufWf ht)
    (strobesPresent_of_noStrobe (noStrobe_hostAccess_beginTick ht s))

theorem BaseInv.finishAction {s : State} (h : BaseInv s) : BaseInv (finishAction s) :=
  h.congr (by simp) (by simp) (by simpa using h.bufWf) (by simpa [StrobesPresent] using h.strobes)

/-- The byte that an action finds written lies in BUF (20_memory.md R41). -/
theorem BaseInv.address_lt {s : State} (h : BaseInv s) {a : Nat} {w : Byte} (hw : memRead a s = some w) :
    a < Config.bufSize := Memory.read_lt s.buf 0 a w h.bufWf hw

section
variable {s t : State} (h : BaseInv s) (hn : NoStrobe s)
include h hn

theorem BaseInv.driveSclk (hc : s.cfg.clkP = true) (l : Level) : BaseInv (driveSclk l s) :=
  h.congr rfl rfl h.bufWf (by obtain ⟨-, hm, hd⟩ := hn; simp [StrobesPresent, hc, hm, hd])

theorem BaseInv.driveMosi (hc : s.cfg.doutP = true) (l : Level) : BaseInv (driveMosi l s) :=
  h.congr rfl rfl h.bufWf (by obtain ⟨hs, -, hd⟩ := hn; simp [StrobesPresent, hc, hs, hd])

theorem BaseInv.readMiso (hc : s.cfg.dinP = true) : BaseInv (readMiso s) :=
  h.congr rfl rfl h.bufWf (by obtain ⟨hs, hm, -⟩ := hn; simp [StrobesPresent, hc, hs, hm])

/-- An action whose presence bits are set keeps BUF, ERRVAL and the strobes in order (10_state.md R28). -/
theorem BaseInv.perform {p : Phase} {a : Nat} {b : BitVec 3} (hg : phaseGuard p s.eng.opr s.cfg = true)
    (hp : perform p a b s = .next t) : BaseInv t := by
  rcases perform_next hp with ⟨-, rfl⟩ | ⟨rfl, rfl⟩ | ⟨rfl, w, -, rfl⟩ | ⟨rfl, rfl⟩ | ⟨-, rfl⟩ |
    ⟨rfl, l, w, -, hw, rfl⟩ | ⟨rfl, e, -, rfl⟩ | ⟨rfl, rfl⟩ <;>
    simp only [phaseGuard, sampleGuard, Bool.and_eq_true] at hg
  · exact h
  · exact h.driveSclk hn hg.2 _
  · exact h.driveMosi hn hg.2 _
  · exact (h.setEng { s.eng with dcnt := s.cfg.delay }).driveSclk hn hg.2 _
  · exact h.congr rfl rfl h.bufWf h.strobes
  · have hr := h.readMiso hn hg.1.2
    exact hr.congr rfl rfl (bufWf_memWrite hr.bufWf (h.address_lt hw) _) hr.strobes
  · have hr := h.readMiso hn hg.1.2
    exact ⟨hr.bufWf, hr.unconfigured, errvalOf_lt e, hr.strobes⟩
  · exact (h.setEng { s.eng with dcnt := s.cfg.delay }).driveSclk hn hg.2 _

/-- The decode tick of a command asserts no strobe, and a NEW sets CONFIGURED (40_construction.md R58). -/
theorem BaseInv.acceptWord {w : Word} (ha : acceptWord w s = .next t) : BaseInv t := by
  have hst : ∀ u : State, u.pins = s.pins → StrobesPresent u := fun u hu =>
    strobesPresent_of_noStrobe (by simpa only [NoStrobe, hu] using hn)
  obtain ⟨-, ⟨i, -, hi⟩ | ⟨-, rfl⟩⟩ := acceptWord_next ha
  · obtain ⟨-, ⟨k, di, d, p, -, rfl⟩ | ⟨len, -, rfl⟩ | ⟨len, -, rfl⟩⟩ := exec_next hi
    · exact ⟨by simpa using h.bufWf, by simp [construct_cfg, newConfig], by simpa using h.errvalBound, hst _ (by simp)⟩
    · exact h.congr (by simp) (by simp) (by simpa using h.bufWf) (hst _ (by simp))
    · exact h.congr (by simp) (by simp) (by simpa using h.bufWf) (hst _ (by simp))
  · exact h.congr rfl rfl h.bufWf (hst _ rfl)

end

/-! ### The place of the engine -/

theorem PlaceInv.congr {s t : State} (h : PlaceInv s) (hcfg : t.cfg = s.cfg) (hb : t.busy = s.busy)
    (hr : t.result = s.result) (he : t.eng = s.eng) : PlaceInv t := by
  obtain ⟨hbp, hbr, hg, hrc, hc, hw⟩ := h
  constructor <;> simpa only [streamRunning, hcfg, hb, hr, he]

/-- An idle engine has no place to keep. -/
theorem placeInv_of_idle {s : State} (hb : s.busy = false) (hp : s.eng.phase = .idle) : PlaceInv s := by
  constructor <;> simp [hb, hp, streamRunning, phaseGuard]

/-- A command runs, and its place, DCNT apart, is in order. -/
structure RunInv (s : State) : Prop where
  busy : s.busy = true
  active : s.eng.phase ≠ .idle
  result : s.result = .none
  guarded : phaseGuard s.eng.phase s.eng.opr s.cfg = true
  configured : s.cfg.configured = true
  cursor : s.eng.opr ≠ .new →
    s.eng.widx.toNat < s.eng.len.toNat ∧ s.eng.base.toNat + s.eng.len.toNat ≤ Config.bufSize

theorem PlaceInv.run {s : State} (h : PlaceInv s) (hb : s.busy = true) : RunInv s :=
  ⟨hb, h.busyPhase.1 hb, h.busyResult hb, h.guarded, h.runConfigured hb,
    fun ho => h.cursor (by simp [streamRunning, hb, ho])⟩

theorem RunInv.placeInv {s : State} (h : RunInv s) (hw : s.eng.phase = .activeWait ∨ s.eng.phase = .idleWait →
    s.eng.dcnt ≠ 0 ∧ s.eng.dcnt.toNat ≤ s.cfg.delay.toNat) : PlaceInv s :=
  ⟨by simp [h.busy, h.active], fun _ => h.result, h.guarded, fun _ => h.configured,
    fun hs => h.cursor (by simpa [streamRunning, h.busy] using hs), hw⟩

/-- `RunInv` does not speak of DCNT. -/
theorem RunInv.congr {s t : State} (h : RunInv s) (hcfg : t.cfg = s.cfg) (hb : t.busy = s.busy)
    (hr : t.result = s.result) {d : Word} (he : t.eng = { s.eng with dcnt := d }) : RunInv t := by
  obtain ⟨hbusy, ha, hres, hg, hc, hcur⟩ := h
  constructor <;> simpa only [hcfg, hb, hr, he]

/-- DCNT between an action and the choice of the next phase: a clock drive has loaded it, a wait has counted it down
(41_bit_engine.md R67, R68, R70). -/
structure DcntActed (s : State) : Prop where
  loaded : s.eng.phase = .assertClock ∨ s.eng.phase = .deassertClock → s.eng.dcnt = s.cfg.delay
  counted : s.eng.phase = .activeWait ∨ s.eng.phase = .idleWait → s.eng.dcnt.toNat ≤ s.cfg.delay.toNat

theorem PlaceInv.dcntActed {s t : State} {a : Nat} {b : BitVec 3} (h : PlaceInv s)
    (hp : perform s.eng.phase a b s = .next t) : DcntActed t := by
  rcases perform_next hp with ⟨hq, rfl⟩ | ⟨hq, rfl⟩ | ⟨hq, w, -, rfl⟩ | ⟨hq, rfl⟩ | ⟨hq, rfl⟩ | ⟨hq, l, w, -, -, rfl⟩ |
    ⟨hq, e, -, rfl⟩ | ⟨hq, rfl⟩
  · constructor <;> simp [hq]
  · constructor <;> simp [hq]
  · constructor <;> simp [hq]
  · constructor <;> simp [hq]
  · obtain ⟨hne, hle⟩ := h.waiting hq
    refine ⟨fun hc => ?_, fun _ => ?_⟩
    · rcases hq with hq | hq <;> simp [hq] at hc
    · simp only [waitOnce_eng, waitOnce_cfg]
      bv_omega
  · constructor <;> simp [hq]
  · constructor <;> simp
  · constructor <;> simp [hq]

section
variable {s : State} (h : RunInv s)
include h

/-- The sequencer goes on to a phase at a word of the range. -/
theorem RunInv.enter {w : BitVec 16} {b : BitVec 3} {p : Phase} (hw : s.eng.opr ≠ .new → w.toNat < s.eng.len.toNat)
    (hi : p ≠ .idle) (hg : phaseGuard p s.eng.opr s.cfg = true)
    (hd : p = .activeWait ∨ p = .idleWait → s.eng.dcnt ≠ 0 ∧ s.eng.dcnt.toNat ≤ s.cfg.delay.toNat) :
    PlaceInv { s with eng := { s.eng with widx := w, bidx := b, phase := p } } :=
  RunInv.placeInv ⟨h.busy, hi, h.result, hg, h.configured, fun ho => ⟨hw ho, (h.cursor ho).2⟩⟩ hd

theorem RunInv.enter_follows {w : BitVec 16} {b : BitVec 3} {p : Phase}
    (hw : s.eng.opr ≠ .new → w.toNat < s.eng.len.toNat) (hp : Follows p s.eng.opr s.cfg) :
    PlaceInv { s with eng := { s.eng with widx := w, bidx := b, phase := p } } := by
  obtain ⟨hi, -, hg, ha, hid⟩ := hp
  exact h.enter hw hi hg (by simp [ha, hid])

theorem RunInv.setPhase_wait {p : Phase} (hi : p ≠ .idle) (hg : phaseGuard p s.eng.opr s.cfg = true)
    (hne : s.eng.dcnt ≠ 0) (hle : s.eng.dcnt.toNat ≤ s.cfg.delay.toNat) : PlaceInv (setPhase p s) :=
  h.enter (fun ho => (h.cursor ho).1) hi hg fun _ => ⟨hne, hle⟩

/-- The end of a bit of a stream: the next bit, the next word, or the end of the command (41_bit_engine.md R71). -/
theorem RunInv.endBit (hi : s.eng.phase ≠ .initClock) : PlaceInv (endBit s) := by
  obtain ⟨ho, hlines⟩ := guard_lines h.guarded h.active hi
  have hstart := startPhase_follows ho hlines
  unfold Machine.endBit
  split
  · exact h.enter_follows (fun ho => (h.cursor ho).1) hstart
  · split
    · exact h.enter_follows (fun _ => by bv_omega) hstart
    · exact placeInv_of_idle rfl rfl

theorem RunInv.goto (hi : s.eng.phase ≠ .initClock) {n : Option Phase}
    (hn : ∀ p, n = some p → Follows p s.eng.opr s.cfg) : PlaceInv (goto n s) := by
  cases n with
  | none => exact h.endBit hi
  | some p => exact h.enter_follows (fun ho => (h.cursor ho).1) (hn p rfl)

/-- The sequencer's choice of the next phase (41_bit_engine.md R71). -/
theorem RunInv.advance (hd : DcntActed s) : PlaceInv (advance s) := by
  have hg := h.guarded
  have hopr (hi : s.eng.phase ≠ .initClock) : s.eng.opr ≠ .new := (guard_lines hg h.active hi).1
  unfold Machine.advance
  split <;> rename_i hp
  · exact absurd hp h.active
  · exact placeInv_of_idle rfl rfl
  · exact h.goto (by simp [hp]) (firstAssert_follows (hopr (by simp [hp])))
  · split
    · have hload := hd.loaded (.inl hp)
      exact h.setPhase_wait (by simp) (by simpa only [hp, phaseGuard] using hg) (by rwa [hload]) (by rw [hload])
    · exact h.goto (by simp [hp]) (firstSample_follows (hopr (by simp [hp])))
  · split
    · exact h.setPhase_wait (by simp) (by simpa only [hp, phaseGuard] using hg) ‹_› (hd.counted (.inl hp))
    · exact h.goto (by simp [hp]) (firstSample_follows (hopr (by simp [hp])))
  · exact h.goto (by simp [hp]) (firstDeassert_follows (hopr (by simp [hp])))
  · split
    · have hload := hd.loaded (.inr hp)
      exact h.setPhase_wait (by simp) (by simpa only [hp, phaseGuard] using hg) (by rwa [hload]) (by rw [hload])
    · exact h.endBit (by simp [hp])
  · split
    · exact h.setPhase_wait (by simp) (by simpa only [hp, phaseGuard] using hg) ‹_› (hd.counted (.inr hp))
    · exact h.endBit (by simp [hp])

end

/-- An engine tick: a failing read ends the command, and every other action is followed by a phase that is in order. -/
theorem PlaceInv.engineTick {s t : State} (h : PlaceInv s) (hb : s.busy = true) (ht : engineTick s = .next t) :
    PlaceInv t := by
  obtain ⟨u, hu, rfl⟩ := engineTick_next ht
  rcases perform_fails_or_goes_on hu with ⟨-, e, -, rfl⟩ | ⟨hbusy, hres, -, heng⟩
  · rw [finishAction_ended _ rfl]
    exact placeInv_of_idle rfl rfl
  · have hcfg : u.cfg = s.cfg := by rw [perform_frame hu]
    have hrun : RunInv u := (h.run hb).congr hcfg hbusy hres heng
    rw [finishAction_busy u hrun.busy]
    exact hrun.advance (h.dcntActed hu)

/-! ### Commands accepted by an idle block -/

section
variable {s : State} (hb : s.busy = false) (hp : s.eng.phase = .idle)
include hb hp

/-- NEW goes on to INIT_CLOCK exactly if a clock is present (40_construction.md R58). -/
theorem placeInv_construct (k i o : Bool) (p : Polarity) : PlaceInv (construct k i o p s) := by
  unfold construct
  split
  case isTrue hk =>
    exact RunInv.placeInv ⟨rfl, by simp, rfl, by simpa [phaseGuard, newConfig] using hk, rfl, by simp⟩ (by simp)
  case isFalse => exact placeInv_of_idle hb hp

/-- A stream that is not empty starts at its first word with a phase whose line is present (41_bit_engine.md R65). -/
theorem placeInv_startStream {opr : Opr} (ho : opr ≠ .new) {len : BitVec 16} (hc : stateChecks len s = true) :
    PlaceInv (startStream opr len s) := by
  simp only [stateChecks, rangeFits, Bool.and_eq_true, decide_eq_true_eq] at hc
  obtain ⟨hconf, hfits⟩ := hc
  unfold startStream
  dsimp only
  split
  case isTrue => exact placeInv_of_idle hb hp
  case isFalse hne =>
    simp only [streamEmpty, Bool.or_eq_true, decide_eq_true_eq, not_or] at hne
    obtain ⟨hlen, hcount⟩ := hne
    have hlines : s.cfg.doutP = true ∨ s.cfg.clkP = true ∨ sampleGuard opr s.cfg = true := by
      by_contra hno
      simp only [not_or, Bool.not_eq_true] at hno
      obtain ⟨hd, hk, hs⟩ := hno
      exact hcount (by simp [bitActionCount, hd, hk, hs])
    obtain ⟨hi, -, hg, ha, hid⟩ := startPhase_follows ho hlines
    exact RunInv.placeInv ⟨rfl, hi, rfl, hg, hconf, fun _ => ⟨by bv_omega, hfits⟩⟩ (by simp [ha, hid])

theorem placeInv_acceptStream {opr : Opr} (ho : opr ≠ .new) (len : BitVec 16) :
    PlaceInv (acceptStream opr len s) := by
  unfold acceptStream
  split
  · exact placeInv_startStream hb hp ho ‹_›
  · exact placeInv_of_idle hb hp

end

theorem PlaceInv.acceptWord {w : Word} {s t : State} (h : PlaceInv s) (ha : acceptWord w s = .next t) :
    PlaceInv t := by
  obtain ⟨hb, hcases⟩ := acceptWord_next ha
  have hp : s.eng.phase = .idle := by simpa [hb] using h.busyPhase
  obtain ⟨i, -, hi⟩ | ⟨-, rfl⟩ := hcases
  · obtain ⟨-, ⟨k, di, d, p, -, rfl⟩ | ⟨len, -, rfl⟩ | ⟨len, -, rfl⟩⟩ := exec_next hi
    · exact placeInv_construct hb hp k di d p
    · exact placeInv_acceptStream hb hp (by simp) _
    · exact placeInv_acceptStream hb hp (by simp) _
  · exact placeInv_of_idle hb hp

/-! ### A tick -/

/-- A block in reset (70_reset_and_hazards.md R103). -/
theorem inv_hostReads_applyReset (h : HostTick) (s : State) : (hostReads h (applyReset s)).Inv :=
  inv_iff.2 ⟨⟨by simp [State.reset_buf_wf], by simp [State.reset], by simp [State.reset],
      strobesPresent_of_noStrobe (by simp [NoStrobe, State.reset, PinOut.reset])⟩,
    placeInv_of_idle (by simp [State.reset]) (by simp [State.reset, Engine.reset])⟩

/-- Settles O45: the start of a tick keeps both halves of the invariant and lets the strobes fall; from there the decode tick and the
action of the engine keep each half. -/
theorem stepKeepsInv : Obligations.StepKeepsInv := by
  intro s t hs hstep
  obtain ⟨hbase, hplace⟩ := inv_iff.1 hs
  have hbase' := hbase.hostAccess_beginTick (hostNow s)
  have hplace' : PlaceInv (hostAccess (hostNow s) (beginTick s)) :=
    hplace.congr (by simp) (by simp) (by simp) (by simp)
  have hn := noStrobe_hostAccess_beginTick (hostNow s) s
  rcases step_next hstep with ⟨-, rfl⟩ | ⟨-, w, -, hw⟩ | ⟨-, -, -, hb, ht⟩ | ⟨-, -, -, rfl⟩
  · exact inv_hostReads_applyReset _ _
  · exact inv_iff.2 ⟨hbase'.acceptWord hn hw, hplace'.acceptWord hw⟩
  · obtain ⟨u, hu, rfl⟩ := engineTick_next ht
    exact inv_iff.2 ⟨(hbase'.perform hn hplace'.guarded hu).finishAction, hplace'.engineTick (by simpa using hb) ht⟩
  · exact inv_iff.2 ⟨hbase', hplace'⟩

end Sys2Proof.Machine
end

section
/-! PROOFS. SCLK's place within a bit (41_bit_engine.md R67, R70), and O46. -/

namespace Sys2Proof.Machine

/-- A phase that asks nothing of SCLK's record. -/
def ClockFree (p : Phase) : Prop := p = .idle ∨ p = .initClock ∨ p = .driveData ∨ p = .assertClock

/-- SCLK's record is active, or Unknown after a failed drive. -/
def SclkActive (s : State) : Prop := levelOrUnknown (activeLevel s.cfg.cpol) s.sclkLvl

/-- SCLK's record is idle, or Unknown after a failed drive. -/
def SclkIdle (s : State) : Prop := levelOrUnknown (idleLevel s.cfg.cpol) s.sclkLvl

/-- `State.ClockInv`, phase by phase. -/
theorem clockInv_iff {s : State} : s.ClockInv ↔ (s.cfg.clkP = true →
    ((s.eng.phase = .activeWait ∨ s.eng.phase = .sample ∨ s.eng.phase = .deassertClock) → SclkActive s) ∧
    (s.eng.phase = .idleWait → SclkIdle s)) := by
  unfold State.ClockInv SclkActive SclkIdle
  cases s.eng.phase <;> simp

theorem levelOrUnknown_levelAfter (l : Level) (st : DriveStatus) : levelOrUnknown l (levelAfter l st) := by
  cases st
  · exact .inl rfl
  · exact .inr rfl

theorem clockInv_of_clockFree {s : State} (h : s.cfg.clkP = true → ClockFree s.eng.phase) : s.ClockInv := by
  refine clockInv_iff.2 fun hc => ?_
  rcases h hc with hp | hp | hp | hp <;> simp [hp]

theorem clockInv_of_sclkActive {s : State} (h : SclkActive s) (hp : s.eng.phase ≠ .idleWait) : s.ClockInv :=
  clockInv_iff.2 fun _ => ⟨fun _ => h, fun hi => absurd hi hp⟩

theorem clockInv_of_sclkIdle {s : State} (h : SclkIdle s) (hp : s.eng.phase = .idleWait) : s.ClockInv :=
  clockInv_iff.2 fun _ => ⟨by simp [hp], fun _ => h⟩

theorem clockInv_congr {s t : State} (h : s.ClockInv) (hcfg : t.cfg = s.cfg) (hp : t.eng.phase = s.eng.phase)
    (hl : t.sclkLvl = s.sclkLvl) : t.ClockInv := by
  rw [clockInv_iff] at h ⊢
  simpa only [SclkActive, SclkIdle, hcfg, hp, hl] using h

/-- With a clock present a bit starts with DRIVE_DATA or ASSERT_CLOCK (41_bit_engine.md R71). -/
theorem startPhase_clockFree {opr : Opr} {c : BusConfig} (hc : c.clkP = true) : ClockFree (startPhase opr c) := by
  unfold startPhase firstDrive firstAssert ClockFree
  by_cases hd : c.doutP = true <;> simp [hc, hd]

/-! ### Commands accepted -/

theorem clockInv_acceptStream {s : State} (h : s.ClockInv) (opr : Opr) (len : BitVec 16) :
    (acceptStream opr len s).ClockInv := by
  unfold acceptStream startStream
  dsimp only
  split
  · split
    · exact clockInv_congr h rfl rfl rfl
    · exact clockInv_of_clockFree fun hc => startPhase_clockFree hc
  · exact clockInv_congr h rfl rfl rfl

/-- After NEW a clock that is present is about to be initialised (40_construction.md R58). -/
theorem clockInv_construct (k i o : Bool) (p : Polarity) (s : State) : (construct k i o p s).ClockInv := by
  refine clockInv_of_clockFree ?_
  unfold construct
  split
  · exact fun _ => .inr (.inl rfl)
  · exact fun hk => absurd hk ‹_›

theorem clockInv_of_acceptWord {w : Word} {s t : State} (h : s.ClockInv) (ha : acceptWord w s = .next t) :
    t.ClockInv := by
  obtain ⟨-, ⟨i, -, hi⟩ | ⟨-, rfl⟩⟩ := acceptWord_next ha
  · obtain ⟨-, ⟨k, di, d, p, -, rfl⟩ | ⟨len, -, rfl⟩ | ⟨len, -, rfl⟩⟩ := exec_next hi
    · exact clockInv_construct k di d p s
    · exact clockInv_acceptStream h _ _
    · exact clockInv_acceptStream h _ _
  · exact clockInv_congr h rfl rfl rfl

/-! ### The engine's action -/

/-- SCLK's record between an action and the choice of the next phase. -/
structure ClockActed (s : State) : Prop where
  active : s.eng.phase = .assertClock ∨ s.eng.phase = .activeWait ∨ s.eng.phase = .sample → SclkActive s
  idle : s.eng.phase = .deassertClock ∨ s.eng.phase = .idleWait → SclkIdle s

/-- The clock actions drive their level, and the waits and the sample keep the record. -/
theorem clockActed_of_perform {s t : State} {a : Nat} {b : BitVec 3} (h : s.ClockInv) (hc : s.cfg.clkP = true)
    (hp : perform s.eng.phase a b s = .next t) : ClockActed t := by
  obtain ⟨hact, hidle⟩ := clockInv_iff.1 h hc
  rcases perform_next hp with ⟨hq, rfl⟩ | ⟨hq, rfl⟩ | ⟨hq, w, -, rfl⟩ | ⟨hq, rfl⟩ | ⟨hq | hq, rfl⟩ |
    ⟨hq, l, w, -, -, rfl⟩ | ⟨hq, e, -, rfl⟩ | ⟨hq, rfl⟩
  · constructor <;> simp [hq]
  · constructor <;> simp [hq]
  · constructor <;> simp [hq]
  · exact ⟨fun _ => levelOrUnknown_levelAfter _ _, by simp [hq]⟩
  · exact ⟨fun _ => hact (.inl hq), by simp [hq]⟩
  · exact ⟨by simp [hq], fun _ => hidle hq⟩
  · exact ⟨fun _ => hact (.inr (.inl hq)), by simp [hq]⟩
  · constructor <;> simp
  · exact ⟨by simp [hq], fun _ => levelOrUnknown_levelAfter _ _⟩

theorem endBit_clockFree {s : State} (hc : s.cfg.clkP = true) : ClockFree (endBit s).eng.phase := by
  unfold endBit
  split
  · exact startPhase_clockFree hc
  · split
    · exact startPhase_clockFree hc
    · exact .inl rfl

/-- With a clock present what follows the active half is the sample or the idle half (41_bit_engine.md R71). -/
theorem clockInv_goto_firstSample {s : State} (hc : s.cfg.clkP = true) (h : SclkActive s) (opr : Opr) :
    (goto (firstSample opr s.cfg) s).ClockInv := by
  unfold firstSample firstDeassert
  rw [if_pos hc]
  split <;> exact clockInv_of_sclkActive h (by simp [goto])

theorem clockInv_advance {s : State} (hc : s.cfg.clkP = true) (h : ClockActed s) : (advance s).ClockInv := by
  unfold advance
  split <;> rename_i hp
  · exact clockInv_of_clockFree fun _ => .inl hp
  · exact clockInv_of_clockFree fun _ => .inl rfl
  · rw [firstAssert, if_pos hc]
    exact clockInv_of_clockFree fun _ => .inr (.inr (.inr rfl))
  · have hact := h.active (.inl hp)
    split
    · exact clockInv_of_sclkActive hact (by simp)
    · exact clockInv_goto_firstSample hc hact _
  · have hact := h.active (.inr (.inl hp))
    split
    · exact clockInv_of_sclkActive hact (by simp)
    · exact clockInv_goto_firstSample hc hact _
  · rw [firstDeassert, if_pos hc]
    exact clockInv_of_sclkActive (h.active (.inr (.inr hp))) (by simp [goto])
  · split
    · exact clockInv_of_sclkIdle (h.idle (.inl hp)) rfl
    · exact clockInv_of_clockFree fun _ => endBit_clockFree hc
  · split
    · exact clockInv_of_sclkIdle (h.idle (.inr hp)) rfl
    · exact clockInv_of_clockFree fun _ => endBit_clockFree hc

theorem clockInv_of_engineTick {s t : State} (h : s.ClockInv) (hb : s.busy = true) (ht : engineTick s = .next t) :
    t.ClockInv := by
  obtain ⟨u, hu, rfl⟩ := engineTick_next ht
  rcases perform_fails_or_goes_on hu with ⟨-, e, -, rfl⟩ | ⟨hbusy, -⟩
  · rw [finishAction_ended _ rfl]
    exact clockInv_of_clockFree fun _ => .inl rfl
  · rw [finishAction_busy u (hbusy.trans hb)]
    have hcfg : u.cfg = s.cfg := by rw [perform_frame hu]
    cases hc : s.cfg.clkP with
    | false => exact clockInv_of_clockFree (by simp [hcfg, hc])
    | true => exact clockInv_advance (by rw [hcfg, hc]) (clockActed_of_perform h hc hu)

/-- Settles O46: the host's accesses keep SCLK's record and the phase, a reset and a NEW leave no claim about them, and an action of the
engine drives the level that the next phase asks for. -/
theorem stepKeepsClockInv : Obligations.StepKeepsClockInv := by
  intro s t h hstep
  have hstart : (hostAccess (hostNow s) (beginTick s)).ClockInv := clockInv_congr h (by simp) (by simp) (by simp)
  rcases step_next hstep with ⟨-, rfl⟩ | ⟨-, w, -, hw⟩ | ⟨-, -, -, hb, ht⟩ | ⟨-, -, -, rfl⟩
  · exact clockInv_of_clockFree (by simp [State.reset, BusConfig.reset])
  · exact clockInv_of_acceptWord hstart hw
  · exact clockInv_of_engineTick hstart (by simpa using hb) ht
  · exact hstart

end Sys2Proof.Machine
end

section
/-! PROOFS. What a tick can change: the configuration (O47), ERRVAL (O48) and the frame of a running command's tick (O51). -/

namespace Sys2Proof.Machine

/-! ### The configuration -/

theorem engineTick_cfg {s t : State} (h : engineTick s = .next t) : t.cfg = s.cfg := by rw [engineTick_frame h]

/-- Of the words written to CMD only a NEW changes the configuration (40_construction.md R58). -/
theorem acceptWord_cfg {w : Word} {s t : State} (h : acceptWord w s = .next t) :
    t.cfg = s.cfg ∨ ∃ k i o p, decode w = .ok (.new k i o p) ∧ t.cfg = newConfig k i o p s := by
  obtain ⟨-, ⟨i, hd, hi⟩ | ⟨-, rfl⟩⟩ := acceptWord_next h
  · obtain ⟨-, ⟨k, di, d, p, rfl, rfl⟩ | ⟨len, -, rfl⟩ | ⟨len, -, rfl⟩⟩ := exec_next hi
    · exact .inr ⟨k, di, d, p, hd, construct_cfg k di d p s⟩
    · exact .inl (acceptStream_cfg _ _ s)
    · exact .inl (acceptStream_cfg _ _ s)
  · exact .inl rfl

/-- A tick with a CMD write leaves ARG to the command (30_encoding.md R48). -/
theorem hostAccess_arg_of_cmdWrite {h : HostTick} {w : Word} (hw : cmdWrite h.reg = some w) (s : State) :
    (hostAccess h s).arg = s.arg :=
  hostAccess_arg_of_ne fun v hv => by simp [hv, cmdWrite] at hw

/-- Settles O47: outside reset only the decode tick of a NEW writes the configuration. -/
theorem configurationChangesOnlyByNewOrReset : Obligations.ConfigurationChangesOnlyByNewOrReset := by
  intro s t hstep hne
  rcases step_next hstep with ⟨hr, -⟩ | ⟨-, w, hw, ha⟩ | ⟨-, -, -, -, ht⟩ | ⟨-, -, -, rfl⟩
  · exact .inl hr
  · rcases acceptWord_cfg ha with hcfg | ⟨k, i, o, p, hd, hcfg⟩
    · exact absurd (by simpa using hcfg) hne
    · refine .inr ⟨w, k, i, o, p, hw, hd, ?_⟩
      simp [hcfg, newConfig, delayOperand, hostAccess_arg_of_cmdWrite hw]
  · exact absurd (by simpa using engineTick_cfg ht) hne
  · exact absurd (by simp) hne

/-! ### ERRVAL -/

theorem acceptWord_errval {w : Word} {s t : State} (h : acceptWord w s = .next t) : t.errval = s.errval := by
  obtain ⟨-, ⟨i, -, hi⟩ | ⟨-, rfl⟩⟩ := acceptWord_next h
  · obtain ⟨-, ⟨k, di, d, p, -, rfl⟩ | ⟨len, -, rfl⟩ | ⟨len, -, rfl⟩⟩ := exec_next hi <;> simp
  · rfl

/-- An engine tick writes ERRVAL only where its read fails (60_exceptions.md R86). -/
theorem engineTick_errval {s t : State} (h : engineTick s = .next t) :
    t.errval = s.errval ∨ (s.eng.phase = .sample ∧ t.busy = false ∧ t.result = .readFail ∧
      ∃ e, t.trace = s.trace ++ [.read (.fail e)] ∧ t.errval = errvalOf e) := by
  obtain ⟨u, hu, rfl⟩ := engineTick_next h
  rcases perform_fails_or_goes_on hu with ⟨hp, e, he, rfl⟩ | ⟨-, -, herr, -⟩
  · rw [finishAction_ended _ rfl]
    exact .inr ⟨hp, rfl, rfl, e, by simp [he], rfl⟩
  · exact .inl (by simpa using herr)

/-- Settles O48: outside reset only an engine tick with a failing read writes ERRVAL. -/
theorem errvalChangesOnlyByReadFail : Obligations.ErrvalChangesOnlyByReadFail := by
  intro s t hstep hne
  rcases step_next hstep with ⟨hr, -⟩ | ⟨-, w, -, ha⟩ | ⟨-, -, -, hb, ht⟩ | ⟨-, -, -, rfl⟩
  · exact .inl hr
  · exact absurd (by simpa using acceptWord_errval ha) hne
  · rcases engineTick_errval ht with herr | hfail
    · exact absurd (by simpa using herr) hne
    · exact .inr ⟨hb, by simpa using hfail⟩
  · exact absurd (by simp) hne

/-! ### The frame of an engine tick -/

theorem engineTick_latched {s t : State} (h : engineTick s = .next t) :
    t.eng.opr = s.eng.opr ∧ t.eng.base = s.eng.base ∧ t.eng.len = s.eng.len := by
  obtain ⟨u, hu, rfl⟩ := engineTick_next h
  simp only [finishAction_opr, finishAction_base, finishAction_len]
  rcases perform_fails_or_goes_on hu with ⟨-, e, -, rfl⟩ | ⟨-, -, -, heng⟩
  · exact ⟨rfl, rfl, rfl⟩
  · rw [heng]
    exact ⟨rfl, rfl, rfl⟩

/-- Only a SAMPLE writes BUF, and only the current word (41_bit_engine.md R69). -/
theorem memRead_of_engineTick {s t : State} (h : engineTick s = .next t) {x : Nat}
    (hx : s.eng.phase = .sample → x ≠ cursorAddress s) : memRead x t = memRead x s := by
  obtain ⟨u, hu, rfl⟩ := engineTick_next h
  rw [memRead_eq_of_buf (finishAction_buf u)]
  rcases perform_next hu with ⟨-, rfl⟩ | ⟨-, rfl⟩ | ⟨-, w, -, rfl⟩ | ⟨-, rfl⟩ | ⟨-, rfl⟩ | ⟨hp, l, w, -, -, rfl⟩ |
    ⟨-, e, -, rfl⟩ | ⟨-, rfl⟩
  any_goals rfl
  rw [memRead_memWrite, if_neg (hx hp)]
  rfl

/-- Only the clock phases drive SCLK (41_bit_engine.md R67, R70, 40_construction.md R58). -/
theorem engineTick_sclkLvl {s t : State} (h : engineTick s = .next t) (hi : s.eng.phase ≠ .initClock)
    (ha : s.eng.phase ≠ .assertClock) (hd : s.eng.phase ≠ .deassertClock) : t.sclkLvl = s.sclkLvl := by
  obtain ⟨u, hu, rfl⟩ := engineTick_next h
  rw [finishAction_sclkLvl]
  rcases perform_next hu with ⟨-, rfl⟩ | ⟨hp, -⟩ | ⟨-, w, -, rfl⟩ | ⟨hp, -⟩ | ⟨-, rfl⟩ | ⟨-, l, w, -, -, rfl⟩ |
    ⟨-, e, -, rfl⟩ | ⟨hp, -⟩
  any_goals rfl
  · exact absurd hp hi
  · exact absurd hp ha
  · exact absurd hp hd

/-- Only DRIVE_DATA drives MOSI (41_bit_engine.md R66). -/
theorem engineTick_mosiLvl {s t : State} (h : engineTick s = .next t) (hd : s.eng.phase ≠ .driveData) :
    t.mosiLvl = s.mosiLvl := by
  obtain ⟨u, hu, rfl⟩ := engineTick_next h
  rw [finishAction_mosiLvl]
  rcases perform_next hu with ⟨-, rfl⟩ | ⟨-, rfl⟩ | ⟨hp, -⟩ | ⟨-, rfl⟩ | ⟨-, rfl⟩ | ⟨-, l, w, -, -, rfl⟩ |
    ⟨-, e, -, rfl⟩ | ⟨-, rfl⟩
  any_goals rfl
  exact absurd hp hd

/-! ### The frame of the host's accesses -/

theorem hostAccess_regRdata_of_ne {h : HostTick} {s : State} (hr : ∀ r, h.reg ≠ .read r) :
    (hostAccess h s).regRdata = s.regRdata := by
  rw [hostAccess_regRdata]
  split
  · exact absurd ‹_› (hr _)
  · rfl

theorem hostAccess_bufRdata_of_ne {h : HostTick} {s : State} (hr : ∀ a, h.buf ≠ .read a) :
    (hostAccess h s).bufRdata = s.bufRdata := by
  rw [hostAccess_bufRdata]
  split
  · exact absurd ‹_› (hr _)
  · rfl

theorem memRead_hostAccess_of_ne {h : HostTick} {s : State} {x : Nat} (hw : ∀ a v, h.buf = .write a v → a.toNat ≠ x) :
    memRead x (hostAccess h s) = memRead x s := by
  rw [memRead_hostAccess]
  split
  · rw [if_neg fun hx => hw _ _ ‹_› hx.1.symm]
  · rfl

/-- The ticks of a running command outside reset are engine ticks after the host's accesses (60_exceptions.md R102.1). -/
theorem engineTick_of_step {s t : State} (hb : s.busy = true) (hr : resetTick s = false) (h : step s = .next t) :
    engineTick (hostAccess (hostNow s) (beginTick s)) = .next t := by
  rcases step_next h with ⟨hr', -⟩ | ⟨-, w, -, ha⟩ | ⟨-, -, -, -, ht⟩ | ⟨-, -, hb', -⟩
  · simp [hr] at hr'
  · simpa [hb] using (acceptWord_next ha).1
  · exact ht
  · simp [hb] at hb'

/-- Settles O51: the frame of the host's accesses, then the frame of the engine's action. -/
theorem runningTickFrame : Obligations.RunningTickFrame := by
  intro s t hb hr hstep
  have ht := engineTick_of_step hb hr hstep
  have hf := engineTick_frame ht
  obtain ⟨hopr, hbase, hlen⟩ := engineTick_latched ht
  refine ⟨by simpa using engineTick_cfg ht, by simpa using hopr, by simpa using hbase, by simpa using hlen,
    fun ha => ?_, fun hg => ?_, fun hu => ?_, fun x hx hw => ?_, fun hi ha hd => ?_, fun hd => ?_, ?_, ?_⟩
  · rw [hf]; exact hostAccess_arg_of_ne ha
  · rw [hf]; exact hostAccess_regRdata_of_ne hg
  · rw [hf]; exact hostAccess_bufRdata_of_ne hu
  · rw [memRead_of_engineTick ht (by simpa [cursorAddress, wordAddress] using hx), memRead_hostAccess_of_ne hw]
    rfl
  · simpa using engineTick_sclkLvl ht (by simpa using hi) (by simpa using ha) (by simpa using hd)
  · simpa using engineTick_mosiLvl ht (by simpa using hd)
  · rw [hf]; simp
  · rw [hf]; simp

end Sys2Proof.Machine
end

section
/-! PROOFS. The canonical form of BUF (O22). -/

namespace Sys2Proof.Machine

theorem Memory.wfFrom_cons {size lo : Nat} {c : Host.Cell} {m : Memory} :
    Memory.wfFrom size lo (c :: m) = true ↔ (lo ≤ c.1 ∧ c.1 < size) ∧ Memory.wfFrom size (c.1 + 1) m = true := by
  simp [Memory.wfFrom]

theorem Memory.read_cons_self (c : Host.Cell) (m : Memory) : Memory.read (c :: m) c.1 = some c.2 := if_pos rfl

theorem Memory.read_cons_of_ne {c : Host.Cell} {m : Memory} {a : Nat} (h : a ≠ c.1) :
    Memory.read (c :: m) a = Memory.read m a := if_neg h

/-- The first cells of two canonical buffers that read the same have the same address: the lower of two would be unwritten in the
other buffer. -/
theorem Memory.head_address_le {size lo : Nat} {c c' : Host.Cell} {m m' : Memory}
    (h' : Memory.wfFrom size lo (c' :: m') = true)
    (hr : ∀ a, Memory.read (c :: m) a = Memory.read (c' :: m') a) : c'.1 ≤ c.1 := by
  by_contra hlt
  obtain ⟨⟨-, hsize⟩, htail⟩ := wfFrom_cons.1 h'
  have hnone : Memory.read (c' :: m') c.1 = none :=
    read_none_of_lt _ c'.1 _ (wfFrom_cons.2 ⟨⟨le_rfl, hsize⟩, htail⟩) (by omega)
  simp [← hr, Memory.read_cons_self] at hnone

/-- Canonical buffers are determined by their reads, from any lower bound of their addresses on. -/
theorem Memory.eq_of_wfFrom_of_read {size : Nat} (m m' : Memory) (lo lo' : Nat) (h : Memory.wfFrom size lo m = true)
    (h' : Memory.wfFrom size lo' m' = true) (hr : ∀ a, Memory.read m a = Memory.read m' a) : m = m' := by
  induction m generalizing m' lo lo' with
  | nil =>
    cases m' with
    | nil => rfl
    | cons c' m' => simpa [Memory.read, Memory.read_cons_self] using hr c'.1
  | cons c m ih =>
    cases m' with
    | nil => simpa [Memory.read, Memory.read_cons_self] using hr c.1
    | cons c' m' =>
      have haddr : c.1 = c'.1 := le_antisymm (head_address_le h fun a => (hr a).symm) (head_address_le h' hr)
      have hval : c.2 = c'.2 := by
        have hc := hr c.1
        rw [read_cons_self, haddr, read_cons_self] at hc
        exact Option.some.inj hc
      obtain ⟨-, hm⟩ := wfFrom_cons.1 h
      obtain ⟨-, hm'⟩ := wfFrom_cons.1 h'
      have htail : m = m' := by
        refine ih m' _ _ hm hm' fun a => ?_
        by_cases ha : a = c.1
        · rw [read_none_of_lt m _ a hm (by omega), read_none_of_lt m' _ a hm' (by omega)]
        · rw [← read_cons_of_ne ha, hr a, read_cons_of_ne (haddr ▸ ha)]
      rw [Prod.ext haddr hval, htail]

/-- Settles O22, by induction on the two lists of cells. -/
theorem bufferFormIsCanonical : Obligations.BufferFormIsCanonical :=
  fun m m' h h' hr => Memory.eq_of_wfFrom_of_read m m' 0 0 h h' hr

end Sys2Proof.Machine
end

section
/-! PROOFS. The register port: the bits of STATUS (O17) and CFG (O16), and what a register access does (O18, O19). -/

namespace Sys2Proof.Machine

/-! ### The bits of STATUS and CFG -/

/-- Settles O17, by the two flags and the four outcomes (10_state.md R23). -/
theorem statusBits : Obligations.StatusBits := by
  refine ⟨fun s => ?_, rfl⟩
  simp only [regRead, statusWord]
  generalize s.busy = b
  generalize s.cfg.configured = c
  cases s.result <;> revert b c <;> decide

/-- CFG is the command word of the NEW that sets its configuration bits (10_state.md R25). -/
theorem cfgWord_eq_encode (c : BusConfig) : cfgWord c = encode (.new c.clkP c.dinP c.doutP c.cpol) := rfl

theorem encode_new_bits (k i o : Bool) (p : Polarity) :
    encode (.new k i o p) &&& 0xFFFFFFC3#32 = 0 ∧
    (encode (.new k i o p)).getLsbD 2 = k ∧ (encode (.new k i o p)).getLsbD 3 = i ∧
    (encode (.new k i o p)).getLsbD 4 = o ∧ (encode (.new k i o p)).getLsbD 5 = p.bit := by
  cases p <;> revert k i o <;> decide

/-- Settles O16: CFG is the word of a NEW, and NEW latches the configuration that its word names. -/
theorem cfgReadsBackNew : Obligations.CfgReadsBackNew := by
  refine ⟨fun s => ?_, fun s k i o p hb => ?_, rfl⟩
  · rw [regRead, cfgWord_eq_encode]
    exact encode_new_bits _ _ _ _
  · refine ⟨construct k i o p s, issue_idle hb _, ?_⟩
    rw [regRead, cfgWord_eq_encode, construct_cfg]
    rfl

/-! ### Register accesses -/

/-- The answer of an idle block's tick without a CMD write. -/
theorem step_idle {s : State} (hb : s.busy = false) (hr : resetTick s = false) (hc : cmdWrite (hostNow s).reg = none) :
    step s = .next (hostAccess (hostNow s) (beginTick s)) := by
  have hw : writesRunningRange (hostNow s).buf (beginTick s) = false := by
    cases (hostNow s).buf <;> simp [writesRunningRange, inRunningRange, streamRunning, hb]
  simp [step, tickOnce, workTick, hr, hc, hw, hb]

/-- Settles O19: an idle block's tick is the host's accesses, and of the registers but CMD only ARG stores the value. -/
theorem registerWriteOfIdleBlock : Obligations.RegisterWriteOfIdleBlock := by
  intro s r v hb hr hne hn
  have hcmd : cmdWrite (hostNow s).reg = none := by
    rw [hn]
    cases r with
    | cmd => exact absurd rfl hne
    | _ => rfl
  refine ⟨_, step_idle hb hr hcmd, ?_⟩
  rw [hn]
  cases r <;> rfl

/-- A tick changes no register before its accesses. -/
theorem regRead_beginTick (r : RegName) (s : State) : regRead r (beginTick s) = regRead r s := by cases r <;> rfl

theorem hostAccess_read (r : RegName) (b : BufOp) (s : State) :
    hostAccess { rst := false, reg := .read r, buf := b } s =
      { hostAccess { rst := false, reg := .idle, buf := b } s with regRdata := regRead r s } := by
  cases b with
  | idle => rfl
  | read a => rfl
  | write a v =>
    simp only [hostAccess, bufWriteAccess]
    split <;> rfl

/-- The engine's action does not see the register read data, and keeps them (20_memory.md R39). -/
theorem engineTick_set_regRdata (x : Word) (s : State) :
    engineTick { s with regRdata := x } = mapNext (fun t => { t with regRdata := x }) (engineTick s) := by
  refine (engineTick_withPorts s.arg x s.bufRdata s).trans ?_
  cases ht : engineTick s with
  | next t =>
    have harg : t.arg = s.arg := by rw [engineTick_frame ht]
    have hdata : t.bufRdata = s.bufRdata := by rw [engineTick_frame ht]
    simp only [mapNext, withPorts, ← harg, ← hdata]
  | fault f => rfl
  | refused f => rfl

/-- A tick with a register read is the tick without it, but for the data read (20_memory.md R39). -/
theorem workTick_read (r : RegName) (b : BufOp) (s : State) :
    workTick { rst := false, reg := .read r, buf := b } s =
      mapNext (fun t => { t with regRdata := regRead r s }) (workTick { rst := false, reg := .idle, buf := b } s) := by
  unfold workTick
  rw [hostAccess_read, engineTick_set_regRdata]
  split
  · rfl
  · split <;> rfl

theorem step_of_no_cmdWrite {s : State} (hr : resetTick s = false) (hc : cmdWrite (hostNow s).reg = none) :
    step s = workTick (hostNow s) (beginTick s) := by
  simp [step, tickOnce, hr, hc]

theorem regRdata_of_step {s t : State} {r : RegName} (hn : (hostNow s).reg = .read r) (hr : resetTick s = false)
    (h : step s = .next t) : t.regRdata = regRead r s := by
  have hread : (hostAccess (hostNow s) (beginTick s)).regRdata = regRead r s := by
    rw [hostAccess_regRdata, hn]
    exact regRead_beginTick r s
  rcases step_next h with ⟨hr', -⟩ | ⟨-, w, hw, -⟩ | ⟨-, -, -, -, ht⟩ | ⟨-, -, -, rfl⟩
  · simp [hr] at hr'
  · simp [hn, cmdWrite] at hw
  · rw [engineTick_frame ht]
    exact hread
  · exact hread

/-- Settles O18: the data are those that the start of the tick reads, and the engine does not see them. -/
theorem registerReadReturnsContent : Obligations.RegisterReadReturnsContent := by
  refine ⟨fun s r t hn hr h => ?_, fun s r hb hr hn => ?_, fun s t r b hs hl h => ?_⟩
  · rw [regRdata_of_step hn hr h]
    cases r <;> rfl
  · rw [step_idle hb hr (by rw [hn]; rfl), hn, hostAccess_read, regRead_beginTick]
    rfl
  · have hr : ∀ g, resetTick { s with hostIn := { rst := false, reg := g, buf := b } :: hs } = false := fun g => hl
    rw [step_of_no_cmdWrite (hr _) rfl] at h ⊢
    refine (workTick_read r b _).trans ?_
    rw [regRead_beginTick]
    exact congrArg (mapNext _) h

end Sys2Proof.Machine
end

section
/-! PROOFS. The byte port: what a host write of a byte stores (O20), and what a host read of a byte returns and leaves alone (O21). -/

namespace Sys2Proof.Machine

/-! ### Byte writes -/

/-- A byte write touches BUF only (20_memory.md R33). -/
theorem hostAccess_bufWrite_frame (a : Word) (v : Byte) (s : State) :
    hostAccess { rst := false, reg := .idle, buf := .write a v } s =
      { s with buf := (hostAccess { rst := false, reg := .idle, buf := .write a v } s).buf } := by
  simp only [hostAccess, bufWriteAccess]
  split <;> rfl

/-- Settles O20: an idle block's tick is the host's accesses, and of these only the byte write acts. -/
theorem hostByteWriteStores : Obligations.HostByteWriteStores := by
  intro s a v hb hr hn
  refine ⟨_, step_idle hb hr (by rw [hn]; rfl), fun x => ?_, ?_⟩
  · rw [memRead_hostAccess, hn]
    rfl
  · rw [hn]
    exact hostAccess_bufWrite_frame a v _

/-! ### The value of a byte read -/

theorem inRunningRange_iff {a : Word} {s : State} : inRunningRange a s = true ↔
    streamRunning s = true ∧ s.eng.base.toNat ≤ a.toNat ∧ a.toNat < s.eng.base.toNat + s.eng.len.toNat := by
  simp [inRunningRange, inRange]

/-- Outside BUF a read returns 0 (20_memory.md R33). -/
theorem bufReadData_of_outside {a : Word} {s : State} (ha : Config.bufSize ≤ a.toNat) : bufReadData a s = 0 :=
  if_pos ha

/-- In the range of a running command a read returns a free value (70_reset_and_hazards.md R108). -/
theorem bufReadData_of_inRunningRange {a : Word} {s : State} (ha : a.toNat < Config.bufSize)
    (hrun : inRunningRange a s = true) : bufReadData a s = Config.freeByte s.tick := by
  rw [bufReadData, if_neg (by omega), if_pos hrun]

/-- Elsewhere in BUF a read returns the byte (20_memory.md R33). -/
theorem bufReadData_of_written {a : Word} {s : State} {w : Byte} (ha : a.toNat < Config.bufSize)
    (hw : memRead a.toNat s = some w) (hrun : ¬ inRunningRange a s = true) : bufReadData a s = w := by
  rw [bufReadData, if_neg (by omega), if_neg hrun, hw, Option.getD_some]

/-- Where nothing has been written since reset a read returns a free value, running or not (70_reset_and_hazards.md R104). -/
theorem bufReadData_of_unwritten {a : Word} {s : State} (ha : a.toNat < Config.bufSize)
    (hw : memRead a.toNat s = none) : bufReadData a s = Config.freeByte s.tick := by
  rw [bufReadData, if_neg (by omega), hw, Option.getD_none, ite_self]

/-- The decode tick of a command keeps the byte read data. -/
theorem acceptWord_bufRdata {w : Word} {s t : State} (h : acceptWord w s = .next t) : t.bufRdata = s.bufRdata := by
  obtain ⟨-, ⟨i, -, hi⟩ | ⟨-, rfl⟩⟩ := acceptWord_next h
  · obtain ⟨-, ⟨k, di, d, p, -, rfl⟩ | ⟨len, -, rfl⟩ | ⟨len, -, rfl⟩⟩ := exec_next hi <;> simp
  · rfl

/-- A tick that reads a byte ends with the data that its start reads, whatever else happens in it (20_memory.md R33). -/
theorem bufRdata_of_step {s t : State} {a : Word} (hn : (hostNow s).buf = .read a) (hr : resetTick s = false)
    (h : step s = .next t) : t.bufRdata = bufReadData a (beginTick s) := by
  have hread : (hostAccess (hostNow s) (beginTick s)).bufRdata = bufReadData a (beginTick s) := by
    rw [hostAccess_bufRdata, hn]
    exact bufReadData_regReadAccess a _ _
  rcases step_next h with ⟨hr', -⟩ | ⟨-, w, -, ha⟩ | ⟨-, -, -, -, ht⟩ | ⟨-, -, -, rfl⟩
  · simp [hr] at hr'
  · rw [acceptWord_bufRdata ha]
    exact hread
  · rw [engineTick_frame ht]
    exact hread
  · exact hread

/-! ### A byte read has no side effect -/

/-- The state with other byte read data. -/
def setBufRdata (y : Byte) (s : State) : State := { s with bufRdata := y }

theorem hostAccess_bufRead (g : RegOp) (a : Word) (s : State) :
    hostAccess { rst := false, reg := g, buf := .read a } s =
      setBufRdata (bufReadData a s) (hostAccess { rst := false, reg := g, buf := .idle } s) := by
  rw [← bufReadData_regReadAccess a g s]
  cases g with
  | idle => rfl
  | read r => rfl
  | write r v => cases r <;> rfl

section
variable (y : Byte) (s : State)

theorem issue_setBufRdata (t : State) :
    issue (setBufRdata y s) (setBufRdata y t) = mapNext (setBufRdata y) (issue s t) := by
  simp only [issue, show (setBufRdata y s).busy = s.busy from rfl]
  split <;> rfl

theorem construct_setBufRdata (k i o : Bool) (p : Polarity) :
    construct k i o p (setBufRdata y s) = setBufRdata y (construct k i o p s) := by cases k <;> rfl

theorem startStream_setBufRdata (opr : Opr) (len : BitVec 16) :
    startStream opr len (setBufRdata y s) = setBufRdata y (startStream opr len s) := by
  simp only [startStream, show (setBufRdata y s).cfg = s.cfg from rfl]
  split <;> rfl

theorem acceptStream_setBufRdata (opr : Opr) (len : BitVec 16) :
    acceptStream opr len (setBufRdata y s) = setBufRdata y (acceptStream opr len s) := by
  simp only [acceptStream, startStream_setBufRdata, show stateChecks len (setBufRdata y s) = stateChecks len s from rfl]
  split <;> rfl

/-- The decode of a command word does not see the byte read data, and keeps them (20_memory.md R39). -/
theorem acceptWord_setBufRdata (w : Word) :
    acceptWord w (setBufRdata y s) = mapNext (setBufRdata y) (acceptWord w s) := by
  unfold acceptWord
  split
  case h_1 i _ =>
    cases i with
    | new k di d p => simp only [exec, execNew, construct_setBufRdata, issue_setBufRdata]
    | write len => simp only [exec, execWrite, acceptStream_setBufRdata, issue_setBufRdata]
    | transfer len => simp only [exec, execTransfer, acceptStream_setBufRdata, issue_setBufRdata]
  case h_2 => exact issue_setBufRdata y s (raiseIllegal s)

/-- The engine's action does not see the byte read data, and keeps them (20_memory.md R39). -/
theorem engineTick_setBufRdata : engineTick (setBufRdata y s) = mapNext (setBufRdata y) (engineTick s) := by
  refine (engineTick_withPorts s.arg s.regRdata y s).trans ?_
  cases ht : engineTick s with
  | next t =>
    rw [engineTick_frame ht]
    rfl
  | fault f => rfl
  | refused f => rfl

end

/-- A tick without a CMD write that reads a byte is the tick without the read, but for the data read (20_memory.md R39). -/
theorem workTick_bufRead (g : RegOp) (a : Word) (s : State) :
    workTick { rst := false, reg := g, buf := .read a } s =
      mapNext (setBufRdata (bufReadData a s)) (workTick { rst := false, reg := g, buf := .idle } s) := by
  simp only [workTick, writesRunningRange, Bool.false_eq_true, if_false, hostAccess_bufRead, engineTick_setBufRdata]
  split <;> rfl

theorem step_of_cmdWrite {s : State} {w : Word} (hr : resetTick s = false) (hc : cmdWrite (hostNow s).reg = some w) :
    step s = acceptWord w (hostAccess (hostNow s) (beginTick s)) := by
  simp [step, tickOnce, hr, hc]

/-- A tick that reads a byte is the tick without the read, but for the data read, whatever the register access (20_memory.md R39). -/
theorem step_bufRead {s : State} (hl : s.rstLast = false) (a : Word) (g : RegOp) (hs : List HostTick) :
    step { s with hostIn := { rst := false, reg := g, buf := .read a } :: hs } =
      mapNext (setBufRdata (bufReadData a (beginTick { s with hostIn := { rst := false, reg := g, buf := .idle } :: hs })))
        (step { s with hostIn := { rst := false, reg := g, buf := .idle } :: hs }) := by
  have hr (b : BufOp) : resetTick { s with hostIn := { rst := false, reg := g, buf := b } :: hs } = false := hl
  cases hc : cmdWrite g with
  | some w =>
    rw [step_of_cmdWrite (hr _) hc, step_of_cmdWrite (hr _) hc, ← acceptWord_setBufRdata]
    exact congrArg (acceptWord w) (hostAccess_bufRead g a _)
  | none =>
    rw [step_of_no_cmdWrite (hr _) hc, step_of_no_cmdWrite (hr _) hc]
    exact workTick_bufRead g a _

/-- Settles O21: the data are those that the start of the tick reads, and neither a command's decode nor the engine sees them. -/
theorem hostByteReadReturns : Obligations.HostByteReadReturns := by
  refine ⟨fun s t a hn hr h => ?_, fun s a hb hr hn => ⟨bufReadData a (beginTick s), ?_⟩, fun s t a g hs hl h =>
    ⟨_, (step_bufRead hl a g hs).trans (congrArg (mapNext _) h)⟩⟩
  · rw [bufRdata_of_step hn hr h]
    exact ⟨bufReadData_of_outside,
      fun ha hrun hlo hhi => bufReadData_of_inRunningRange ha (inRunningRange_iff.2 ⟨hrun, hlo, hhi⟩),
      fun w ha hw hrun => bufReadData_of_written ha hw (mt inRunningRange_iff.1 hrun),
      bufReadData_of_unwritten (s := beginTick s)⟩
  · rw [step_idle hb hr (by rw [hn]; rfl), hn, hostAccess_bufRead]
    rfl

end Sys2Proof.Machine
end

section
/-! PROOFS. The command words (30_encoding.md R49 to R57): O1 to O5. -/

namespace Sys2Proof

/-! ### Encoding, then decoding -/

theorem decode_encode_new (k i o : Bool) (p : Polarity) : decode (encode (.new k i o p)) = .ok (.new k i o p) := by
  cases p <;> revert k i o <;> decide

/-- The decoder's stream case reads the LEN of a stream's word (R52). -/
theorem decodeStream_streamWord (mk : Nat → Instr) (n : BitVec 16) (op : BitVec 2) :
    decodeStream mk (n ++ 0#14 ++ op) = .ok (mk n.toNat) := by
  simp [decodeStream, reservedField_streamWord, configField_streamWord, lenField_streamWord]

theorem decode_encode_write {len : Nat} (h : len < 65536) : decode (encode (.write len)) = .ok (.write len) := by
  simp [decode, encode, opField_streamWord, decodeStream_streamWord, Nat.mod_eq_of_lt h]

theorem decode_encode_transfer {len : Nat} (h : len < 65536) :
    decode (encode (.transfer len)) = .ok (.transfer len) := by
  simp [decode, encode, opField_streamWord, decodeStream_streamWord, Nat.mod_eq_of_lt h]

/-- Settles O1, by the three forms of a command. -/
theorem decodeEncodeRoundTrip : Obligations.DecodeEncodeRoundTrip := by
  intro i hi
  cases i with
  | new k i o p => exact decode_encode_new k i o p
  | write len => exact decode_encode_write (of_decide_eq_true hi)
  | transfer len => exact decode_encode_transfer (of_decide_eq_true hi)

/-! ### Decoding, then encoding -/

theorem polarityOfBit_bit (b : Bool) : (polarityOfBit b).bit = b := by cases b <;> rfl

theorem encode_new_of_configBits {c : Word} (hlt : c.toNat < 64) (hop : c.toNat % 4 = 0) :
    encode (.new (c.getLsbD 2) (c.getLsbD 3) (c.getLsbD 4) (polarityOfBit (c.getLsbD 5))) = c := by
  apply BitVec.eq_of_toNat_eq
  simp only [encode_new_toNat, polarityOfBit_bit, BitVec.getLsbD, Nat.toNat_testBit]
  omega

theorem streamWord_of_mod {c : Word} {op : BitVec 2} (h : c.toNat % 65536 = op.toNat) :
    (BitVec.ofNat 16 (c.toNat / 65536) ++ 0#14 ++ op : Word) = c := by
  apply BitVec.eq_of_toNat_eq
  rw [streamWord_toNat, BitVec.toNat_ofNat]
  omega

/-- Settles O2, by the three cases of the decoder that answer a command. -/
theorem encodeDecodeRoundTrip : Obligations.EncodeDecodeRoundTrip := by
  intro c i h
  have hlen : c.toNat / 65536 < 65536 := by omega
  rcases decode_cases c with ⟨_, d⟩ | ⟨_, _, d⟩ | ⟨_, _, _, d⟩ | ⟨_, _, _, d⟩ | ⟨hlt, hop, d⟩ | ⟨hm, d⟩ | ⟨hm, d⟩ <;>
    cases d.symm.trans h
  · exact ⟨encode_new_of_configBits hlt hop, rfl⟩
  · exact ⟨streamWord_of_mod hm, decide_eq_true hlen⟩
  · exact ⟨streamWord_of_mod hm, decide_eq_true hlen⟩

/-! ### The illegal words -/

theorem decode_error_iff (c : Word) : (∃ e, decode c = .error e) ↔
    (c.toNat % 4 = 3 ∨ c.toNat / 64 % 1024 ≠ 0 ∨ (c.toNat % 4 = 0 ∧ c.toNat / 65536 ≠ 0) ∨
      ((c.toNat % 4 = 1 ∨ c.toNat % 4 = 2) ∧ c.toNat / 4 % 16 ≠ 0)) := by
  rcases decode_cases c with ⟨_, d⟩ | ⟨_, _, d⟩ | ⟨_, _, _, d⟩ | ⟨_, _, _, d⟩ | ⟨_, _, d⟩ | ⟨_, d⟩ | ⟨_, d⟩ <;>
    simp only [d, reduceCtorEq, exists_false, false_iff, Except.error.injEq, exists_eq', true_iff] <;> omega

theorem Machine.acceptWord_of_error {c : Word} {e : DecodeError} (h : decode c = .error e) (s : Machine.State) :
    Machine.acceptWord c s = Machine.issue s (Machine.raiseIllegal s) := by
  simp only [Machine.acceptWord, h]

/-- Settles O3: the decoder's error cases are R54's, and an idle block answers them with `raiseIllegal`. -/
theorem illegalWordsExactly : Obligations.IllegalWordsExactly := by
  refine fun c => ⟨decode_error_iff c, fun s hb ⟨e, he⟩ => ?_⟩
  rw [Machine.acceptWord_of_error he, Machine.issue_idle hb]
  rfl

/-! ### The opcode map (R53) -/

theorem decode_ok_iff (c : Word) :
    ((∃ k i o p, decode c = .ok (.new k i o p)) ↔ c.toNat < 64 ∧ c.toNat % 4 = 0) ∧
    ((∃ len, decode c = .ok (.write len)) ↔ c.toNat % 65536 = 1) ∧
    ((∃ len, decode c = .ok (.transfer len)) ↔ c.toNat % 65536 = 2) := by
  rcases decode_cases c with ⟨_, d⟩ | ⟨_, _, d⟩ | ⟨_, _, _, d⟩ | ⟨_, _, _, d⟩ | ⟨_, _, d⟩ | ⟨_, d⟩ | ⟨_, d⟩ <;>
    simp [d] <;> omega

/-- NEW's mask clears the configuration bits and keeps every other field. -/
theorem fields_and_newMask (c : Word) :
    opField (c &&& 0xFFFFFFC3#32) = opField c ∧ configField (c &&& 0xFFFFFFC3#32) = 0 ∧
    reservedField (c &&& 0xFFFFFFC3#32) = reservedField c ∧ lenField (c &&& 0xFFFFFFC3#32) = lenField c := by
  have ones {n : Nat} (x m : BitVec n) (h : m = BitVec.allOnes n) : x &&& m = x := by rw [h, BitVec.and_allOnes]
  simp only [opField, configField, reservedField, lenField, BitVec.extractLsb'_and]
  exact ⟨ones _ _ (by decide), BitVec.and_zero, ones _ _ (by decide), ones _ _ (by decide)⟩

theorem and_newMask_eq_zero_iff (c : Word) : c &&& 0xFFFFFFC3#32 = 0 ↔ c.toNat < 64 ∧ c.toNat % 4 = 0 := by
  have fields := fields_and_newMask c
  simp only [← BitVec.toNat_inj, opField_toNat, configField_toNat, reservedField_toNat, lenField_toNat,
    BitVec.ofNat_eq_ofNat, BitVec.toNat_ofNat, Nat.zero_mod] at fields ⊢
  generalize (c &&& 0xFFFFFFC3#32).toNat = x at *
  omega

/-- The streams' mask keeps CMD[15:0]. -/
theorem and_streamMask_eq_iff (c v : Word) :
    c &&& 0x0000FFFF#32 = v ↔ c.toNat % 65536 = v.toNat := by
  rw [← BitVec.toNat_inj, BitVec.toNat_and]
  exact Eq.congr_left (Nat.and_two_pow_sub_one_eq_mod c.toNat 16)

/-- Settles O4: a masked word and the command it decodes to are the same condition on CMD's number. -/
theorem opcodeMasksSelect : Obligations.OpcodeMasksSelect := by
  intro c
  obtain ⟨hnew, hwrite, htransfer⟩ := decode_ok_iff c
  exact ⟨(and_newMask_eq_zero_iff c).trans hnew.symm, (and_streamMask_eq_iff c 1).trans hwrite.symm,
    (and_streamMask_eq_iff c 2).trans htransfer.symm⟩

/-! ### The spec's table (R57) -/

/-- Settles O5: the table's words are those of their commands, whose decodings the round trip gives. -/
theorem specCommandWords : Obligations.SpecCommandWords :=
  ⟨fun _ => ⟨rfl, rfl, rfl, rfl, rfl, rfl, rfl, rfl, rfl⟩,
    decode_encode_new true true true .idleHigh, decode_encode_new true false true .idleLow,
    decode_encode_write (len := 1) (by decide), decode_encode_transfer (len := 65535) (by decide),
    by decide, by decide, by decide⟩

end Sys2Proof
end

section
/-! PROOFS. Issuing a well-formed command by its word (30_encoding.md R48, R56): O7 and O9. -/

namespace Sys2Proof.Machine

/-- A well-formed command's word, written to CMD, runs the command. -/
theorem acceptWord_encode {i : Instr} (hi : i.wf = true) (s : State) : acceptWord (encode i) s = exec i s := by
  simp only [acceptWord, decodeEncodeRoundTrip i hi]

theorem hostAccess_cmdTick (w : Word) (s : State) : hostAccess (cmdTick w) s = s := rfl

theorem hostAccess_argTick (a : Word) (s : State) : hostAccess (argTick a) s = { s with arg := a } := rfl

/-- The tick of a well-formed command's CMD write. -/
theorem step_encode {i : Instr} (hi : i.wf = true) {s : State} (hl : s.rstLast = false)
    (hn : hostNow s = cmdTick (encode i)) : step s = exec i (beginTick s) := by
  have hr : resetTick s = false := by simp [resetTick, hn, hl, cmdTick]
  rw [step_of_cmdWrite (w := encode i) hr (by rw [hn]; rfl), hn, hostAccess_cmdTick, acceptWord_encode hi]

/-- The tick of an idle block's ARG write. -/
theorem step_argTick {s : State} {a : Word} (hb : s.busy = false) (hl : s.rstLast = false)
    (hn : hostNow s = argTick a) : step s = .next { beginTick s with arg := a } := by
  have hr : resetTick s = false := by simp [resetTick, hn, hl, argTick]
  rw [step_idle hb hr (by rw [hn]; rfl), hn, hostAccess_argTick]

theorem ticks_one (s : State) : ticks 1 s = step s := by
  rw [ticks_succ]
  cases step s <;> rfl

/-- Settles O9: the ARG write's tick, then the CMD write's. -/
theorem hostWritesIssueCommand : Obligations.HostWritesIssueCommand := by
  intro s i a hi hb hl hh
  have hn : hostNow s = argTick a := by rw [hostNow, hh]; rfl
  have hn' : hostNow { beginTick s with arg := a } = cmdTick (encode i) := by
    simp [hostNow, beginTick, hh, hostIssue]
  have hl' : (beginTick s).rstLast = false := by simp [hn, argTick]
  rw [ticks_succ, step_argTick hb hl hn]
  exact (ticks_one _).trans (step_encode hi hl' hn')

theorem tableWord_toNat (w : Word) : tableWord 32 w.toNat = w := by
  rw [tableWord, Nat.mod_eq_of_lt w.isLt, BitVec.ofNat_toNat, BitVec.setWidth_eq]

/-- Settles O7: the placed word is the next tick's CMD write. -/
theorem placedWordRunsNext : Obligations.PlacedWordRunsNext := fun _ i hi =>
  step_encode hi rfl (congrArg cmdTick (tableWord_toNat (encode i)))

end Sys2Proof.Machine
end

section
/-! PROOFS. NEW (40_construction.md): its decode tick (O14) and the whole command (O15). -/

namespace Sys2Proof.Machine

/-! ### The decode tick (R58) -/

/-- An idle block accepts every NEW. -/
theorem exec_new {s : State} (hb : s.busy = false) (k i o : Bool) (p : Polarity) :
    exec (.new k i o p) s = .next (construct k i o p s) := issue_idle hb _

/-- Settles O14: an idle block accepts NEW, and `construct` latches with a clock and without one as R58 says. -/
theorem newLatchesConfiguration : Obligations.NewLatchesConfiguration := by
  intro s k i o p hb
  rw [exec_new hb]
  cases k with
  | true => rfl
  | false => simp [construct, newConfig, delayOperand, hb]

/-! ### The whole command (R58, R60, R61, R115) -/

/-- The tick of INIT_CLOCK ends a running NEW. -/
theorem engineTick_initClock {s : State} (hb : s.busy = true) (hp : s.eng.phase = .initClock) :
    engineTick s = .next (completeOk (initClock s)) := by
  have ha : advance (initClock s) = completeOk (initClock s) := by simp [advance, hp]
  rw [engineTick_phase (u := initClock s) hp hb rfl, ha]

/-- A NEW with a clock ends one tick after its decode tick. -/
theorem finishes_construct_clock {s : State} (hq : Quiet s) (i o : Bool) (p : Polarity) :
    Finishes 1 (construct true i o p s) (completeOk (initClock (beginTick (construct true i o p s)))) :=
  (finishes_iff ..).2 ⟨runsTo_one hq rfl (engineTick_initClock rfl rfl), rfl⟩

/-- A NEW without a clock ends in its decode tick. -/
theorem finishes_construct_noClock {s : State} (hb : s.busy = false) (i o : Bool) (p : Polarity) :
    Finishes 0 (construct false i o p s) (construct false i o p s) :=
  (finishes_iff ..).2 ⟨runsTo_zero _, hb⟩

/-- Settles O15: with a clock NEW's one action is INIT_CLOCK, without one it has none; what the last state holds is then read off
`completeOk`, `initClock` and `construct`, field by field. -/
theorem newDrivesClockIdleAndEnds : Obligations.NewDrivesClockIdleAndEnds := by
  intro s k i o p hb hq
  cases k with
  | true =>
    exact ⟨_, _, _, exec_new hb .., finishes_construct_clock hq i o p, rfl, rfl, rfl, ⟨_, rfl, rfl⟩,
      rfl, rfl, rfl, rfl, rfl, rfl⟩
  | false =>
    exact ⟨_, _, [], exec_new hb .., finishes_construct_noClock hb i o p, rfl, rfl, (List.append_nil _).symm, ⟨rfl, rfl⟩,
      rfl, rfl, rfl, rfl, rfl, rfl⟩

end Sys2Proof.Machine
end

section
/-! PROOFS. The decode tick of a command (41_bit_engine.md R62): O6, and the start of a stream (R65): O13. -/

namespace Sys2Proof.Machine

/-- Settles O6: the tick is `acceptWord` of the word, and an idle block answers an illegal word with `raiseIllegal`. -/
theorem stepRunsDecodedCommand : Obligations.StepRunsDecodedCommand := by
  refine fun s w hr hc => ⟨fun i hi => ?_, fun e he hb => ?_⟩
  · rw [step_of_cmdWrite hr hc]
    simp only [acceptWord, hi]
  · rw [step_of_cmdWrite hr hc, acceptWord_of_error he, issue_idle (by simpa using hb)]
    rfl

/-! ### The start of a stream -/

theorem lenOperand_toNat {len : Nat} (h : len < 65536) : (lenOperand len).toNat = len := Nat.mod_eq_of_lt h

theorem lenOperand_eq_zero_iff {len : Nat} (h : len < 65536) : lenOperand len = 0 ↔ len = 0 := by
  rw [bitVec_eq_zero_iff, lenOperand_toNat h]

/-- The state checks pass in a configured block whose BUF holds the range (60_exceptions.md R84). -/
theorem stateChecks_iff {len : Nat} (h : len < 65536) (s : State) :
    stateChecks (lenOperand len) s = true ↔ s.cfg.configured = true ∧ s.arg.toNat + len ≤ Config.bufSize := by
  simp [stateChecks, rangeFits, baseOperand, lenOperand_toNat h]

theorem streamEmpty_iff {len : Nat} (h : len < 65536) (opr : Opr) (c : BusConfig) :
    streamEmpty opr c (lenOperand len) = true ↔ len = 0 ∨ bitActionCount opr c = 0 := by
  rw [streamEmpty, Bool.or_eq_true, decide_eq_true_eq, decide_eq_true_eq, lenOperand_eq_zero_iff h]

/-- WRITE and TRANSFER differ in OPR alone (42_write.md R76, 43_transfer.md R79). -/
theorem exec_stream {s : State} (hb : s.busy = false) {i : Instr} {opr : Opr} {len : Nat}
    (hi : (i = .write len ∧ opr = .write) ∨ (i = .transfer len ∧ opr = .transfer)) :
    exec i s = .next (acceptStream opr (lenOperand len) s) := by
  rcases hi with ⟨rfl, rfl⟩ | ⟨rfl, rfl⟩ <;> exact issue_idle hb _

/-- Settles O13: an accepted command is `startStream`, whose two cases are the statement's. -/
theorem acceptedStreamStarts : Obligations.AcceptedStreamStarts := by
  intro s len hb hlen hconf hfits i opr hi
  rw [exec_stream hb hi, acceptStream, if_pos ((stateChecks_iff hlen s).2 ⟨hconf, hfits⟩), startStream]
  simp only [streamEmpty_iff hlen]
  rfl

end Sys2Proof.Machine
end

section
/-! PROOFS. The actions of the bit engine (41_bit_engine.md R66 to R70): O23, O24, O25 and O26. -/

namespace Sys2Proof.Machine

/-- Settles O23: `driveData` of a written word, then the next phase. -/
theorem driveDataDrivesTheBit : Obligations.DriveDataDrivesTheBit := by
  intro s w hb hp hw
  refine ⟨_, _, rfl, rfl, ?_⟩
  rw [← dataLevel_eq, engineTick_phase (u := driveMosi (dataLevel w s.eng.bidx) s) hp hb (driveData_some hw),
    advance, driveMosi_eng, hp]
  rfl

/-- Settles O24: `assertClock` and `deassertClock`, with the record written out. -/
theorem clockActionsDriveAndLoad : Obligations.ClockActionsDriveAndLoad := by
  refine fun s a b => ⟨fun p l hpl => ⟨_, rfl, ?_⟩, rfl, rfl, rfl, rfl⟩
  rcases hpl with ⟨rfl, rfl⟩ | ⟨rfl, rfl⟩ <;> rfl

/-- A SAMPLE that reads a level writes the current word and goes on (41_bit_engine.md R69, R71). -/
theorem engineTick_sample {s : State} {w : Byte} {l : Level} (hb : s.busy = true) (hp : s.eng.phase = .sample)
    (hw : memRead (cursorAddress s) s = some w) (hl : misoResult s = readLevel l) :
    engineTick s = .next (advance (memWrite (cursorAddress s) (sampledByte l w s.eng.bidx) (readMiso s))) :=
  engineTick_phase hp hb (sample_level hl hw)

/-- Settles O26: the write of the current word, which `advance` keeps. -/
theorem sampleWritesOneBit : Obligations.SampleWritesOneBit := by
  intro s w l hb hp hw hl
  have hread (a : Nat) := memRead_memWrite (cursorAddress s) a (sampledByte l w s.eng.bidx) (readMiso s)
  refine ⟨_, sampledByte l w s.eng.bidx, engineTick_sample hb hp hw hl, by simp [hl], ?_,
    fun b => sampledByte_getLsbD l w s.eng.bidx b, fun a ha => ?_⟩
  · rw [memRead_eq_of_buf (advance_buf _)]
    exact (hread _).trans (if_pos rfl)
  · rw [memRead_eq_of_buf (advance_buf _)]
    exact (hread a).trans (if_neg ha)

/-! ### The active half of a bit -/

/-- With a clock present the active half is followed by the sample, if there is one, and then by the idle half
(41_bit_engine.md R71). -/
theorem firstSample_of_clock {opr : Opr} {c : BusConfig} (hc : c.clkP = true) :
    firstSample opr c = some (if sampleGuard opr c then .sample else .deassertClock) := by
  unfold firstSample firstDeassert
  rw [if_pos hc]
  split <;> rfl

theorem eng_eq_of_sameCursor {x y : State} (h : sameCursor x y) (p : Phase) :
    { y.eng with phase := p } = { x.eng with dcnt := y.eng.dcnt, phase := p } := by
  obtain ⟨hopr, hbase, hlen, hwidx, hbidx⟩ := h
  simp only [hopr, hbase, hlen, hwidx, hbidx]

/-- Settles O25: the run of the half, and the phase that follows it. -/
theorem activeHalfTakesDelaySpins : Obligations.ActiveHalfTakesDelaySpins := by
  intro s hb hq hc hp
  obtain ⟨y, st, ⟨hrun, -⟩, hseg, hbuf, hdcnt⟩ := half_segment true hq hb
  have hstart : setPhase (halfDrive true) s = s := by
    show setPhase .assertClock s = s
    rw [← hp]
    rfl
  have hend : goto (halfNext true y.eng.opr y.cfg) y =
      setPhase (if sampleGuard s.eng.opr s.cfg then .sample else .deassertClock) y := by
    show goto (firstSample y.eng.opr y.cfg) y = _
    rw [hseg.cursor.1, hseg.ran.cfg, firstSample_of_clock hc]
    rfl
  rw [hstart, hend] at hrun
  refine ⟨_, st, hrun, hseg.ran.trace, ?_, hbuf, hseg.busy.trans hb, hseg.result, ?_, ?_⟩
  · rw [setPhase_eng, eng_eq_of_sameCursor hseg.cursor, hdcnt]
  · exact hseg.ran.mosi.trans (recordAfter_spins ..)
  · exact hseg.ran.sclk.trans (recordAfter_spins ..)

end Sys2Proof.Machine
end

section
/-! PROOFS. The length of the action stream (41_bit_engine.md R64, R65): O29. -/

namespace Sys2Proof.Machine

theorem length_ite_nil {α : Type} (b : Bool) (l : List α) : (if b then l else []).length = b.toNat * l.length := by
  cases b <;> simp

theorem bitActions_length (opr : Opr) (c : BusConfig) : (bitActions opr c).length = bitActionCount opr c := by
  simp only [bitActions, bitActionCount, List.length_append, length_ite_nil, List.length_cons, List.length_nil,
    List.length_replicate]
  ring

theorem wordStream_length (opr : Opr) (c : BusConfig) (i : Nat) :
    (wordStream opr c i).length = 8 * (bitActions opr c).length := by
  simp only [wordStream, List.length_flatMap, List.length_map, List.map_const', List.sum_replicate, smul_eq_mul]
  rfl

/-- Settles O29: a word has eight bits, and the words of a stream are alike. -/
theorem streamLength : Obligations.StreamLength := by
  refine fun opr c len => ⟨bitActions_length opr c, ?_⟩
  simp only [stream, List.length_flatMap, wordStream_length, List.map_const', List.sum_replicate, List.length_range,
    smul_eq_mul]
  ring

end Sys2Proof.Machine
end

section
/-! PROOFS. The sequencer performs the action stream (41_bit_engine.md R65, R71): O30. -/

namespace Sys2Proof.Machine

/-! ### States that differ in the engine's registers only -/

/-- The state without the engine's registers: PHASE, DCNT and the cursor. -/
def hideEng (s : State) : State := { s with eng := Engine.reset }

theorem eq_of_hideEng {s v : State} (h : hideEng s = hideEng v) : s = { v with eng := s.eng } :=
  congrArg (fun x : State => { x with eng := s.eng }) h

theorem hideEng_beginTick {s v : State} (h : hideEng s = hideEng v) : hideEng (beginTick s) = hideEng (beginTick v) :=
  congrArg beginTick h

theorem hideEng_completeOk {s v : State} (h : hideEng s = hideEng v) :
    hideEng (completeOk s) = hideEng (completeOk v) :=
  (congrArg (fun x : State => hideEng (completeOk x)) h :)

theorem perform_hideEng (p : Phase) (a : Nat) (b : BitVec 3) (s : State) :
    mapNext hideEng (perform p a b (hideEng s)) = mapNext hideEng (perform p a b s) := by
  cases p with
  | driveData =>
    simp only [perform, driveData, show memRead a (hideEng s) = memRead a s from rfl]
    cases memRead a s <;> rfl
  | sample =>
    simp only [perform, sample, updateByte, show misoResult (hideEng s) = misoResult s from rfl,
      show memRead a (readMiso (hideEng s)) = memRead a s from rfl, show memRead a (readMiso s) = memRead a s from rfl]
    cases misoResult s <;> cases memRead a s <;> rfl
  | _ => rfl

/-- An action does not see the engine's registers: it is told its byte and its bit. -/
theorem perform_congr_hideEng {s v : State} (h : hideEng s = hideEng v) (p : Phase) (a : Nat) (b : BitVec 3) :
    mapNext hideEng (perform p a b s) = mapNext hideEng (perform p a b v) := by
  rw [← perform_hideEng p a b s, h, perform_hideEng]

/-! ### What is left of a bit, and of a stream -/

/-- The idle half of a bit (41_bit_engine.md R64). -/
def idleHalf (c : BusConfig) : List Phase :=
  if c.clkP then .deassertClock :: List.replicate c.delay.toNat .idleWait else []

/-- A bit from its sample on (R64). -/
def fromSample (opr : Opr) (c : BusConfig) : List Phase := (if sampleGuard opr c then [.sample] else []) ++ idleHalf c

/-- A bit from its active half on (R64). -/
def fromAssert (opr : Opr) (c : BusConfig) : List Phase :=
  (if c.clkP then .assertClock :: List.replicate c.delay.toNat .activeWait else []) ++ fromSample opr c

/-- The actions of a bit after that of phase `p`, where `n` waits of the half are left (R64). -/
def bitAfter (opr : Opr) (c : BusConfig) (n : Nat) : Phase → List Phase
  | .idle => []
  | .initClock => []
  | .driveData => fromAssert opr c
  | .assertClock => List.replicate n .activeWait ++ fromSample opr c
  | .activeWait => List.replicate n .activeWait ++ fromSample opr c
  | .sample => idleHalf c
  | .deassertClock => List.replicate n .idleWait
  | .idleWait => List.replicate n .idleWait

/-- The actions of a bit from the phase that the sequencer chooses on, `none` being ENDBIT (R71). -/
def bitFrom (opr : Opr) (c : BusConfig) : Option Phase → List Phase
  | some p => p :: bitAfter opr c c.delay.toNat p
  | none => []

/-- A wait counts the waits left down by one (R68). -/
theorem cons_bitAfter_wait {p : Phase} (hp : p = .activeWait ∨ p = .idleWait) {n : Nat} (hn : n ≠ 0) {opr : Opr}
    {c : BusConfig} : p :: bitAfter opr c (n - 1) p = bitAfter opr c n p := by
  obtain ⟨m, rfl⟩ := Nat.exists_eq_succ_of_ne_zero hn
  rcases hp with rfl | rfl <;> rfl

theorem bitFrom_firstDeassert (opr : Opr) (c : BusConfig) : bitFrom opr c (firstDeassert c) = idleHalf c := by
  unfold firstDeassert idleHalf
  split <;> rfl

theorem bitFrom_firstSample (opr : Opr) (c : BusConfig) : bitFrom opr c (firstSample opr c) = fromSample opr c := by
  unfold firstSample fromSample
  split
  · rfl
  · exact bitFrom_firstDeassert opr c

theorem bitFrom_firstAssert (opr : Opr) (c : BusConfig) : bitFrom opr c (firstAssert opr c) = fromAssert opr c := by
  unfold firstAssert fromAssert
  split
  · rfl
  · exact bitFrom_firstSample opr c

/-- The sequencer's choices give the action list of a bit (R64, R71). -/
theorem bitFrom_firstDrive (opr : Opr) (c : BusConfig) : bitFrom opr c (firstDrive opr c) = bitActions opr c := by
  have hparts : bitActions opr c = (if c.doutP then [.driveData] else []) ++ fromAssert opr c := by
    simp [bitActions, fromAssert, fromSample, idleHalf]
  rw [hparts]
  unfold firstDrive
  split
  · rfl
  · exact bitFrom_firstAssert opr c

/-- The actions `ps` of bit `b` of word `i`. -/
def tagged (i : Nat) (b : BitVec 3) (ps : List Phase) : List StreamAction :=
  ps.map fun p => { action := p, word := i, bit := b }

/-- The bits of a word after bit `b` (20_memory.md R34). -/
def bitsAfter (b : BitVec 3) : List (BitVec 3) := bitOrder.drop (8 - b.toNat)

theorem bitsAfter_eq_cons {b : BitVec 3} (h : b ≠ 0) : bitsAfter b = (b - 1) :: bitsAfter (b - 1) := by
  revert b
  decide

/-- The stream after bit `b` of word `i` (R65). -/
def streamAfter (opr : Opr) (c : BusConfig) (len i : Nat) (b : BitVec 3) : List StreamAction :=
  (bitsAfter b).flatMap (fun b' => tagged i b' (bitActions opr c)) ++
    (List.range' (i + 1) (len - (i + 1))).flatMap (wordStream opr c)

theorem wordStream_eq (opr : Opr) (c : BusConfig) (i : Nat) :
    wordStream opr c i =
      tagged i 7 (bitActions opr c) ++ (bitsAfter 7).flatMap fun b => tagged i b (bitActions opr c) := rfl

theorem streamAfter_of_bidx {b : BitVec 3} (hb : b ≠ 0) (opr : Opr) (c : BusConfig) (len i : Nat) :
    streamAfter opr c len i b = tagged i (b - 1) (bitActions opr c) ++ streamAfter opr c len i (b - 1) := by
  rw [streamAfter, bitsAfter_eq_cons hb, List.flatMap_cons, List.append_assoc]
  rfl

theorem streamAfter_of_word {len i : Nat} (hi : i + 1 < len) (opr : Opr) (c : BusConfig) :
    streamAfter opr c len i 0 = tagged (i + 1) 7 (bitActions opr c) ++ streamAfter opr c len (i + 1) 7 := by
  rw [streamAfter, show len - (i + 1) = len - (i + 1 + 1) + 1 by omega, List.range'_succ, List.flatMap_cons,
    wordStream_eq, List.append_assoc]
  rfl

theorem streamAfter_of_end {len i : Nat} (hi : len ≤ i + 1) (opr : Opr) (c : BusConfig) :
    streamAfter opr c len i 0 = [] := by
  rw [streamAfter, show len - (i + 1) = 0 by omega]
  rfl

theorem stream_eq_first {len : Nat} (h : len ≠ 0) (opr : Opr) (c : BusConfig) :
    stream opr c len = tagged 0 7 (bitActions opr c) ++ streamAfter opr c len 0 7 := by
  obtain ⟨n, rfl⟩ := Nat.exists_eq_succ_of_ne_zero h
  rw [stream, List.range_eq_range', List.range'_succ, List.flatMap_cons, wordStream_eq, List.append_assoc]
  rfl

/-! ### What the engine has left to do -/

/-- The waits of a clock half that the action of PHASE leaves (41_bit_engine.md R67, R68, R70). -/
def waitsLeft (s : State) : Nat :=
  if s.eng.phase = .activeWait ∨ s.eng.phase = .idleWait then s.eng.dcnt.toNat - 1 else s.cfg.delay.toNat

/-- The stream after the action of PHASE, where `n` waits of the half are left. -/
def restAfter (n : Nat) (s : State) : List StreamAction :=
  tagged s.eng.widx.toNat s.eng.bidx (bitAfter s.eng.opr s.cfg n s.eng.phase) ++
    streamAfter s.eng.opr s.cfg s.eng.len.toNat s.eng.widx.toNat s.eng.bidx

/-- The action of PHASE, on the current bit of the current word. -/
def currentAction (s : State) : StreamAction :=
  { action := s.eng.phase, word := s.eng.widx.toNat, bit := s.eng.bidx }

/-- The stream from the action of PHASE on. -/
def pending (s : State) : List StreamAction := currentAction s :: restAfter (waitsLeft s) s

/-- The sequencer leads from `s` to `t`, which has the actions `xs` left to do, or it ends the command because none is left. -/
def GoesOnTo (s : State) (xs : List StreamAction) (t : State) : Prop :=
  (xs = [] ∧ t = completeOk s) ∨ (hideEng t = hideEng s ∧ pending t = xs)

theorem pending_enter {s : State} {i : BitVec 16} {b : BitVec 3} {p : Phase} (ha : p ≠ .activeWait)
    (hi : p ≠ .idleWait) :
    pending { s with eng := { s.eng with widx := i, bidx := b, phase := p } } =
      tagged i.toNat b (bitFrom s.eng.opr s.cfg (some p)) ++
        streamAfter s.eng.opr s.cfg s.eng.len.toNat i.toNat b := by
  simp [pending, currentAction, restAfter, waitsLeft, ha, hi, bitFrom, tagged]

/-- The sequencer goes on to a wait phase. -/
theorem goesOnTo_setPhase_wait {s : State} {p : Phase} (hp : p = .activeWait ∨ p = .idleWait)
    (hrest : ∀ n, bitAfter s.eng.opr s.cfg n s.eng.phase = bitAfter s.eng.opr s.cfg n p) (hd : s.eng.dcnt ≠ 0) :
    GoesOnTo s (restAfter s.eng.dcnt.toNat s) (setPhase p s) := by
  have hpos : s.eng.dcnt.toNat ≠ 0 := fun h0 => hd (BitVec.eq_of_toNat_eq h0)
  refine .inr ⟨rfl, ?_⟩
  rw [restAfter, hrest, ← cons_bitAfter_wait hp hpos]
  simp [pending, currentAction, restAfter, waitsLeft, hp, tagged]

section
variable {s : State} (h : RunInv s) (ho : s.eng.opr ≠ .new)
include h ho

/-- INIT_CLOCK is NEW's (40_construction.md R58). -/
theorem RunInv.ne_initClock : s.eng.phase ≠ .initClock := by
  intro hi
  have hg := h.guarded
  simp [hi, phaseGuard, ho] at hg

theorem RunInv.startPhase_follows : Follows (startPhase s.eng.opr s.cfg) s.eng.opr s.cfg :=
  Machine.startPhase_follows ho (guard_lines h.guarded h.active (h.ne_initClock ho)).2

/-- A bit of a running stream has a first action (R71). -/
theorem RunInv.firstDrive_eq : firstDrive s.eng.opr s.cfg = some (startPhase s.eng.opr s.cfg) := by
  obtain ⟨hne, -⟩ := h.startPhase_follows ho
  unfold startPhase at hne ⊢
  cases hf : firstDrive s.eng.opr s.cfg with
  | none => simp [hf] at hne
  | some p => rfl

/-- The sequencer starts a bit. -/
theorem RunInv.pending_startPhase (i : BitVec 16) (b : BitVec 3) :
    pending { s with eng := { s.eng with widx := i, bidx := b, phase := startPhase s.eng.opr s.cfg } } =
      tagged i.toNat b (bitActions s.eng.opr s.cfg) ++
        streamAfter s.eng.opr s.cfg s.eng.len.toNat i.toNat b := by
  obtain ⟨-, -, -, ha, hid⟩ := h.startPhase_follows ho
  rw [pending_enter ha hid, ← h.firstDrive_eq ho, bitFrom_firstDrive]

theorem RunInv.goesOnTo_endBit :
    GoesOnTo s (streamAfter s.eng.opr s.cfg s.eng.len.toNat s.eng.widx.toNat s.eng.bidx) (Machine.endBit s) := by
  unfold Machine.endBit
  split
  case isTrue hb =>
    refine .inr ⟨rfl, ?_⟩
    rw [streamAfter_of_bidx hb]
    exact h.pending_startPhase ho s.eng.widx _
  case isFalse hb =>
    have hb0 : s.eng.bidx = 0 := not_not.1 hb
    rw [hb0]
    split
    case isTrue hw =>
      have hnext : (s.eng.widx + 1).toNat = s.eng.widx.toNat + 1 := by bv_omega
      refine .inr ⟨rfl, ?_⟩
      rw [h.pending_startPhase ho, hnext, streamAfter_of_word hw]
    case isFalse hw => exact .inl ⟨streamAfter_of_end (by omega) _ _, rfl⟩

theorem RunInv.goesOnTo_goto {n : Option Phase} (hn : ∀ p, n = some p → Follows p s.eng.opr s.cfg) :
    GoesOnTo s (tagged s.eng.widx.toNat s.eng.bidx (bitFrom s.eng.opr s.cfg n) ++
      streamAfter s.eng.opr s.cfg s.eng.len.toNat s.eng.widx.toNat s.eng.bidx) (Machine.goto n s) := by
  cases n with
  | none => exact h.goesOnTo_endBit ho
  | some p =>
    obtain ⟨-, -, -, ha, hid⟩ := hn p rfl
    exact .inr ⟨rfl, pending_enter ha hid⟩

/-- The sequencer's choice of the next phase goes on with the stream (R71). -/
theorem RunInv.goesOnTo_advance (hd : DcntActed s) :
    GoesOnTo s (restAfter s.eng.dcnt.toNat s) (Machine.advance s) := by
  have hsample (hz : s.eng.dcnt = 0) (hp : s.eng.phase = .assertClock ∨ s.eng.phase = .activeWait) :
      GoesOnTo s (restAfter s.eng.dcnt.toNat s) (Machine.goto (firstSample s.eng.opr s.cfg) s) := by
    have hrest : bitAfter s.eng.opr s.cfg s.eng.dcnt.toNat s.eng.phase = fromSample s.eng.opr s.cfg := by
      rcases hp with hp | hp <;> rw [hp, hz] <;> rfl
    rw [restAfter, hrest, ← bitFrom_firstSample]
    exact h.goesOnTo_goto ho (firstSample_follows ho)
  have hend (hz : s.eng.dcnt = 0) (hp : s.eng.phase = .deassertClock ∨ s.eng.phase = .idleWait) :
      GoesOnTo s (restAfter s.eng.dcnt.toNat s) (Machine.endBit s) := by
    have hrest : bitAfter s.eng.opr s.cfg s.eng.dcnt.toNat s.eng.phase = [] := by
      rcases hp with hp | hp <;> rw [hp, hz] <;> rfl
    rw [restAfter, hrest]
    exact h.goesOnTo_endBit ho
  unfold Machine.advance
  split <;> rename_i hp
  · exact absurd hp h.active
  · exact absurd hp (h.ne_initClock ho)
  · rw [restAfter, hp, bitAfter, ← bitFrom_firstAssert]
    exact h.goesOnTo_goto ho (firstAssert_follows ho)
  · rw [← hd.loaded (.inl hp)]
    split
    · exact goesOnTo_setPhase_wait (.inl rfl) (by rw [hp]; exact fun _ => rfl) ‹_›
    · exact hsample (not_not.1 ‹_›) (.inl hp)
  · split
    · exact goesOnTo_setPhase_wait (.inl rfl) (by rw [hp]; exact fun _ => rfl) ‹_›
    · exact hsample (not_not.1 ‹_›) (.inr hp)
  · rw [restAfter, hp, bitAfter, ← bitFrom_firstDeassert s.eng.opr]
    exact h.goesOnTo_goto ho (firstDeassert_follows ho)
  · rw [← hd.loaded (.inr hp)]
    split
    · exact goesOnTo_setPhase_wait (.inr rfl) (by rw [hp]; exact fun _ => rfl) ‹_›
    · exact hend (not_not.1 ‹_›) (.inl hp)
  · split
    · exact goesOnTo_setPhase_wait (.inr rfl) (by rw [hp]; exact fun _ => rfl) ‹_›
    · exact hend (not_not.1 ‹_›) (.inr hp)

end

/-- An action that goes on leaves the rest of the stream: DCNT then counts the waits left. -/
theorem restAfter_of_perform {s t : State} {a : Nat} {b : BitVec 3} (h : PlaceInv s)
    (hp : perform s.eng.phase a b s = .next t) (hb : t.busy = true) :
    restAfter t.eng.dcnt.toNat t = restAfter (waitsLeft s) s := by
  rcases perform_next hp with ⟨hq, rfl⟩ | ⟨hq, rfl⟩ | ⟨hq, w, -, rfl⟩ | ⟨hq, rfl⟩ | ⟨hq, rfl⟩ | ⟨hq, l, w, -, -, rfl⟩ |
    ⟨-, e, -, rfl⟩ | ⟨hq, rfl⟩
  · simp [restAfter, hq, bitAfter]
  · simp [restAfter, hq, bitAfter]
  · simp [restAfter, hq, bitAfter]
  · simp [restAfter, waitsLeft, hq]
  · obtain ⟨hne, -⟩ := h.waiting hq
    have hcount : (s.eng.dcnt - 1).toNat = s.eng.dcnt.toNat - 1 := by bv_omega
    simp only [restAfter, waitsLeft, if_pos hq, waitOnce_eng, waitOnce_cfg, hcount]
  · simp [restAfter, hq, bitAfter]
  · simp at hb
  · simp [restAfter, waitsLeft, hq]

/-! ### The simulation -/

theorem next_of_mapNext_eq {f : State → State} {x y : Host.Outcome State Fault Refusal} {t : State}
    (h : mapNext f x = mapNext f y) (hx : x = .next t) : ∃ w, y = .next w ∧ f t = f w := by
  subst hx
  cases y <;> simp_all [mapNext]

theorem fault_of_mapNext_eq {f : State → State} {x y : Host.Outcome State Fault Refusal} {e : Fault}
    (h : mapNext f x = mapNext f y) (hx : x = .fault e) : y = .fault e := by
  subst hx
  cases y <;> simp_all [mapNext]

/-- A stream is running, with the host idle. -/
structure Streaming (s : State) : Prop where
  place : PlaceInv s
  busy : s.busy = true
  quiet : Quiet s
  stream : s.eng.opr ≠ .new

/-- The engine's tick from `s` and the action alone from `v` fault alike, or end the command alike, or both go on. -/
inductive TicksAlike (s v : State) : Prop where
  | fault (f : Fault) (hs : engineTick s = .fault f)
      (hv : perform s.eng.phase (cursorAddress s) s.eng.bidx v = .fault f)
  | fails (u w : State) (hs : engineTick s = .next u)
      (hv : perform s.eng.phase (cursorAddress s) s.eng.bidx v = .next w) (h : hideEng u = hideEng w)
      (hb : u.busy = false) (hi : u.eng.phase = .idle)
  | goesOn (t u w : State) (hs : engineTick s = .next u)
      (hv : perform s.eng.phase (cursorAddress s) s.eng.bidx v = .next w) (h : hideEng t = hideEng w)
      (hb : w.busy = true) (hu : GoesOnTo t (restAfter (waitsLeft s) s) u)

theorem busy_of_hideEng {s v : State} (h : hideEng s = hideEng v) : s.busy = v.busy :=
  (congrArg State.busy h :)

theorem Streaming.ticksAlike {s v : State} (hs : Streaming s) (h : hideEng s = hideEng v) : TicksAlike s v := by
  have hsim := perform_congr_hideEng h s.eng.phase (cursorAddress s) s.eng.bidx
  cases hp : perform s.eng.phase (cursorAddress s) s.eng.bidx s with
  | refused r => exact absurd hp (perform_ne_refused _ _ _ _ r)
  | fault f => exact .fault f (by rw [engineTick, hp]) (fault_of_mapNext_eq hsim hp)
  | next t =>
    obtain ⟨w, hw, htw⟩ := next_of_mapNext_eq hsim hp
    have ht := engineTick_of_perform hp
    rcases perform_fails_or_goes_on hp with ⟨-, e, -, rfl⟩ | ⟨hb, hr, -, he⟩
    · rw [finishAction_ended _ rfl] at ht
      exact .fails _ w ht hw htw rfl rfl
    · have hbusy : t.busy = true := hb.trans hs.busy
      have hcfg : t.cfg = s.cfg := by rw [perform_frame hp]
      have hrun : RunInv t := (hs.place.run hs.busy).congr hcfg hb hr he
      have hopr : t.eng.opr = s.eng.opr := by rw [he]
      rw [finishAction_busy t hbusy] at ht
      refine .goesOn t _ w ht hw htw (by rw [← busy_of_hideEng htw, hbusy]) ?_
      rw [← restAfter_of_perform hs.place hp hbusy]
      exact hrun.goesOnTo_advance (by rw [hopr]; exact hs.stream) (hs.place.dcntActed hp)

theorem step_running {s : State} (hq : Quiet s) (hb : s.busy = true) : step s = engineTick (beginTick s) := by
  rw [step_quiet hq, if_pos hb]

theorem Streaming.beginTick {s : State} (h : Streaming s) : Streaming (beginTick s) :=
  ⟨h.place.congr rfl rfl rfl rfl, h.busy, quiet_beginTick h.quiet, h.stream⟩

theorem Streaming.engineTick {s t : State} (h : Streaming s) (ht : engineTick s = .next t) (hb : t.busy = true) :
    Streaming t := by
  obtain ⟨hopr, -, -⟩ := engineTick_latched ht
  refine ⟨h.place.engineTick h.busy ht, hb, ?_, by rw [hopr]; exact h.stream⟩
  rw [engineTick_frame ht]
  exact h.quiet

/-! ### The stream form, action by action (41_bit_engine.md R65) -/

section
variable {base : Nat} {x : StreamAction} {xs : List StreamAction} {v w : State}

theorem performStream_of_fault {f : Fault} (h : perform x.action (base + x.word) x.bit (beginTick v) = .fault f) :
    performStream base (x :: xs) v = .fault f := by simp [performStream, h]

theorem performStream_of_end (h : perform x.action (base + x.word) x.bit (beginTick v) = .next w)
    (hb : w.busy = false) : performStream base (x :: xs) v = .next w := by simp [performStream, h, hb]

theorem performStream_of_busy (h : perform x.action (base + x.word) x.bit (beginTick v) = .next w)
    (hb : w.busy = true) : performStream base (x :: xs) v = performStream base xs w := by simp [performStream, h, hb]

end

/-- The run of the sequencer from `s` and the actions `xs` from `v` on end alike: in states that differ in the engine's
registers only, or in the same fault. -/
def EndAlike (base : Nat) (xs : List StreamAction) (s v : State) : Prop :=
  ∃ k, k ≤ xs.length ∧
    ((∃ u w, ticks k s = .next u ∧ performStream base xs v = .next w ∧ hideEng u = hideEng w ∧ u.busy = false ∧
        u.eng.phase = .idle) ∨
     ∃ f, ticks k s = .fault f ∧ performStream base xs v = .fault f)

/-- The sequencer performs the stream that is left, by induction on that stream. -/
theorem Streaming.endAlike {base : Nat} {xs : List StreamAction} {s v : State} (hs : Streaming s)
    (hbase : s.eng.base.toNat = base) (hx : pending s = xs) (h : hideEng s = hideEng v) : EndAlike base xs s v := by
  induction xs generalizing s v with
  | nil => cases hx
  | cons x xs ih =>
    obtain ⟨rfl, hrest⟩ := List.cons.inj hx
    subst hbase
    have hone {o} (he : Machine.engineTick (Machine.beginTick s) = o) : ticks 1 s = o := by
      rw [ticks_one, step_running hs.quiet hs.busy, he]
    cases hs.beginTick.ticksAlike (hideEng_beginTick h) with
    | fault f he hv => exact ⟨1, by simp, .inr ⟨f, hone he, performStream_of_fault hv⟩⟩
    | fails u w he hv huw hb hi =>
      have hw : w.busy = false := (busy_of_hideEng huw).symm.trans hb
      exact ⟨1, by simp, .inl ⟨u, w, hone he, performStream_of_end hv hw, huw, hb, hi⟩⟩
    | goesOn t u w he hv htw hw hu =>
      have hgo := performStream_of_busy (base := s.eng.base.toNat) (x := currentAction s) (xs := xs) hv hw
      rcases hu with ⟨hnil, rfl⟩ | ⟨hut, hpend⟩
      · obtain rfl : xs = [] := hrest.symm.trans hnil
        exact ⟨1, by simp, .inl ⟨_, _, hone he, hgo, hideEng_completeOk htw, rfl, rfl⟩⟩
      · have huw : hideEng u = hideEng w := hut.trans htw
        have hu : Streaming u := hs.beginTick.engineTick he ((busy_of_hideEng huw).trans hw)
        obtain ⟨-, hbase, -⟩ := engineTick_latched he
        obtain ⟨k, hk, hend⟩ := ih hu (congrArg BitVec.toNat hbase) (hpend.trans hrest) huw
        refine ⟨1 + k, by simp; omega, ?_⟩
        rw [ticks_add, hone he, hgo]
        exact hend

/-! ### The start of the stream -/

/-- A WRITE or TRANSFER that runs after its decode tick has passed the checks, and stands at the first action of its stream. -/
theorem acceptStream_running {s : State} (hb : s.busy = false) {opr : Opr} {len : BitVec 16}
    (h : (acceptStream opr len s).busy = true) :
    stateChecks len s = true ∧ streamEmpty opr s.cfg len = false ∧ acceptStream opr len s =
      { s with
        busy := true
        result := .none
        eng := { s.eng with opr := opr, base := s.arg, len := len, widx := 0, bidx := 7,
                            phase := startPhase opr s.cfg } } := by
  unfold acceptStream startStream at h ⊢
  dsimp only at h ⊢
  split at h
  case isFalse => simp [hb] at h
  case isTrue hc =>
    split at h
    case isTrue => simp [hb] at h
    case isFalse he => exact ⟨hc, by simpa using he, by rw [if_pos hc, if_neg he]; rfl⟩

/-- `placeInv_startStream` without its premise on PHASE, which the start of a stream overwrites. -/
theorem placeInv_acceptStream_running {s : State} (hb : s.busy = false) {opr : Opr} (ho : opr ≠ .new) {len : BitVec 16}
    (h : (acceptStream opr len s).busy = true) : PlaceInv (acceptStream opr len s) := by
  obtain ⟨hc, he, -⟩ := acceptStream_running hb h
  have hidle : acceptStream opr len s = acceptStream opr len (setPhase .idle s) := by
    rw [acceptStream, acceptStream, if_pos hc, if_pos (show stateChecks len (setPhase .idle s) = true from hc), startStream,
      startStream, setPhase_cfg, he]
    rfl
  rw [hidle]
  exact placeInv_acceptStream (s := setPhase .idle s) hb rfl ho len

theorem pending_acceptStream {s : State} (hb : s.busy = false) {opr : Opr} (ho : opr ≠ .new) {len : BitVec 16}
    (h : (acceptStream opr len s).busy = true) :
    pending (acceptStream opr len s) = stream opr s.cfg len.toNat := by
  have hrun := (placeInv_acceptStream_running hb ho h).run h
  obtain ⟨-, he, heq⟩ := acceptStream_running hb h
  have hlen : len.toNat ≠ 0 := by
    simp only [streamEmpty, Bool.or_eq_false_iff, decide_eq_false_iff_not] at he
    exact fun h0 => he.1 (BitVec.eq_of_toNat_eq h0)
  rw [stream_eq_first hlen]
  rw [heq] at hrun ⊢
  exact hrun.pending_startPhase ho 0 7

/-- Settles O30: the accepted command stands at the start of its stream, and from there the sequencer and the stream form
end alike. -/
theorem sequencerPerformsTheStream : Obligations.SequencerPerformsTheStream := by
  intro s t len i opr hi hq hb hlen hexec hbusy
  rw [exec_stream hb hi] at hexec
  obtain rfl := Host.Outcome.next.inj hexec
  have ho : opr ≠ .new := by rcases hi with ⟨-, rfl⟩ | ⟨-, rfl⟩ <;> simp
  obtain ⟨-, -, heq⟩ := acceptStream_running hb hbusy
  have hs : Streaming (acceptStream opr (lenOperand len) s) :=
    ⟨placeInv_acceptStream_running hb ho hbusy, hbusy, by simpa [Quiet] using hq, by rw [heq]; exact ho⟩
  have hpend := pending_acceptStream hb ho hbusy
  rw [lenOperand_toNat hlen] at hpend
  obtain ⟨k, hk, ⟨u, w, hu, hw, huw, hend⟩ | hfault⟩ := hs.endAlike (base := s.arg.toNat) (by rw [heq]) hpend rfl
  · exact ⟨k, hk, .inl ⟨u, w, hu, hw, eq_of_hideEng huw, hend⟩⟩
  · exact ⟨k, hk, .inr hfault⟩

end Sys2Proof.Machine
end

section
/-! PROOFS. A TRANSFER drives the bits its words had when it was accepted (41_bit_engine.md R75): O37. -/

namespace Sys2Proof.Machine

theorem drivenLevels_append (line : DrivenLine) (ev ev' : List Event) :
    drivenLevels line (ev ++ ev') = drivenLevels line ev ++ drivenLevels line ev' := List.filterMap_append

/-- The environment's answers do not show in the levels driven. -/
theorem drivenLevels_unanswered (line : DrivenLine) (ev : List Event) :
    drivenLevels line (ev.map Event.unanswered) = drivenLevels line ev := by
  rw [drivenLevels, List.filterMap_map]
  exact congrArg (List.filterMap · ev) (funext fun x => by cases x <;> rfl)

theorem drivenLevels_mosi_bitTrace {c : BusConfig} (hd : c.doutP = true) (sampled : Bool) (l : Level) :
    drivenLevels .mosi (bitTrace c sampled l) = [l] := by
  unfold bitTrace
  cases c.clkP <;> cases sampled <;> simp [drivenLevels, hd, Event.levelOn]

theorem drivenLevels_mosi_openEvents {c : BusConfig} (hd : c.doutP = true) (l : Level) (st st' : DriveStatus) :
    drivenLevels .mosi (openEvents c l st st') = [l] := by
  unfold openEvents
  cases c.clkP <;> simp [drivenLevels, hd, Event.levelOn]

theorem drivenLevels_mosi_of_bits {c : BusConfig} {sg : Bool} {lv : Nat → Level} {sc mo : LineLevel} {m : Nat}
    {ev : List Event} (hd : c.doutP = true) (h : Bits c sg lv sc mo m ev) :
    drivenLevels .mosi ev = (List.range m).map lv := by
  rw [← drivenLevels_unanswered, h.shape]
  induction (List.range m).map lv with
  | nil => rfl
  | cons l ls ih => rw [List.flatMap_cons, drivenLevels_append, drivenLevels_mosi_bitTrace hd, ih]; rfl

/-- A TRANSFER that fails at bit `m` has driven the bits up to it. -/
theorem Failed.drivenLevels_mosi {s u : State} {opr : Opr} {len m : Nat} {ev : List Event} (hd : s.cfg.doutP = true)
    (hm : m < 8 * len) (h : Failed s opr len m u ev) :
    drivenLevels .mosi ev = (commandLevels s.arg len s).take (readResults ev).length := by
  obtain ⟨e, evm, st, st', rfl, -, hbits⟩ := h.ends
  have hreads : (readResults (evm ++ openEvents s.cfg (levelAt s.arg s m) st st' ++ [.read (.fail e)])).length = m + 1 := by
    rw [readResults_append, readResults_append, readResults_open, List.append_nil, List.length_append, hbits.reads,
      if_pos h.sg]
    rfl
  rw [hreads, commandLevels_eq, ← List.map_take, List.take_range, Nat.min_eq_left (by omega), List.range_succ,
    List.map_append, drivenLevels_append, drivenLevels_append, drivenLevels_mosi_of_bits hd hbits,
    drivenLevels_mosi_openEvents hd]
  exact List.append_nil _

/-- Settles O37: the levels of the events of a completed and of a failed TRANSFER. -/
theorem transferDrivesInputBits : Obligations.TransferDrivesInputBits := by
  intro s len hready hd
  obtain ⟨t, k, u, ev, hexec, hfin, hend⟩ := transfer_run hready
  rcases hend with ⟨-, hc⟩ | ⟨m, hm, -, hf⟩
  · refine ⟨t, k, u, ev, hexec, hfin, hc.ran.trace, fun _ => ?_, by simp [hc.result]⟩
    rw [commandLevels_eq, drivenLevels_mosi_of_bits hd hc.bits]
  · exact ⟨t, k, u, ev, hexec, hfin, hf.ran.trace, by simp [hf.result], fun _ => hf.drivenLevels_mosi hd hm⟩

end Sys2Proof.Machine
end

section
/-! PROOFS. A whole WRITE (42_write.md R76 to R78): O31 to O34. -/

namespace Sys2Proof.Machine

/-! ### What the events of a bit show -/

theorem drivenLevels_mosi_bitTrace_absent {c : BusConfig} (hd : c.doutP = false) (sampled : Bool) (l : Level) :
    drivenLevels .mosi (bitTrace c sampled l) = [] := by
  unfold bitTrace
  cases c.clkP <;> cases sampled <;> simp [drivenLevels, hd, Event.levelOn]

/-- A bit with a clock has one pulse (41_bit_engine.md R72). -/
theorem drivenLevels_sclk_bitTrace (c : BusConfig) (sampled : Bool) (l : Level) :
    drivenLevels .sclk (bitTrace c sampled l) = if c.clkP then pulse c.cpol else [] := by
  unfold bitTrace
  cases c.doutP <;> cases c.clkP <;> cases sampled <;>
    simp [drivenLevels, List.filterMap_cons, List.filterMap_replicate, Event.levelOn, pulse]

/-- A bit with a clock waits DELAY times in each half of its pulse (41_bit_engine.md R68). -/
theorem spinCount_bitTrace (c : BusConfig) (sampled : Bool) (l : Level) :
    spinCount (bitTrace c sampled l) = if c.clkP then 2 * c.delay.toNat else 0 := by
  unfold bitTrace
  cases c.doutP <;> cases c.clkP <;> cases sampled <;> simp [spinCount, List.countP_replicate] <;> omega

/-! ### What the events of a list of bits show -/

theorem drivenLevels_flatMap {α : Type} (line : DrivenLine) (f : α → List Event) (xs : List α) :
    drivenLevels line (xs.flatMap f) = xs.flatMap fun x => drivenLevels line (f x) := List.filterMap_flatMap

theorem drivenLevels_mosi_bits (c : BusConfig) (sampled : Bool) (ls : List Level) :
    drivenLevels .mosi (ls.flatMap (bitTrace c sampled)) = if c.doutP then ls else [] := by
  rw [drivenLevels_flatMap]
  cases hd : c.doutP
  · simp [drivenLevels_mosi_bitTrace_absent hd]
  · simp [drivenLevels_mosi_bitTrace hd]

theorem drivenLevels_sclk_bits (c : BusConfig) (sampled : Bool) (ls : List Level) :
    drivenLevels .sclk (ls.flatMap (bitTrace c sampled)) =
      if c.clkP then (List.replicate ls.length (pulse c.cpol)).flatten else [] := by
  rw [drivenLevels_flatMap]
  cases hk : c.clkP <;> simp [drivenLevels_sclk_bitTrace, hk, List.flatMap_def]

theorem spinCount_bits (c : BusConfig) (sampled : Bool) (ls : List Level) :
    spinCount (ls.flatMap (bitTrace c sampled)) = if c.clkP then ls.length * (2 * c.delay.toNat) else 0 := by
  have hflat : spinCount (ls.flatMap (bitTrace c sampled)) = (ls.map fun l => spinCount (bitTrace c sampled l)).sum :=
    List.countP_flatMap
  rw [hflat]
  cases hk : c.clkP <;> simp [spinCount_bitTrace, hk]

/-! ### The environment's answers -/

/-- The environment's answers do not show in the number of spins. -/
theorem spinCount_unanswered (ev : List Event) : spinCount (ev.map Event.unanswered) = spinCount ev := by
  rw [spinCount, List.countP_map]
  exact congrArg (List.countP · ev) (funext fun x => by cases x <;> rfl)

/-- Where every drive was answered with ok and nothing was read, the answers taken out are the answers given. -/
theorem map_unanswered_of_ok {ev : List Event}
    (hok : ∀ st, st ∈ driveStatuses .mosi ev ∨ st ∈ driveStatuses .sclk ev → st = .ok) (hread : readResults ev = []) :
    ev.map Event.unanswered = ev := by
  have hkept : ∀ x ∈ ev, x.unanswered = id x := by
    intro x hx
    cases x with
    | drive ln l st =>
      have hst : st ∈ driveStatuses ln ev := List.mem_filterMap.2 ⟨_, hx, if_pos rfl⟩
      have hst_ok : st = .ok := hok st (by cases ln; exacts [.inr hst, .inl hst])
      rw [hst_ok]; rfl
    | read r =>
      have hr : r ∈ readResults ev := List.mem_filterMap.2 ⟨_, hx, rfl⟩
      rw [hread] at hr
      cases hr
    | spin => rfl
  rw [List.map_congr_left hkept, List.map_id]

/-! ### The completed WRITE -/

theorem sampleGuard_write (c : BusConfig) : sampleGuard .write c = false := rfl

/-- The number of a WRITE's actions in a bit (41_bit_engine.md R64): it has no SAMPLE. -/
theorem bitActionCount_write (c : BusConfig) :
    bitActionCount .write c = c.doutP.toNat + c.clkP.toNat * (2 + 2 * c.delay.toNat) := rfl

theorem length_commandLevels (base : Word) (len : Nat) (s : State) : (commandLevels base len s).length = 8 * len := by
  rw [commandLevels_eq, List.length_map, List.length_range]

/-- The last bit of a command's words is bit 0 of the last one (20_memory.md R34, R35). -/
theorem levelAt_last (base : Word) (s : State) {len : Nat} (h : 0 < len) :
    levelAt base s (8 * len - 1) = bitLevel ((wordAt base (len - 1) s).getLsbD 0) := by
  have hword : (8 * len - 1) / 8 = len - 1 := by omega
  have hbit : 7 - (8 * len - 1) % 8 = 0 := by omega
  rw [levelAt, hword, hbit]

section
variable {s u : State} {len : Nat} {ev : List Event}

theorem Completed.write_shape (h : Completed s .write len u ev) :
    ev.map Event.unanswered = (commandLevels s.arg len s).flatMap (bitTrace s.cfg false) := by
  rw [commandLevels_eq]
  exact h.bits.shape

theorem Completed.write_readResults (h : Completed s .write len u ev) : readResults ev = [] :=
  List.length_eq_zero_iff.1 h.bits.reads

theorem Completed.write_drivenLevels_mosi (h : Completed s .write len u ev) :
    drivenLevels .mosi ev = if s.cfg.doutP then commandLevels s.arg len s else [] := by
  rw [← drivenLevels_unanswered, h.write_shape, drivenLevels_mosi_bits]

theorem Completed.write_drivenLevels_sclk (h : Completed s .write len u ev) :
    drivenLevels .sclk ev = if s.cfg.clkP then (List.replicate (8 * len) (pulse s.cfg.cpol)).flatten else [] := by
  rw [← drivenLevels_unanswered, h.write_shape, drivenLevels_sclk_bits, length_commandLevels]

theorem Completed.write_spinCount (h : Completed s .write len u ev) :
    spinCount ev = if s.cfg.clkP then 16 * len * s.cfg.delay.toNat else 0 := by
  rw [← spinCount_unanswered, h.write_shape, spinCount_bits, length_commandLevels,
    show 8 * len * (2 * s.cfg.delay.toNat) = 16 * len * s.cfg.delay.toNat by ring]

/-- A command keeps the record of a clock that is absent. -/
theorem Completed.sclkLvl_of_absent {opr : Opr} (h : Completed s opr len u ev) (hk : s.cfg.clkP = false) :
    u.sclkLvl = s.sclkLvl := by
  have hrec := h.bits.sclk
  rw [if_neg (by simp [hk])] at hrec
  rw [h.ran.sclk, hrec]

/-- A command keeps the record of a data-out line that is absent. -/
theorem Completed.mosiLvl_of_absent {opr : Opr} (h : Completed s opr len u ev) (hd : s.cfg.doutP = false) :
    u.mosiLvl = s.mosiLvl := by
  have hrec := h.bits.mosi
  rw [if_neg (by simp [hd])] at hrec
  rw [h.ran.mosi, hrec]

/-- A command of at least one word leaves a clock at its idle level, where the last drive was ok (10_state.md R27). -/
theorem Completed.sclkLvl_of_present {opr : Opr} (h : Completed s opr len u ev) (hlen : 0 < len) (hk : s.cfg.clkP = true) :
    ∃ st, (driveStatuses .sclk ev).getLast? = some st ∧ u.sclkLvl = levelAfter (idleLevel s.cfg.cpol) st := by
  have hrec := h.bits.sclk
  rw [if_pos ⟨hk, by omega⟩] at hrec
  rwa [h.ran.sclk]

/-- A command of at least one word leaves MOSI at its last bit, where the last drive was ok (10_state.md R27). -/
theorem Completed.mosiLvl_of_present {opr : Opr} (h : Completed s opr len u ev) (hlen : 0 < len) (hd : s.cfg.doutP = true) :
    ∃ st, (driveStatuses .mosi ev).getLast? = some st ∧
      u.mosiLvl = levelAfter (bitLevel ((wordAt s.arg (len - 1) s).getLsbD 0)) st := by
  have hrec := h.bits.mosi
  rw [if_pos ⟨hd, by omega⟩, levelAt_last s.arg s hlen] at hrec
  rwa [h.ran.mosi]

end

/-- Settles O31: the completed run's events, by their shape bit by bit. -/
theorem writeShiftsOutTheWords : Obligations.WriteShiftsOutTheWords := by
  intro s len hready
  obtain ⟨t, u, ev, hexec, hfin, hc⟩ := write_run hready
  refine ⟨t, u, ev, hexec, by rwa [← bitActionCount_write], hc.result, hc.ran.trace, hc.write_drivenLevels_mosi, ?_,
    hc.write_drivenLevels_sclk, hc.write_spinCount, hc.write_readResults⟩
  rw [hc.write_drivenLevels_mosi]
  cases s.cfg.doutP
  · rfl
  · exact length_commandLevels s.arg len s

/-- Settles O32: the shape of the completed run's events, from which ok answers are not told apart. -/
theorem writeTraceClosedForm : Obligations.WriteTraceClosedForm := by
  intro s len hready
  obtain ⟨t, u, ev, hexec, hfin, hc⟩ := write_run hready
  refine ⟨t, _, u, ev, hexec, hfin, hc.ran.trace, hc.write_shape, fun hok => ?_⟩
  rw [← hc.write_shape, map_unanswered_of_ok hok hc.write_readResults]

/-- Settles O33: a WRITE has no SAMPLE, so it stores nothing, and an absent line is not driven. -/
theorem writeFrame : Obligations.WriteFrame := by
  intro s len hready
  obtain ⟨t, u, ev, hexec, hfin, hc⟩ := write_run hready
  exact ⟨t, _, u, hexec, hfin, hc.keep (sampleGuard_write s.cfg), hc.ran.cfg, hc.ran.arg, hc.errval, hc.ran.bufRdata,
    hc.ran.regRdata, hc.sclkLvl_of_absent, hc.mosiLvl_of_absent⟩

/-- Settles O34: the records follow the last drives, which are those of the last bit of the last word. -/
theorem writeLeavesLines : Obligations.WriteLeavesLines := by
  intro s len hready hlen
  obtain ⟨t, u, ev, hexec, hfin, hc⟩ := write_run hready
  exact ⟨t, _, u, ev, hexec, hfin, hc.ran.trace, hc.sclkLvl_of_present hlen, hc.mosiLvl_of_present hlen⟩

end Sys2Proof.Machine
end

section
/-! PROOFS. A whole TRANSFER (43_transfer.md R79 to R82, 60_exceptions.md R86, R87): O35, O36, O38, O39 and O43. -/

namespace Sys2Proof.Machine

/-! ### The completed and the failed TRANSFER -/

section
variable {s u : State} {opr : Opr} {len m : Nat} {ev : List Event}

theorem Completed.shape (h : Completed s opr len u ev) :
    ev.map Event.unanswered = (commandLevels s.arg len s).flatMap (bitTrace s.cfg (sampleGuard opr s.cfg)) := by
  rw [commandLevels_eq]
  exact h.bits.shape

/-- The reads of a command that fails at bit `m`: one level for each bit before, and then the failure (60_exceptions.md R86). -/
theorem Failed.readResults_eq (h : Failed s opr len m u ev) :
    ∃ rs e, readResults ev = rs ++ [.fail e] ∧ rs.length = m ∧ (∀ r, r ∈ rs → isLevel r = true) ∧ u.errval = errvalOf e := by
  obtain ⟨e, evm, st, st', rfl, herr, hbits⟩ := h.ends
  refine ⟨readResults evm, e, ?_, by rw [hbits.reads, if_pos h.sg], hbits.levels, herr⟩
  rw [readResults_append, readResults_append, readResults_open, List.append_nil]
  rfl

/-- A failing command keeps the record of a clock that is absent. -/
theorem Failed.sclkLvl_of_absent (h : Failed s opr len m u ev) (hk : s.cfg.clkP = false) : u.sclkLvl = s.sclkLvl := by
  obtain ⟨e, evm, st, st', rfl, -, hbits⟩ := h.ends
  have hrec := hbits.sclk
  rw [if_neg (by simp [hk])] at hrec
  rw [h.ran.sclk, recordAfter_append, recordAfter_append, hrec, (sclk_none _ _ _ _ _ hk).1]
  rfl

/-- A failing command keeps the record of a data-out line that is absent. -/
theorem Failed.mosiLvl_of_absent (h : Failed s opr len m u ev) (hd : s.cfg.doutP = false) : u.mosiLvl = s.mosiLvl := by
  obtain ⟨e, evm, st, st', rfl, -, hbits⟩ := h.ends
  have hrec := hbits.mosi
  rw [if_neg (by simp [hd])] at hrec
  rw [h.ran.mosi, recordAfter_append, recordAfter_append, hrec, mosi_none _ _ _ _ _ hd]
  rfl

end

/-- Settles O35: the reads and the number of events of a completed and of a failed TRANSFER. -/
theorem transferEndsOkOrReadFail : Obligations.TransferEndsOkOrReadFail := by
  intro s len hready
  obtain ⟨t, k, u, ev, hexec, hfin, hend⟩ := transfer_run hready
  rcases hend with ⟨hk, hc⟩ | ⟨m, hm, hk, hf⟩
  · exact ⟨t, k, u, ev, hexec, hfin, hc.ran.trace, by rw [hc.count, hk],
      .inl ⟨hc.result, hk, hc.errval, hc.bits.reads, hc.bits.levels⟩⟩
  · obtain ⟨rs, e, hreads, rfl, hlevels, herr⟩ := hf.readResults_eq
    exact ⟨t, k, u, ev, hexec, hfin, hf.ran.trace, by rw [hf.count, hk],
      .inr ⟨hf.result, rs, e, hreads, hm, hlevels, herr, by rw [hk]; omega⟩⟩

/-- Settles O36: BUF is filled by the reads, whichever end the TRANSFER comes to. -/
theorem transferFillsTheBuffer : Obligations.TransferFillsTheBuffer := by
  intro s len hready
  obtain ⟨t, k, u, ev, hexec, hfin, hend⟩ := transfer_run hready
  obtain ⟨hran, hfilled⟩ : Ran s u ev ∧ Filled s.arg len (readResults ev) s u := by
    rcases hend with ⟨-, hc⟩ | ⟨m, -, -, hf⟩
    · exact ⟨hc.ran, hc.filled⟩
    · exact ⟨hf.ran, hf.filled⟩
  exact ⟨t, k, u, ev, hexec, hfin, hran.trace, hfilled.inside, hfilled.outside⟩

/-- Settles O38: the shape of a completed TRANSFER's events. -/
theorem transferTraceClosedForm : Obligations.TransferTraceClosedForm := by
  intro s len hready
  obtain ⟨t, k, u, ev, hexec, hfin, hend⟩ := transfer_run hready
  rcases hend with ⟨-, hc⟩ | ⟨m, -, -, hf⟩
  · exact ⟨t, k, u, ev, hexec, hfin, hc.ran.trace, fun _ => hc.shape⟩
  · exact ⟨t, k, u, ev, hexec, hfin, hf.ran.trace, by simp [hf.result]⟩

/-- Settles O43: both ends keep the registers, the bytes outside the range and the record of an absent line; only a command
with a SAMPLE can fail or store a byte. -/
theorem transferFrame : Obligations.TransferFrame := by
  intro s len hready
  obtain ⟨t, k, u, ev, hexec, hfin, hend⟩ := transfer_run hready
  rcases hend with ⟨-, hc⟩ | ⟨m, -, -, hf⟩
  · exact ⟨t, k, u, hexec, hfin, hc.ran.cfg, hc.ran.arg, fun _ => hc.errval, hc.ran.bufRdata, hc.ran.regRdata,
      hc.filled.outside, hc.keep, hc.sclkLvl_of_absent, hc.mosiLvl_of_absent⟩
  · exact ⟨t, k, u, hexec, hfin, hf.ran.cfg, hf.ran.arg, by simp [hf.result], hf.ran.bufRdata, hf.ran.regRdata,
      hf.filled.outside, by simp [hf.sg], hf.sclkLvl_of_absent, hf.mosiLvl_of_absent⟩

/-! ### A TRANSFER whose coming reads are known -/

theorem sampleGuard_transfer_of_clock {c : BusConfig} (hk : c.clkP = true) (hi : c.dinP = true) :
    sampleGuard .transfer c = true := by
  simp [sampleGuard, hk, hi]

theorem streamIndex_lt {i len : Nat} (hi : i < len) (b : BitVec 3) : streamIndex i b < 8 * len := by
  unfold streamIndex; omega

/-- The bit that a level leaves is the level (41_bit_engine.md R69). -/
theorem eq_of_sampledBit {r : ReadResult} (hr : isLevel r = true) (old : Bool) :
    r = if sampledBit (some r) old then .high else .low := by
  cases r with
  | fail e => cases hr
  | high => rfl
  | low => rfl

section
variable {s u : State} {len m : Nat} {ds : List DriveStatus} {rs : List ReadResult} {ev : List Event}

/-- The reads of a run are the coming answers of its oracle. -/
theorem Ran.readResults_getElem? (h : Ran s u ev) (he : s.env = .oracle ds rs) {i : Nat} (hi : i < rs.length)
    (hi' : i < (readResults ev).length) : (readResults ev)[i]? = rs[i]? :=
  answers_reads (he ▸ h.env) i hi hi'

theorem isLevel_of_take {i n : Nat} (hlevels : ∀ r, r ∈ rs.take n → isLevel r = true) (hi : i < n) {r : ReadResult}
    (hr : rs[i]? = some r) : isLevel r = true :=
  hlevels r (List.mem_of_getElem? (by rw [List.getElem?_take_of_lt hi, hr]))

/-- Where the coming reads are levels no TRANSFER fails. -/
theorem Failed.false_of_levels (hf : Failed s .transfer len m u ev) (hm : m < 8 * len) (he : s.env = .oracle ds rs)
    (hlen : 8 * len ≤ rs.length) (hlevels : ∀ r, r ∈ rs.take (8 * len) → isLevel r = true) : False := by
  obtain ⟨rs', e, hreads, rfl, -, -⟩ := hf.readResults_eq
  have hfail : rs[rs'.length]? = some (.fail e) := by
    rw [← hf.ran.readResults_getElem? he (by omega) (by simp [hreads]), hreads, List.getElem?_concat_length]
  cases isLevel_of_take hlevels hm hfail

end

/-- Settles O39: the reads of the TRANSFER are the first of `rs`, so none of them fails and each leaves its level. -/
theorem transferReceivesTheReads : Obligations.TransferReceivesTheReads := by
  intro s len ds rs hready hk hi he hlen hlevels
  obtain ⟨t, k, u, ev, hexec, hfin, hend⟩ := transfer_run hready
  rcases hend with ⟨-, hc⟩ | ⟨m, hm, -, hf⟩
  · refine ⟨t, k, u, hexec, hfin, hc.result, fun i hilen => ?_⟩
    obtain ⟨w, hw⟩ := Option.isSome_iff_exists.1 (hready.written (.inr ⟨rfl, hi⟩) i hilen)
    obtain ⟨w', hw', hbits⟩ := hc.filled.inside i w hilen hw
    refine ⟨w', hw', fun b => ?_⟩
    have hidx := streamIndex_lt hilen b
    have hcount : (readResults ev).length = 8 * len := by
      rw [hc.bits.reads, if_pos (sampleGuard_transfer_of_clock hk hi)]
    obtain ⟨r, hr⟩ : ∃ r, rs[streamIndex i b]? = some r := ⟨_, List.getElem?_eq_getElem (by omega)⟩
    rw [hbits b, hc.ran.readResults_getElem? he (by omega) (by omega), hr]
    exact congrArg some (eq_of_sampledBit (isLevel_of_take hlevels hidx hr) _)
  · exact (hf.false_of_levels hm he hlen hlevels).elim

end Sys2Proof.Machine
end

section
/-! PROOFS. The loopback identity (43_transfer.md R81, D31): O41. -/

namespace Sys2Proof.Machine

/-! ### The loopback's answers -/

/-- The loopback stays the loopback. -/
theorem answers_loopback {tr ev : List Event} {e' : Env} (h : Answers .loopback tr ev e') : e' = .loopback := by
  induction ev generalizing tr with
  | nil => exact h
  | cons x ev ih =>
    cases x with
    | drive ln l st => obtain ⟨n, -, hrest⟩ := h; exact ih hrest
    | spin => exact ih (tr := tr ++ [.spin]) h
    | read r =>
      obtain ⟨n, -, hrest⟩ := h
      have hsame : (Env.loopback.read tr n).2 = .loopback := by
        unfold Env.read
        cases lastMosi tr <;> rfl
      exact ih (hsame ▸ hrest)

theorem lastMosi_cons (x : Event) (tr : List Event) : lastMosi (x :: tr) = (lastMosi tr).or (lastMosi [x]) := by
  simp only [lastMosi]
  cases lastMosi tr <;> rfl

/-- The level MOSI was last driven to, after one more event (D31). -/
theorem lastMosi_concat (tr : List Event) (x : Event) : lastMosi (tr ++ [x]) = (lastMosi [x]).or (lastMosi tr) := by
  induction tr with
  | nil => exact Option.or_none.symm
  | cons y tr ih => rw [List.cons_append, lastMosi_cons, ih, lastMosi_cons y tr, Option.or_assoc]

/-- While MOSI is not driven, the loopback reads the level it was last driven to. -/
theorem loopback_reads_undriven {tr ev : List Event} {e' : Env} {l : Level} (h : Answers .loopback tr ev e')
    (hl : lastMosi tr = some l) (hd : drivenLevels .mosi ev = []) : ∀ r, r ∈ readResults ev → r = readLevel l := by
  induction ev generalizing tr with
  | nil => simp [readResults]
  | cons x ev ih =>
    cases x with
    | drive ln l' st =>
      obtain ⟨n, -, hrest⟩ := h
      cases ln with
      | mosi => cases hd
      | sclk => exact ih hrest (by rw [lastMosi_concat, hl]; rfl) hd
    | spin => exact ih (tr := tr ++ [.spin]) h (by rw [lastMosi_concat, hl]; rfl) hd
    | read r' =>
      obtain ⟨n, hr, hrest⟩ := h
      have hread : Env.loopback.read tr n = (readLevel l, .loopback) := by simp only [Env.read, hl]
      rw [hread] at hr hrest
      intro r hmem
      rcases List.mem_cons.1 hmem with rfl | hmem
      · exact hr.symm
      · exact ih hrest (by rw [lastMosi_concat, hl]; rfl) hd r hmem

/-- Events that begin with a drive of MOSI and drive it no more read nothing but its level. -/
theorem loopback_reads_driven {tr ev : List Event} {e' : Env} {l : Level} {st : DriveStatus}
    (h : Answers .loopback tr (.drive .mosi l st :: ev) e')
    (hd : drivenLevels .mosi (.drive .mosi l st :: ev) = [l]) : ∀ r, r ∈ readResults ev → r = readLevel l := by
  obtain ⟨n, rfl, hrest⟩ := h
  refine loopback_reads_undriven hrest ?_ (List.cons.inj hd).2
  rw [lastMosi_concat]
  rfl

/-! ### The bits of a command with data-out -/

theorem bitTrace_eq_cons {c : BusConfig} (hd : c.doutP = true) (sampled : Bool) (l : Level) :
    ∃ ev, bitTrace c sampled l = .drive .mosi l .ok :: ev := by
  simp [bitTrace, hd]

theorem openEvents_eq_cons {c : BusConfig} (hd : c.doutP = true) (l : Level) (st st' : DriveStatus) :
    ∃ ev, openEvents c l st st' = .drive .mosi l st :: ev := by
  simp [openEvents, hd]

theorem eq_drive_of_unanswered {x : Event} {ln : DrivenLine} {l : Level} (h : x.unanswered = .drive ln l .ok) :
    ∃ st, x = .drive ln l st := by
  cases x <;> simp_all [Event.unanswered]

theorem length_readResults_unanswered (ev : List Event) :
    (readResults (ev.map Event.unanswered)).length = (readResults ev).length := by
  induction ev with
  | nil => rfl
  | cons x ev ih =>
    cases x with
    | read r => exact congrArg Nat.succ ih
    | drive ln l st => exact ih
    | spin => exact ih

theorem length_readResults_bitTrace (c : BusConfig) (l : Level) : (readResults (bitTrace c true l)).length = 1 := by
  unfold bitTrace
  cases c.doutP <;> cases c.clkP <;> simp [readResults, Event.readOf, List.filterMap_cons, List.filterMap_replicate]

/-- A sampled bit in the loopback reads the level it drives. -/
theorem loopback_reads_bit {c : BusConfig} (hd : c.doutP = true) {l : Level} {tr ev : List Event} {e' : Env}
    (hshape : ev.map Event.unanswered = bitTrace c true l) (h : Answers .loopback tr ev e') :
    readResults ev = [readLevel l] := by
  have hcount : (readResults ev).length = 1 := by
    rw [← length_readResults_unanswered, hshape, length_readResults_bitTrace]
  have hdriven : drivenLevels .mosi ev = [l] := by
    rw [← drivenLevels_unanswered, hshape, drivenLevels_mosi_bitTrace hd]
  obtain ⟨rest, hrest⟩ := bitTrace_eq_cons hd true l
  rw [hrest] at hshape
  obtain ⟨x, ev, rfl, hx, -⟩ := List.map_eq_cons_iff.1 hshape
  obtain ⟨st, rfl⟩ := eq_drive_of_unanswered hx
  exact List.eq_replicate_iff.2 ⟨hcount, (loopback_reads_driven h hdriven :)⟩

/-- A sampled stream in the loopback reads the levels it drives. -/
theorem loopback_reads_bits {c : BusConfig} (hd : c.doutP = true) {ls : List Level} {tr ev : List Event} {e' : Env}
    (hshape : ev.map Event.unanswered = ls.flatMap (bitTrace c true)) (h : Answers .loopback tr ev e') :
    readResults ev = ls.map readLevel := by
  induction ls generalizing tr ev with
  | nil => rw [List.map_eq_nil_iff.1 hshape]; rfl
  | cons l ls ih =>
    obtain ⟨evl, evr, rfl, hl, hr⟩ := List.map_eq_append_iff.1 hshape
    obtain ⟨e1, hansl, hansr⟩ := answers_split h
    obtain rfl := answers_loopback hansl
    rw [readResults_append, loopback_reads_bit hd hl hansl, ih hr hansr]
    rfl

/-! ### The whole TRANSFER -/

/-- No TRANSFER with data-out fails in the loopback: its last bit drives MOSI before it reads. -/
theorem Failed.false_of_loopback {s u : State} {opr : Opr} {len m : Nat} {ev : List Event} (hf : Failed s opr len m u ev)
    (he : s.env = .loopback) (hd : s.cfg.doutP = true) : False := by
  obtain ⟨e, evm, st, st', rfl, -, -⟩ := hf.ends
  have hans := hf.ran.env
  rw [he, List.append_assoc] at hans
  obtain ⟨e1, hansm, hans⟩ := answers_split hans
  obtain rfl := answers_loopback hansm
  have hdriven := drivenLevels_mosi_openEvents hd (levelAt s.arg s m) st st'
  obtain ⟨rest, hopen⟩ := openEvents_eq_cons hd (levelAt s.arg s m) st st'
  rw [hopen] at hans hdriven
  rw [List.cons_append] at hans
  have hfail := loopback_reads_driven hans (by rw [← List.cons_append, drivenLevels_append, hdriven]; rfl) (.fail e)
    (by rw [readResults_append]; exact List.mem_append_right _ (List.mem_singleton.2 rfl))
  cases hl : levelAt s.arg s m <;> simp [hl, readLevel] at hfail

theorem levelAt_streamIndex (base : Word) (s : State) (i : Nat) (b : BitVec 3) :
    levelAt base s (streamIndex i b) = bitLevel ((wordAt base i s).getLsbD b.toNat) := by
  have hword : streamIndex i b / 8 = i := by unfold streamIndex; omega
  have hbit : 7 - streamIndex i b % 8 = b.toNat := by unfold streamIndex; omega
  rw [levelAt, hword, hbit]

theorem sampledBit_readLevel_bitLevel (x old : Bool) : sampledBit (some (readLevel (bitLevel x))) old = x := by
  cases x <;> rfl

/-- A command that has read the bits of its words has filled them with themselves. -/
theorem Filled.memRead_eq {s u : State} {base : Word} {len : Nat}
    (h : Filled base len ((commandLevels base len s).map readLevel) s u) (hw : RangeWritten base len s) (a : Nat) :
    memRead a u = memRead a s := by
  by_cases ha : a < base.toNat ∨ base.toNat + len ≤ a
  · exact h.outside a ha
  · obtain ⟨i, rfl⟩ := Nat.exists_eq_add_of_le (show base.toNat ≤ a by omega)
    have hi : i < len := by omega
    obtain ⟨w, hws⟩ := Option.isSome_iff_exists.1 (hw i hi)
    obtain ⟨w', hwu, hbits⟩ := h.inside i w hi hws
    have hword : wordAt base i s = w := by rw [wordAt, hws]; rfl
    have hread (b : BitVec 3) : ((commandLevels base len s).map readLevel)[streamIndex i b]? =
        some (readLevel (bitLevel (w.getLsbD b.toNat))) := by
      rw [commandLevels_eq, List.map_map, List.getElem?_map, List.getElem?_range (streamIndex_lt hi b), Option.map_some,
        Function.comp_apply, levelAt_streamIndex, hword]
    have hsame : w' = w := by
      refine BitVec.eq_of_getLsbD_eq fun j hj => ?_
      have hbit := hbits (BitVec.ofNat 3 j)
      rw [hread, sampledBit_readLevel_bitLevel] at hbit
      simpa [Nat.mod_eq_of_lt hj] using hbit
    rw [hwu, hws, hsame]

/-- Settles O41: with a SAMPLE the words are filled with the levels they drive, and without one nothing is stored. -/
theorem loopbackIdentity : Obligations.LoopbackIdentity := by
  intro s len hready he hd hi
  obtain ⟨t, k, u, ev, hexec, hfin, hend⟩ := transfer_run hready
  rcases hend with ⟨-, hc⟩ | ⟨m, -, -, hf⟩
  · refine ⟨t, k, u, hexec, hfin, hc.result, fun a => ?_⟩
    cases hsg : sampleGuard .transfer s.cfg
    · exact memRead_eq_of_buf (hc.keep hsg) a
    · have hreads : readResults ev = (commandLevels s.arg len s).map readLevel :=
        loopback_reads_bits hd (hsg ▸ hc.shape) (he ▸ hc.ran.env)
      exact (hreads ▸ hc.filled).memRead_eq (hready.written (.inl hd)) a
  · exact (hf.false_of_loopback he hd).elim

end Sys2Proof.Machine
end

section
/-! PROOFS. Without data-in a TRANSFER is the WRITE of the same words (43_transfer.md R79): O42. -/

namespace Sys2Proof.Machine

/-! ### Without data-in the sequencer does not see OPR -/

section
variable {c : BusConfig} (h : c.dinP = false) (o opr : Opr)
include h

theorem sampleGuard_of_noDataIn : sampleGuard opr c = false := by simp [sampleGuard, h]

theorem firstSample_of_noDataIn : firstSample o c = firstSample opr c := by
  simp only [firstSample, sampleGuard_of_noDataIn h]

theorem firstAssert_of_noDataIn : firstAssert o c = firstAssert opr c := by
  simp only [firstAssert, firstSample_of_noDataIn h o opr]

theorem streamEmpty_of_noDataIn (len : BitVec 16) : streamEmpty o c len = streamEmpty opr c len := by
  simp only [streamEmpty, bitActionCount, sampleGuard_of_noDataIn h]

theorem startPhase_of_noDataIn : startPhase o c = startPhase opr c := by
  simp only [startPhase, firstDrive, firstAssert_of_noDataIn h o opr]

end

/-! ### Runs that differ in OPR -/

/-- The state with another command in OPR. -/
def setOpr (o : Opr) (s : State) : State := { s with eng := { s.eng with opr := o } }

theorem perform_setOpr (o : Opr) (p : Phase) (a : Nat) (b : BitVec 3) (s : State) :
    perform p a b (setOpr o s) = mapNext (setOpr o) (perform p a b s) := by
  cases p with
  | driveData =>
    simp only [perform, driveData, show memRead a (setOpr o s) = memRead a s from rfl]
    cases memRead a s <;> rfl
  | sample =>
    simp only [perform, sample, updateByte, show misoResult (setOpr o s) = misoResult s from rfl,
      show memRead a (readMiso (setOpr o s)) = memRead a s from rfl, show memRead a (readMiso s) = memRead a s from rfl]
    cases misoResult s <;> cases memRead a s <;> rfl
  | _ => rfl

section
variable {s : State} (h : s.cfg.dinP = false) (o : Opr)
include h

theorem endBit_setOpr : endBit (setOpr o s) = setOpr o (endBit s) := by
  simp only [endBit, setOpr, startPhase_of_noDataIn h o s.eng.opr]
  split
  · rfl
  · split <;> rfl

theorem goto_setOpr (n : Option Phase) : goto n (setOpr o s) = setOpr o (goto n s) := by
  cases n
  · exact endBit_setOpr h o
  · rfl

theorem advance_setOpr : advance (setOpr o s) = setOpr o (advance s) := by
  have hsample := firstSample_of_noDataIn h o s.eng.opr
  have hassert := firstAssert_of_noDataIn h o s.eng.opr
  unfold advance
  rw [show (setOpr o s).eng = { s.eng with opr := o } from rfl, show (setOpr o s).cfg = s.cfg from rfl]
  cases s.eng.phase <;> dsimp only
  case driveData => rw [hassert]; exact goto_setOpr h o _
  case sample => exact goto_setOpr h o _
  case assertClock | activeWait =>
    rw [hsample]
    split
    · rfl
    · exact goto_setOpr h o _
  case deassertClock | idleWait =>
    split
    · rfl
    · exact endBit_setOpr h o
  all_goals rfl

theorem finishAction_setOpr : finishAction (setOpr o s) = setOpr o (finishAction s) := by
  simp only [finishAction, show (setOpr o s).busy = s.busy from rfl, advance_setOpr h]
  split <;> rfl

theorem engineTick_setOpr : engineTick (setOpr o s) = mapNext (setOpr o) (engineTick s) := by
  have hp := perform_setOpr o s.eng.phase (cursorAddress s) s.eng.bidx s
  unfold engineTick
  rw [show perform (setOpr o s).eng.phase (cursorAddress (setOpr o s)) (setOpr o s).eng.bidx (setOpr o s) = _ from hp]
  cases ht : perform s.eng.phase (cursorAddress s) s.eng.bidx s with
  | next t =>
    have hdin : t.cfg.dinP = false := by rw [perform_frame ht]; exact h
    exact congrArg Host.Outcome.next (finishAction_setOpr hdin o)
  | fault f => rfl
  | refused r => rfl

theorem startStream_setOpr (opr : Opr) (len : BitVec 16) :
    startStream o len s = setOpr o (startStream opr len s) := by
  simp only [startStream, streamEmpty_of_noDataIn h o opr, startPhase_of_noDataIn h o opr]
  split <;> rfl

end

theorem step_setOpr {s : State} (hq : Quiet s) (h : s.cfg.dinP = false) (o : Opr) :
    step (setOpr o s) = mapNext (setOpr o) (step s) := by
  rw [step_quiet (s := setOpr o s) hq, step_quiet hq]
  by_cases hb : s.busy = true
  · rw [if_pos hb, if_pos (show (setOpr o s).busy = true from hb)]
    exact engineTick_setOpr (s := beginTick s) h o
  · rw [if_neg hb, if_neg (show ¬ (setOpr o s).busy = true from hb)]
    rfl

/-- A quiet block stays quiet and keeps its configuration. -/
theorem quiet_of_step {s t : State} (hq : Quiet s) (h : step s = .next t) : Quiet t ∧ t.cfg = s.cfg := by
  rw [step_quiet hq] at h
  split at h
  · rw [engineTick_frame h]
    exact ⟨quiet_beginTick hq, rfl⟩
  · cases h
    exact ⟨quiet_beginTick hq, rfl⟩

theorem ticks_setOpr {s : State} (hq : Quiet s) (h : s.cfg.dinP = false) (o : Opr) (k : Nat) :
    ticks k (setOpr o s) = mapNext (setOpr o) (ticks k s) := by
  induction k generalizing s with
  | zero => rfl
  | succ k ih =>
    rw [ticks_succ, ticks_succ, step_setOpr hq h]
    cases ht : step s with
    | next t =>
      obtain ⟨hqt, hcfg⟩ := quiet_of_step hq ht
      exact ih hqt (hcfg ▸ h)
    | fault f => rfl
    | refused r => rfl

/-- Settles O42: the TRANSFER's decode tick leaves the WRITE's state but for OPR, and every tick keeps it so. -/
theorem transferWithoutDataInIsWrite : Obligations.TransferWithoutDataInIsWrite := by
  intro s len hq hb hi hconf hfits hlen
  have hchecks := (stateChecks_iff hlen s).2 ⟨hconf, hfits⟩
  have hstart : acceptStream .transfer (lenOperand len) s = setOpr .transfer (acceptStream .write (lenOperand len) s) := by
    rw [acceptStream, if_pos hchecks, acceptStream, if_pos hchecks, startStream_setOpr hi]
  refine ⟨_, _, exec_stream hb (.inr ⟨rfl, rfl⟩), exec_stream hb (.inl ⟨rfl, rfl⟩), fun k => ?_⟩
  have hticks := ticks_setOpr (s := acceptStream .write (lenOperand len) s) (by simpa [Quiet] using hq)
    (by simpa using hi) .transfer k
  rw [hstart, hticks]
  exact ⟨fun u' hu => by rw [hu]; rfl, fun f hf => by rw [hf]; rfl⟩

end Sys2Proof.Machine
end

section
/-! PROOFS. A tick outside reset without a command that starts (60_exceptions.md R101, R102): O8, O12, O55 and O56. -/

namespace Sys2Proof.Machine

theorem writesRunningRange_beginTick (op : BufOp) (s : State) :
    writesRunningRange op (beginTick s) = writesRunningRange op s := by cases op <;> rfl

/-- Settles O8: the tick is `workTick`, and its start changes neither the running range nor BUSY. -/
theorem tickWithoutCommand : Obligations.TickWithoutCommand := by
  intro s hr hc
  rw [step_of_no_cmdWrite hr hc, workTick, writesRunningRange_beginTick, beginTick_busy]

/-- Settles O55: a byte write of the running range takes the first branch of the tick. -/
theorem hostWriteInRunningRangeFaults : Obligations.HostWriteInRunningRangeFaults := by
  intro s a v hb ho hr hc hw hlo hhi
  have hrun : streamRunning s = true := by simp [streamRunning, hb, ho]
  have hrange : writesRunningRange (hostNow s).buf s = true := by
    rw [hw]
    exact inRunningRange_iff.2 ⟨hrun, hlo, hhi⟩
  rw [tickWithoutCommand s hr hc, if_pos hrange]

theorem issue_busy {s : State} (hb : s.busy = true) (t : State) : issue s t = .refused .cmdWhileBusy := if_pos hb

/-- A running block refuses every command word, legal or not (60_exceptions.md R102.1). -/
theorem acceptWord_busy {s : State} (hb : s.busy = true) (w : Word) : acceptWord w s = .refused .cmdWhileBusy := by
  unfold acceptWord
  split
  case h_1 i _ => cases i <;> exact issue_busy hb _
  case h_2 => exact issue_busy hb _

/-- Settles O12: the tick is the decode of the word, after accesses that keep BUSY. -/
theorem cmdWriteWhileBusyRefused : Obligations.CmdWriteWhileBusyRefused := by
  intro s w hb hr hc
  rw [step_of_cmdWrite hr hc, acceptWord_busy (by simpa using hb)]

/-- Settles O56: an idle block's tick is the host's accesses, of which there are none. -/
theorem idleBlockWaits : Obligations.IdleBlockWaits := by
  intro s hb hl hn
  have hr : resetTick s = false := by simp [resetTick, hn, hl, HostTick.quiet]
  have hrst : (hostNow s).rst = s.rstLast := by rw [hn, hl]; rfl
  rw [step_idle hb hr (by rw [hn]; rfl), hn, hostAccess_quiet, beginTick, hrst]

end Sys2Proof.Machine
end

section
/-! PROOFS. The rejection of a command (60_exceptions.md R84): O10 and O11. -/

namespace Sys2Proof.Machine

/-- The conditions under which a word written to CMD is rejected (60_exceptions.md R84). -/
def Rejected (w : Word) (s : State) : Prop :=
  (∃ e, decode w = .error e) ∨
    ∃ len, (decode w = .ok (.write len) ∨ decode w = .ok (.transfer len)) ∧
      (s.cfg.configured = false ∨ Config.bufSize < s.arg.toNat + len)

theorem acceptWord_of_ok {w : Word} {i : Instr} (h : decode w = .ok i) (s : State) : acceptWord w s = exec i s := by
  simp only [acceptWord, h]

theorem stateChecks_of_unconfigured {s : State} (hc : s.cfg.configured = false) (len : BitVec 16) :
    stateChecks len s = false := by
  simp [stateChecks, hc]

theorem acceptStream_of_checks_fail {s : State} {len : BitVec 16} (h : stateChecks len s = false) (opr : Opr) :
    acceptStream opr len s = raiseIllegal s := if_neg (by simp [h])

/-- Settles O11: the first of the state checks fails, for every LEN. -/
theorem unconfiguredStreamsAreIllegal : Obligations.UnconfiguredStreamsAreIllegal := by
  intro s len hb hc
  have hreject (opr : Opr) := acceptStream_of_checks_fail (stateChecks_of_unconfigured hc (lenOperand len)) opr
  rw [exec_stream hb (.inl ⟨rfl, rfl⟩), exec_stream hb (.inr ⟨rfl, rfl⟩), hreject, hreject]
  exact ⟨rfl, rfl⟩

/-- A decoded WRITE or TRANSFER is the decode tick of its stream, with the LEN of its word. -/
theorem acceptWord_stream {w : Word} {s : State} {len : Nat} (hb : s.busy = false)
    (hd : decode w = .ok (.write len) ∨ decode w = .ok (.transfer len)) :
    len < 65536 ∧ ∃ opr, acceptWord w s = .next (acceptStream opr (lenOperand len) s) := by
  refine ⟨decode_len_lt hd, ?_⟩
  rcases hd with hd | hd <;> rw [acceptWord_of_ok hd]
  · exact ⟨_, exec_stream hb (.inl ⟨rfl, rfl⟩)⟩
  · exact ⟨_, exec_stream hb (.inr ⟨rfl, rfl⟩)⟩

theorem acceptWord_of_rejected {w : Word} {s : State} (hb : s.busy = false) (h : Rejected w s) :
    acceptWord w s = .next (raiseIllegal s) := by
  rcases h with ⟨e, he⟩ | ⟨len, hd, hbad⟩
  · rw [acceptWord_of_error he, issue_idle hb]
  · obtain ⟨hlen, opr, hacc⟩ := acceptWord_stream hb hd
    have hfail : stateChecks (lenOperand len) s = false := by
      rw [← Bool.not_eq_true, stateChecks_iff hlen]
      rintro ⟨hconf, hfits⟩
      rcases hbad with hbad | hbad
      · simp [hconf] at hbad
      · omega
    rw [hacc, acceptStream_of_checks_fail hfail]

theorem construct_result_ne_illegal (k i o : Bool) (p : Polarity) (s : State) :
    (construct k i o p s).result ≠ .illegal := by cases k <;> simp [construct]

theorem startStream_result_ne_illegal (opr : Opr) (len : BitVec 16) (s : State) :
    (startStream opr len s).result ≠ .illegal := by
  unfold startStream
  dsimp only
  split <;> simp

theorem acceptWord_of_not_rejected {w : Word} {s : State} (hb : s.busy = false) (h : ¬ Rejected w s) :
    ∃ t, acceptWord w s = .next t ∧ t.result ≠ .illegal := by
  have hstream (len : Nat) (hd : decode w = .ok (.write len) ∨ decode w = .ok (.transfer len)) :
      ∃ t, acceptWord w s = .next t ∧ t.result ≠ .illegal := by
    obtain ⟨hlen, opr, hacc⟩ := acceptWord_stream hb hd
    have hchecks : stateChecks (lenOperand len) s = true := by
      by_contra hfail
      rw [stateChecks_iff hlen, not_and_or, Bool.not_eq_true, not_le] at hfail
      exact h (.inr ⟨len, hd, hfail⟩)
    rw [acceptStream, if_pos hchecks] at hacc
    exact ⟨_, hacc, startStream_result_ne_illegal opr _ s⟩
  cases hd : decode w with
  | error e => exact absurd (.inl ⟨e, hd⟩) h
  | ok i =>
    cases i with
    | new k di d p =>
      exact ⟨_, (acceptWord_of_ok hd s).trans (exec_new hb k di d p), construct_result_ne_illegal k di d p s⟩
    | write len => exact hstream len (.inl hd)
    | transfer len => exact hstream len (.inr hd)

/-- Settles O10: `Rejected` is R84's list; its words are answered with `raiseIllegal`, every other with NEW's or a stream's start. -/
theorem rejectionChangesOnlyResult : Obligations.RejectionChangesOnlyResult :=
  fun _ _ hb => ⟨acceptWord_of_rejected hb, acceptWord_of_not_rejected hb⟩

end Sys2Proof.Machine
end

section
/-! PROOFS. How an engine tick can end (60_exceptions.md R83, R86, R102): O27, O28 and O49. -/

namespace Sys2Proof.Machine

/-- A SAMPLE whose read fails ends the command, whatever the current word (60_exceptions.md R86). -/
theorem engineTick_sample_fail {s : State} {e : PinError} (hp : s.eng.phase = .sample) (he : misoResult s = .fail e) :
    engineTick s = .next (raiseReadFail e (readMiso s)) := by
  rw [engineTick_of_perform (u := raiseReadFail e (readMiso s)) (by rw [hp]; exact sample_fail he),
    finishAction_ended _ rfl]

/-- Settles O27: what `raiseReadFail` and `readMiso` leave, field by field. -/
theorem readFailEndsCommand : Obligations.ReadFailEndsCommand := by
  intro s e _ hp he
  exact ⟨_, engineTick_sample_fail hp he, rfl, rfl, rfl, rfl, rfl, by simp [he], rfl, rfl, rfl, rfl⟩

theorem engineTick_of_fault {s : State} {f : Fault}
    (h : perform s.eng.phase (cursorAddress s) s.eng.bidx s = .fault f) : engineTick s = .fault f := by
  simp [engineTick, h]

theorem driveData_unwritten {a : Nat} {s : State} (hw : memRead a s = none) (b : BitVec 3) :
    driveData a b s = .fault .unwrittenByte := by
  simp [driveData, hw]

theorem updateByte_unwritten {a : Nat} {s : State} (hw : memRead a s = none) (f : Byte → Byte) :
    updateByte a f s = .fault .unwrittenByte := by
  simp [updateByte, hw]

theorem sample_unwritten {a : Nat} {s : State} {l : Level} (hw : memRead a s = none) (hl : misoResult s = readLevel l)
    (b : BitVec 3) : sample a b s = .fault .unwrittenByte := by
  have hw' : memRead a (readMiso s) = none := hw
  cases l <;> simp [sample, hl, readLevel, updateByte_unwritten hw']

/-- Settles O28: DRIVE_DATA and a SAMPLE of a level read the current word, a failing SAMPLE does not. -/
theorem unwrittenByteFaults : Obligations.UnwrittenByteFaults := by
  intro s hw
  refine ⟨fun hp => ?_, fun hp l hl => ?_, fun hp e he => ⟨_, engineTick_sample_fail hp he, rfl⟩⟩
  · exact engineTick_of_fault (by rw [hp]; exact driveData_unwritten hw _)
  · exact engineTick_of_fault (by rw [hp]; exact sample_unwritten hw hl _)

/-! ### The sequencer completes the command or keeps BUSY and RESULT -/

theorem endBit_completes_or_goes_on (s : State) : endBit s = completeOk s ∨ hideEng (endBit s) = hideEng s := by
  unfold endBit
  split
  · exact .inr rfl
  · split
    · exact .inr rfl
    · exact .inl rfl

theorem goto_completes_or_goes_on (n : Option Phase) (s : State) :
    goto n s = completeOk s ∨ hideEng (goto n s) = hideEng s := by
  cases n with
  | none => exact endBit_completes_or_goes_on s
  | some p => exact .inr rfl

theorem advance_completes_or_goes_on (s : State) : advance s = completeOk s ∨ hideEng (advance s) = hideEng s := by
  unfold advance
  cases s.eng.phase <;> dsimp only
  case idle => exact .inr rfl
  case initClock => exact .inl rfl
  case driveData | sample => exact goto_completes_or_goes_on _ s
  case assertClock | activeWait =>
    split
    · exact .inr rfl
    · exact goto_completes_or_goes_on _ s
  case deassertClock | idleWait =>
    split
    · exact .inr rfl
    · exact endBit_completes_or_goes_on s

/-- Settles O49: the action ends the command only by a failing SAMPLE, which only a TRANSFER has, and the sequencer only with OK. -/
theorem runningCommandEndsWithOneOutcome : Obligations.RunningCommandEndsWithOneOutcome := by
  intro s t hinv hb hr hstep
  have ht := engineTick_of_step hb hr hstep
  obtain ⟨hopr, -, -⟩ := engineTick_latched ht
  have hcfg := engineTick_cfg ht
  obtain ⟨u, hu, rfl⟩ := engineTick_next ht
  simp only [hostAccess_eng, beginTick_eng, hostAccess_cfg, beginTick_cfg] at hopr hcfg hu
  rcases perform_fails_or_goes_on hu with ⟨hp, e, -, rfl⟩ | ⟨hbusy, hres, -, -⟩
  · have hg := hinv.guarded
    simp only [hp, phaseGuard, sampleGuard, Bool.and_eq_true, decide_eq_true_eq] at hg
    obtain ⟨⟨htransfer, -⟩, -⟩ := hg
    rw [finishAction_ended _ rfl]
    exact .inr ⟨rfl, rfl, .inr ⟨rfl, htransfer, hp⟩⟩
  · have hub : u.busy = true := by simpa [hb] using hbusy
    have hur : u.result = .none := by simpa [hinv.busyResult hb] using hres
    rw [finishAction_busy u hub] at hopr hcfg ⊢
    rcases advance_completes_or_goes_on u with hdone | hgo
    · rw [hdone]
      exact .inr ⟨rfl, rfl, .inl rfl⟩
    · exact .inl ⟨(busy_of_hideEng hgo).trans hub, (congrArg State.result hgo :).trans hur, hopr, hcfg⟩

end Sys2Proof.Machine
end

section
/-! PROOFS. A TRANSFER whose coming reads are levels and then a failure (60_exceptions.md R86 to R88, R115): O40. -/

namespace Sys2Proof.Machine

/-- Where a list of reads first fails does not depend on what follows. -/
theorem append_fail_inj {rs rs' z z' : List ReadResult} {e e' : PinError} (h : ∀ r, r ∈ rs → isLevel r = true)
    (h' : ∀ r, r ∈ rs' → isLevel r = true) (heq : rs ++ .fail e :: z = rs' ++ .fail e' :: z') : rs = rs' ∧ e = e' := by
  have hrs : rs = rs' := by
    simpa [List.takeWhile_append_of_pos h, List.takeWhile_append_of_pos h', isLevel] using
      congrArg (List.takeWhile isLevel) heq
  subst hrs
  simp_all

/-- A failing read leaves its bit as it was (60_exceptions.md R87). -/
theorem sampledBit_concat_fail (rs : List ReadResult) (e : PinError) (i : Nat) (old : Bool) :
    sampledBit ((rs ++ [.fail e])[i]?) old = sampledBit (rs[i]?) old := by
  rcases Nat.lt_trichotomy i rs.length with hlt | rfl | hgt
  · rw [List.getElem?_append_left hlt]
  · rw [List.getElem?_concat_length, List.getElem?_eq_none le_rfl]
    rfl
  · rw [List.getElem?_eq_none (by simp; omega), List.getElem?_eq_none hgt.le]

theorem driveStatuses_read (line : DrivenLine) (r : ReadResult) : driveStatuses line [.read r] = [] := rfl

section
variable {s u : State} {opr : Opr} {len m : Nat} {ds : List DriveStatus} {rs rest : List ReadResult} {e : PinError}
  {ev : List Event}

/-- The reads of a run are the first answers of its oracle, or, in a longer run, begin with all of them. -/
theorem Ran.readResults_prefix (h : Ran s u ev) (he : s.env = .oracle ds rs) :
    readResults ev <+: rs ∨ rs <+: readResults ev := by
  rcases le_total (readResults ev).length rs.length with hle | hle
  · refine .inl (List.prefix_iff_getElem?.2 fun i hi => ?_)
    rw [← h.readResults_getElem? he (by omega) hi, List.getElem?_eq_getElem hi]
  · refine .inr (List.prefix_iff_getElem?.2 fun i hi => ?_)
    rw [h.readResults_getElem? he hi (by omega), List.getElem?_eq_getElem hi]

/-- No command completes past a failing read. -/
theorem Completed.false_of_fail (hc : Completed s opr len u ev) (hsg : sampleGuard opr s.cfg = true)
    (he : s.env = .oracle ds (rs ++ .fail e :: rest)) (hlen : rs.length < 8 * len) : False := by
  have hcount := hc.bits.reads
  rw [if_pos hsg] at hcount
  have hfail : (readResults ev)[rs.length]? = some (.fail e) := by
    rw [hc.ran.readResults_getElem? he (by simp) (by omega)]
    simp
  cases hc.bits.levels _ (List.mem_of_getElem? hfail)

/-- A command fails at the first failing read, with that read's error. -/
theorem Failed.readResults_of_oracle (hf : Failed s opr len m u ev)
    (he : s.env = .oracle ds (rs ++ .fail e :: rest)) (hlevels : ∀ r, r ∈ rs → isLevel r = true) :
    readResults ev = rs ++ [.fail e] ∧ rs.length = m ∧ u.errval = errvalOf e := by
  obtain ⟨rs', e', hreads, hm, hlevels', herr⟩ := hf.readResults_eq
  obtain ⟨rfl, rfl⟩ : rs' = rs ∧ e' = e := by
    rcases hf.ran.readResults_prefix he with ⟨z, hz⟩ | ⟨z, hz⟩
    · rw [hreads, List.append_assoc] at hz
      exact append_fail_inj hlevels' hlevels hz
    · rw [hreads, List.append_assoc] at hz
      exact append_fail_inj hlevels' hlevels hz.symm
  exact ⟨hreads, hm, herr⟩

/-- A failing command leaves a clock at its active level, where the last drive was ok (60_exceptions.md R88). -/
theorem Failed.sclkLvl_of_present (hf : Failed s opr len m u ev) (hk : s.cfg.clkP = true) :
    ∃ st, (driveStatuses .sclk ev).getLast? = some st ∧ u.sclkLvl = levelAfter (activeLevel s.cfg.cpol) st := by
  obtain ⟨e, evm, st, st', rfl, -, -⟩ := hf.ends
  have hopen := sclk_open s.cfg (levelAt s.arg s m) st st'
  refine ⟨st', ?_, ?_⟩
  · rw [driveStatuses_append, driveStatuses_append, (hopen .unknown hk).1, driveStatuses_read, List.append_nil,
      List.getLast?_concat]
  · rw [hf.ran.sclk, recordAfter_append, recordAfter_append, (hopen _ hk).2]
    rfl

/-- A failing command leaves MOSI at the bit it fails at, where the last drive was ok (60_exceptions.md R88). -/
theorem Failed.mosiLvl_of_present (hf : Failed s opr len m u ev) (hd : s.cfg.doutP = true) :
    ∃ st, (driveStatuses .mosi ev).getLast? = some st ∧ u.mosiLvl = levelAfter (levelAt s.arg s m) st := by
  obtain ⟨e, evm, st, st', rfl, -, -⟩ := hf.ends
  have hopen := mosi_open s.cfg (levelAt s.arg s m) st st'
  refine ⟨st, ?_, ?_⟩
  · rw [driveStatuses_append, driveStatuses_append, (hopen .unknown hd).1, driveStatuses_read, List.append_nil,
      List.getLast?_concat]
  · rw [hf.ran.mosi, recordAfter_append, recordAfter_append, (hopen _ hd).2]
    rfl

end

/-- Settles O40: the reads of the run end at the failure, so the TRANSFER fails at bit `rs.length`, with the words filled by `rs`. -/
theorem transferAbortsAtFailingRead : Obligations.TransferAbortsAtFailingRead := by
  intro s len ds rs rest e hready hk hi he hlen hlevels
  have hsg := sampleGuard_transfer_of_clock hk hi
  obtain ⟨t, k, u, ev, hexec, hfin, ⟨-, hc⟩ | ⟨m, -, rfl, hf⟩⟩ := transfer_run hready
  · exact (hc.false_of_fail hsg he hlen).elim
  · obtain ⟨hreads, rfl, herr⟩ := hf.readResults_of_oracle he hlevels
    refine ⟨t, u, ev, hexec, ?_, hf.ran.trace, hf.result, herr, fun i hi' => ?_, hf.sclkLvl_of_present hk,
      hf.mosiLvl_of_present⟩
    · simpa [bitActionCount, hsg, hk, Nat.add_assoc] using hfin
    · obtain ⟨w, hw⟩ := Option.isSome_iff_exists.1 (hready.written (.inr ⟨rfl, hi⟩) i hi')
      obtain ⟨w', hw', hbits⟩ := hf.filled.inside i w hi' hw
      refine ⟨w', hw', fun b => ?_⟩
      rw [hbits, hreads, sampledBit_concat_fail, wordAt, hw, Option.getD_some]

end Sys2Proof.Machine
end

section
/-! PROOFS. The status of a drive changes no outcome (60_exceptions.md R85): O52. -/

namespace Sys2Proof.Machine

/-! ### What the status of a drive reaches -/

/-- The state with another trace, other line records and another environment. -/
def withLines (tr : List Event) (sc mo : LineLevel) (e : Env) (s : State) : State :=
  { s with trace := tr, sclkLvl := sc, mosiLvl := mo, env := e }

/-- The state with another environment. -/
def withEnv (e : Env) (s : State) : State := withLines s.trace s.sclkLvl s.mosiLvl e s

/-- `t'` is `t` but for the trace's statuses, the line records and the environment; the record of the line driven in the tick, if
there is one, is Unknown in `t'`, and the other line's is that of `t`. -/
structure DriveFailed (t t' : State) : Prop where
  frame : t' = withLines t'.trace t'.sclkLvl t'.mosiLvl t'.env t
  trace : t'.trace.map Event.unanswered = t.trace.map Event.unanswered
  sclk : t.pins.sclkStb = true → t'.sclkLvl = .unknown ∧ t'.mosiLvl = t.mosiLvl
  mosi : t.pins.mosiStb = true → t'.mosiLvl = .unknown ∧ t'.sclkLvl = t.sclkLvl

/-- Two answers are the same fault or refusal, or next states that differ by the failure of a drive. -/
inductive OutcomesAlike : Host.Outcome State Fault Refusal → Host.Outcome State Fault Refusal → Prop where
  | next {t t' : State} (h : DriveFailed t t') : OutcomesAlike (.next t) (.next t')
  | fault (f : Fault) : OutcomesAlike (.fault f) (.fault f)
  | refused (r : Refusal) : OutcomesAlike (.refused r) (.refused r)

section
variable {x y : Host.Outcome State Fault Refusal} (h : OutcomesAlike x y)
include h

theorem OutcomesAlike.of_next {t : State} (hx : x = .next t) : ∃ t', y = .next t' ∧ DriveFailed t t' := by
  cases h with
  | next h => cases hx; exact ⟨_, rfl, h⟩
  | fault f => cases hx
  | refused r => cases hx

theorem OutcomesAlike.of_fault {f : Fault} (hx : x = .fault f) : y = .fault f := by
  cases h with
  | next h => cases hx
  | fault f => exact hx
  | refused r => cases hx

end

/-- Neither SCLK nor MOSI is driven in the tick. -/
def Undriven (t : State) : Prop := t.pins.sclkStb = false ∧ t.pins.mosiStb = false

/-- A tick that drives no line does not show what the next drive would be answered. -/
theorem Undriven.driveFailed {t : State} (h : Undriven t) (e e' : Env) : DriveFailed (withEnv e t) (withEnv e' t) := by
  obtain ⟨hs, hm⟩ := h
  exact ⟨rfl, rfl, fun h => absurd (hs.symm.trans h) (by simp), fun h => absurd (hm.symm.trans h) (by simp)⟩

theorem outcomesAlike_mapNext_withEnv {x : Host.Outcome State Fault Refusal} (h : ∀ t, x = .next t → Undriven t)
    (e e' : Env) : OutcomesAlike (mapNext (withEnv e) x) (mapNext (withEnv e') x) := by
  cases x with
  | next t => exact .next ((h t rfl).driveFailed e e')
  | fault f => exact .fault f
  | refused r => exact .refused r

/-! ### The sequencer does not see the lines -/

section
variable (tr : List Event) (sc mo : LineLevel) (e : Env) (s : State)

@[simp] theorem withLines_cfg : (withLines tr sc mo e s).cfg = s.cfg := rfl

@[simp] theorem withLines_eng : (withLines tr sc mo e s).eng = s.eng := rfl

@[simp] theorem withLines_busy : (withLines tr sc mo e s).busy = s.busy := rfl

theorem endBit_withLines : endBit (withLines tr sc mo e s) = withLines tr sc mo e (endBit s) := by
  unfold endBit
  rw [apply_ite (withLines tr sc mo e), apply_ite (withLines tr sc mo e)]
  rfl

theorem goto_withLines (n : Option Phase) : goto n (withLines tr sc mo e s) = withLines tr sc mo e (goto n s) := by
  cases n
  · exact endBit_withLines tr sc mo e s
  · rfl

theorem advance_withLines : advance (withLines tr sc mo e s) = withLines tr sc mo e (advance s) := by
  unfold advance
  rw [withLines_eng, withLines_cfg]
  cases s.eng.phase <;> dsimp only
  case driveData | sample => exact goto_withLines ..
  case assertClock | activeWait =>
    split
    · rfl
    · exact goto_withLines ..
  case deassertClock | idleWait =>
    split
    · rfl
    · exact endBit_withLines ..
  all_goals rfl

theorem finishAction_withLines : finishAction (withLines tr sc mo e s) = withLines tr sc mo e (finishAction s) := by
  simp only [finishAction, withLines_busy, advance_withLines]
  split <;> rfl

end

theorem DriveFailed.finishAction {t t' : State} (h : DriveFailed t t') :
    DriveFailed (finishAction t) (finishAction t') := by
  obtain ⟨hframe, htr, hs, hm⟩ := h
  refine ⟨?_, by simpa using htr, by simpa using hs, by simpa using hm⟩
  conv_lhs => rw [hframe, finishAction_withLines]
  simp

theorem OutcomesAlike.finishAction {x y : Host.Outcome State Fault Refusal} (h : OutcomesAlike x y) :
    OutcomesAlike (mapNext finishAction x) (mapNext finishAction y) := by
  cases h with
  | next h => exact .next h.finishAction
  | fault f => exact .fault f
  | refused r => exact .refused r

/-! ### The host's accesses and the decode of a command do not see the environment -/

section
variable (e : Env) (s : State)

@[simp] theorem withEnv_cfg : (withEnv e s).cfg = s.cfg := rfl

@[simp] theorem withEnv_busy : (withEnv e s).busy = s.busy := rfl

theorem hostReads_withEnv (h : HostTick) : hostReads h (withEnv e s) = withEnv e (hostReads h s) := by
  obtain ⟨rst, reg, buf⟩ := h
  cases reg <;> cases buf <;> rfl

theorem regWriteAccess_withEnv (op : RegOp) : regWriteAccess op (withEnv e s) = withEnv e (regWriteAccess op s) := by
  cases op with
  | write r v => cases r <;> rfl
  | _ => rfl

theorem bufWriteAccess_withEnv (op : BufOp) : bufWriteAccess op (withEnv e s) = withEnv e (bufWriteAccess op s) := by
  cases op with
  | write a v =>
    simp only [bufWriteAccess]
    split <;> rfl
  | _ => rfl

theorem hostAccess_withEnv (h : HostTick) : hostAccess h (withEnv e s) = withEnv e (hostAccess h s) := by
  simp only [hostAccess, hostReads_withEnv, regWriteAccess_withEnv, bufWriteAccess_withEnv]

theorem issue_withEnv (t : State) : issue (withEnv e s) (withEnv e t) = mapNext (withEnv e) (issue s t) := by
  unfold issue
  rw [withEnv_busy]
  split <;> rfl

theorem construct_withEnv (k i o : Bool) (p : Polarity) :
    construct k i o p (withEnv e s) = withEnv e (construct k i o p s) := by cases k <;> rfl

theorem startStream_withEnv (opr : Opr) (len : BitVec 16) :
    startStream opr len (withEnv e s) = withEnv e (startStream opr len s) := by
  unfold startStream
  rw [withEnv_cfg]
  dsimp only
  split <;> rfl

theorem acceptStream_withEnv (opr : Opr) (len : BitVec 16) :
    acceptStream opr len (withEnv e s) = withEnv e (acceptStream opr len s) := by
  simp only [acceptStream, startStream_withEnv, show stateChecks len (withEnv e s) = stateChecks len s from rfl]
  split <;> rfl

theorem acceptWord_withEnv (w : Word) : acceptWord w (withEnv e s) = mapNext (withEnv e) (acceptWord w s) := by
  unfold acceptWord
  split
  case h_1 i _ =>
    cases i with
    | new k di d p => simp only [exec, execNew, construct_withEnv, issue_withEnv]
    | write len => simp only [exec, execWrite, acceptStream_withEnv, issue_withEnv]
    | transfer len => simp only [exec, execTransfer, acceptStream_withEnv, issue_withEnv]
  case h_2 => exact issue_withEnv e s (raiseIllegal s)

theorem writesRunningRange_withEnv (op : BufOp) : writesRunningRange op (withEnv e s) = writesRunningRange op s := by
  cases op <;> rfl

end

/-! ### The engine's action -/

section
variable (ds : List DriveStatus) (rs : List ReadResult) (u : State)

/-- A read does not see the answers to the coming drives. -/
theorem misoResult_withEnv : misoResult (withEnv (.oracle ds rs) u) = misoResult (withEnv (.oracle [] rs) u) := by
  cases rs <;> rfl

/-- A read leaves the answers to the coming drives. -/
theorem readMiso_withEnv : readMiso (withEnv (.oracle ds rs) u) =
    withEnv (.oracle ds rs.tail) (readMiso (withEnv (.oracle [] rs) u)) := by
  cases rs <;> rfl

theorem updateByte_withEnv (a : Nat) (f : Byte → Byte) (e : Env) :
    updateByte a f (withEnv e u) = mapNext (withEnv e) (updateByte a f u) := by
  simp only [updateByte, show memRead a (withEnv e u) = memRead a u from rfl]
  cases memRead a u <;> rfl

theorem sample_withEnv (a : Nat) (b : BitVec 3) : sample a b (withEnv (.oracle ds rs) u) =
    mapNext (withEnv (.oracle ds rs.tail)) (sample a b (withEnv (.oracle [] rs) u)) := by
  simp only [sample, misoResult_withEnv ds, readMiso_withEnv ds, updateByte_withEnv]
  cases misoResult (withEnv (.oracle [] rs) u) <;> rfl

end

section
variable {u : State} (hn : Undriven u) (ds : List DriveStatus) (rs : List ReadResult)
include hn

theorem driveFailed_driveSclk (l : Level) :
    DriveFailed (driveSclk l (withEnv (.oracle (.ok :: ds) rs) u)) (driveSclk l (withEnv (.oracle (.fail :: ds) rs) u)) := by
  obtain ⟨-, hm⟩ := hn
  exact ⟨rfl, by simp [withEnv, withLines, Env.drive, Event.unanswered], fun _ => ⟨rfl, rfl⟩,
    fun h => absurd (hm.symm.trans h) (by simp)⟩

theorem driveFailed_driveMosi (l : Level) :
    DriveFailed (driveMosi l (withEnv (.oracle (.ok :: ds) rs) u)) (driveMosi l (withEnv (.oracle (.fail :: ds) rs) u)) := by
  obtain ⟨hs, -⟩ := hn
  exact ⟨rfl, by simp [withEnv, withLines, Env.drive, Event.unanswered], fun h => absurd (hs.symm.trans h) (by simp),
    fun _ => ⟨rfl, rfl⟩⟩

theorem outcomesAlike_driveData (a : Nat) (b : BitVec 3) :
    OutcomesAlike (driveData a b (withEnv (.oracle (.ok :: ds) rs) u))
      (driveData a b (withEnv (.oracle (.fail :: ds) rs) u)) := by
  simp only [driveData, show ∀ e, memRead a (withEnv e u) = memRead a u from fun _ => rfl]
  cases memRead a u with
  | none => exact .fault _
  | some w => exact .next (driveFailed_driveMosi hn ds rs _)

theorem undriven_of_sample {a : Nat} {b : BitVec 3} {t : State} (h : sample a b u = .next t) : Undriven t := by
  rcases sample_next h with ⟨l, w, -, -, rfl⟩ | ⟨e, -, rfl⟩ <;> exact hn

/-- An action whose drive fails is the action whose drive is ok, but for the failure (60_exceptions.md R85). -/
theorem outcomesAlike_perform (p : Phase) (a : Nat) (b : BitVec 3) :
    OutcomesAlike (perform p a b (withEnv (.oracle (.ok :: ds) rs) u))
      (perform p a b (withEnv (.oracle (.fail :: ds) rs) u)) := by
  cases p with
  | idle => exact .next (hn.driveFailed _ _)
  | initClock => exact .next (driveFailed_driveSclk hn ds rs _)
  | driveData => exact outcomesAlike_driveData hn ds rs a b
  | assertClock | deassertClock =>
    exact .next (driveFailed_driveSclk (u := { u with eng := { u.eng with dcnt := u.cfg.delay } }) hn ds rs _)
  | activeWait | idleWait => exact .next (Undriven.driveFailed (t := waitOnce u) hn _ _)
  | sample =>
    simp only [perform, sample_withEnv (_ :: ds)]
    exact outcomesAlike_mapNext_withEnv (fun t ht => undriven_of_sample (u := withEnv (.oracle [] rs) u) hn ht) _ _

theorem outcomesAlike_engineTick :
    OutcomesAlike (engineTick (withEnv (.oracle (.ok :: ds) rs) u))
      (engineTick (withEnv (.oracle (.fail :: ds) rs) u)) :=
  (outcomesAlike_perform hn ds rs u.eng.phase (cursorAddress u) u.eng.bidx).finishAction

/-- The decode tick of a command drives no line. -/
theorem outcomesAlike_acceptWord (w : Word) (e e' : Env) :
    OutcomesAlike (acceptWord w (withEnv e u)) (acceptWord w (withEnv e' u)) := by
  rw [acceptWord_withEnv, acceptWord_withEnv]
  refine outcomesAlike_mapNext_withEnv (fun t ha => ?_) e e'
  rwa [Undriven, (sameLines_of_acceptWord ha).pins]

end

/-! ### The tick -/

theorem step_of_resetTick {s : State} (hr : resetTick s = true) :
    step s = .next (hostReads (hostNow s) (applyReset (beginTick s))) := if_pos hr

/-- A tick whose drive fails is the tick whose drive is ok, but for the failure. -/
theorem outcomesAlike_step (s : State) (ds : List DriveStatus) (rs : List ReadResult) :
    OutcomesAlike (step (withEnv (.oracle (.ok :: ds) rs) s)) (step (withEnv (.oracle (.fail :: ds) rs) s)) := by
  have hstart (e : Env) : hostAccess (hostNow (withEnv e s)) (beginTick (withEnv e s)) =
      withEnv e (hostAccess (hostNow s) (beginTick s)) := hostAccess_withEnv e (beginTick s) (hostNow s)
  have hn : Undriven (hostAccess (hostNow s) (beginTick s)) := by simp [Undriven]
  cases hr : resetTick s with
  | true =>
    have hreset (e : Env) : step (withEnv e s) = .next (withEnv e (hostReads (hostNow s) (applyReset (beginTick s)))) := by
      rw [step_of_resetTick (s := withEnv e s) hr, ← hostReads_withEnv]
      rfl
    rw [hreset, hreset]
    exact .next (Undriven.driveFailed (by simp [Undriven, State.reset, PinOut.reset]) _ _)
  | false =>
    cases hc : cmdWrite (hostNow s).reg with
    | some w =>
      have hcmd (e : Env) : step (withEnv e s) = acceptWord w (withEnv e (hostAccess (hostNow s) (beginTick s))) := by
        rw [step_of_cmdWrite (s := withEnv e s) hr hc, hstart]
      rw [hcmd, hcmd]
      exact outcomesAlike_acceptWord hn w _ _
    | none =>
      have hwork (e : Env) : step (withEnv e s) = if writesRunningRange (hostNow s).buf s then .fault .hostWriteToRunningRange
          else if s.busy then engineTick (withEnv e (hostAccess (hostNow s) (beginTick s)))
          else .next (withEnv e (hostAccess (hostNow s) (beginTick s))) := by
        rw [tickWithoutCommand (withEnv e s) hr hc, writesRunningRange_withEnv, withEnv_busy, hstart]
        rfl
      rw [hwork, hwork]
      split
      · exact .fault _
      · split
        · exact outcomesAlike_engineTick hn ds rs
        · exact .next (hn.driveFailed _ _)

/-- Settles O52: the two ticks start alike, and of their actions only a drive uses the answer. -/
theorem driveStatusIsSwallowed : Obligations.DriveStatusIsSwallowed := by
  intro s ds rs
  have h := outcomesAlike_step s ds rs
  refine ⟨fun t ht => ?_, fun f hf => h.of_fault hf⟩
  obtain ⟨t', ht', hframe, htrace, hsclk, hmosi⟩ := h.of_next ht
  exact ⟨t', ht', hframe, htrace, hsclk, hmosi⟩

end Sys2Proof.Machine
end

section
/-! PROOFS. Host writes while a command runs (70_reset_and_hazards.md R107, R108): O53 and O54. -/

namespace Sys2Proof.Machine

/-! ### A byte write outside the cursor's byte commutes with the engine's tick -/

/-- The bytes keep their order whichever is written first: the lower address goes in before, at or after the head. -/
theorem Memory.write_comm (m : Memory) {a c : Nat} (h : a ≠ c) (v w : Byte) :
    Memory.write (Memory.write m a v) c w = Memory.write (Memory.write m c w) a v := by
  wlog hac : a < c generalizing a c v w
  · exact (this h.symm w v (by omega)).symm
  induction m with
  | nil => grind [Memory.write]
  | cons x m ih =>
    rcases Nat.lt_trichotomy a x.1 with ha | ha | ha <;> grind [Memory.write]

section
variable (a : Nat) (v : Byte) (s : State)

theorem memWrite_comm {c : Nat} (h : c ≠ a) (w : Byte) :
    memWrite c w (memWrite a v s) = memWrite a v (memWrite c w s) := by
  rw [memWrite, memWrite_buf, Memory.write_comm _ h.symm]
  rfl

theorem memRead_memWrite_other {c : Nat} (h : c ≠ a) : memRead c (memWrite a v s) = memRead c s := by
  rw [memRead_memWrite, if_neg h]

theorem endBit_memWrite : endBit (memWrite a v s) = memWrite a v (endBit s) := by
  unfold endBit
  rw [apply_ite (memWrite a v), apply_ite (memWrite a v)]
  rfl

theorem goto_memWrite (n : Option Phase) : goto n (memWrite a v s) = memWrite a v (goto n s) := by
  cases n
  · exact endBit_memWrite a v s
  · rfl

theorem advance_memWrite : advance (memWrite a v s) = memWrite a v (advance s) := by
  unfold advance
  rw [memWrite_eng, memWrite_cfg]
  cases s.eng.phase <;> dsimp only
  case driveData | sample => exact goto_memWrite ..
  case assertClock | activeWait =>
    split
    · rfl
    · exact goto_memWrite ..
  case deassertClock | idleWait =>
    split
    · rfl
    · exact endBit_memWrite ..
  all_goals rfl

theorem finishAction_memWrite : finishAction (memWrite a v s) = memWrite a v (finishAction s) := by
  simp only [finishAction, memWrite_busy, advance_memWrite]
  split <;> rfl

theorem updateByte_memWrite {c : Nat} (h : c ≠ a) (f : Byte → Byte) :
    updateByte c f (memWrite a v s) = mapNext (memWrite a v) (updateByte c f s) := by
  simp only [updateByte, memRead_memWrite_other a v s h]
  cases memRead c s with
  | none => rfl
  | some w => exact congrArg Host.Outcome.next (memWrite_comm a v s h _)

/-- Only DRIVE_DATA and SAMPLE use a byte of BUF, and of BUF only that byte. -/
theorem perform_memWrite {p : Phase} {c : Nat} (h : p = .driveData ∨ p = .sample → c ≠ a) (b : BitVec 3) :
    perform p c b (memWrite a v s) = mapNext (memWrite a v) (perform p c b s) := by
  cases p with
  | driveData =>
    simp only [perform, driveData, memRead_memWrite_other a v s (h (.inl rfl))]
    cases memRead c s <;> rfl
  | sample =>
    have hread : readMiso (memWrite a v s) = memWrite a v (readMiso s) := rfl
    simp only [perform, sample, hread, updateByte_memWrite a v (readMiso s) (h (.inr rfl)),
      show misoResult (memWrite a v s) = misoResult s from rfl]
    cases misoResult s <;> rfl
  | _ => rfl

theorem engineTick_memWrite (h : s.eng.phase = .driveData ∨ s.eng.phase = .sample → cursorAddress s ≠ a) :
    engineTick (memWrite a v s) = mapNext (memWrite a v) (engineTick s) := by
  have hp := perform_memWrite a v s h s.eng.bidx
  unfold engineTick
  rw [memWrite_eng, show cursorAddress (memWrite a v s) = cursorAddress s from rfl, hp]
  cases perform s.eng.phase (cursorAddress s) s.eng.bidx s with
  | next t => exact congrArg Host.Outcome.next (finishAction_memWrite a v t)
  | fault f => rfl
  | refused r => rfl

end

/-! ### The tick of a running command with one host write -/

/-- A host that neither resets the block nor writes CMD or the running range acts, and then the engine acts. -/
theorem step_running_host {s : State} (hb : s.busy = true) (hl : s.rstLast = false) {h : HostTick}
    (hr : h.rst = false) (hc : cmdWrite h.reg = none) (hw : writesRunningRange h.buf s = false) (hs : List HostTick) :
    step { s with hostIn := h :: hs } =
      engineTick (hostAccess h (beginTick { s with hostIn := HostTick.quiet :: hs })) := by
  have hreset : resetTick { s with hostIn := h :: hs } = false := by simp [resetTick, hostNow, hr, hl]
  have hbegin : beginTick { s with hostIn := h :: hs } = beginTick { s with hostIn := HostTick.quiet :: hs } := by
    simp [beginTick, hostNow, hr, HostTick.quiet]
  have hrange : ¬ writesRunningRange h.buf { s with hostIn := h :: hs } = true :=
    fun hw' => Bool.false_ne_true (hw.symm.trans hw')
  rw [tickWithoutCommand _ hreset hc, show hostNow { s with hostIn := h :: hs } = h from rfl,
    if_neg hrange, if_pos hb, hbegin]

/-- The engine's action does not see ARG, and keeps it (70_reset_and_hazards.md R107). -/
theorem engineTick_set_arg (v : Word) (s : State) :
    engineTick { s with arg := v } = mapNext (fun t => { t with arg := v }) (engineTick s) := by
  refine (engineTick_withPorts v s.regRdata s.bufRdata s).trans ?_
  cases ht : engineTick s with
  | next t =>
    rw [engineTick_frame ht]
    rfl
  | fault f => rfl
  | refused r => rfl

/-- Settles O53: the two ticks run the engine from states that differ in ARG, which it does not see. -/
theorem argWriteWhileBusyChangesArgOnly : Obligations.ArgWriteWhileBusyChangesArgOnly := by
  intro s v hs hb hl
  have hstep : step { s with hostIn := argTick v :: hs } =
      mapNext (fun t => { t with arg := v }) (step { s with hostIn := HostTick.quiet :: hs }) := by
    rw [step_running_host hb hl (h := argTick v) rfl rfl rfl, hostAccess_argTick, engineTick_set_arg,
      step_running_host hb hl (h := HostTick.quiet) rfl rfl rfl, hostAccess_quiet]
  exact ⟨fun t ht => by rw [hstep, ht]; rfl, fun f hf => by rw [hstep, hf]; rfl⟩

theorem hostAccess_bufWrite {a : Word} (ha : a.toNat < Config.bufSize) (v : Byte) (s : State) :
    hostAccess { rst := false, reg := .idle, buf := .write a v } s = memWrite a.toNat v s := if_pos ha

/-- An action on a byte works inside the range of a running WRITE or TRANSFER (20_memory.md R37). -/
theorem RunInv.cursorAddress_inRange {s : State} (h : RunInv s) (hp : s.eng.phase = .driveData ∨ s.eng.phase = .sample) :
    s.eng.opr ≠ .new ∧ s.eng.base.toNat ≤ cursorAddress s ∧
      cursorAddress s < s.eng.base.toNat + s.eng.len.toNat := by
  have ho : s.eng.opr ≠ .new := (guard_lines h.guarded h.active (by rcases hp with hp | hp <;> simp [hp])).1
  obtain ⟨hcursor, -⟩ := h.cursor ho
  exact ⟨ho, Nat.le_add_right _ _, Nat.add_lt_add_left hcursor _⟩

/-- Settles O54: the two ticks run the engine from states that differ in one byte, which is not the cursor's. -/
theorem hostWriteOutsideRunningRange : Obligations.HostWriteOutsideRunningRange := by
  intro s t a v hs hinv hb hl ha hout ht
  have hrange : writesRunningRange (.write a v) s = false := by
    refine Bool.eq_false_iff.2 fun hw => ?_
    obtain ⟨hrun, hlo, hhi⟩ := inRunningRange_iff.1 hw
    have ho : s.eng.opr ≠ .new := by simpa [streamRunning, hb] using hrun
    have := hout ho
    omega
  have hcursor (hp : s.eng.phase = .driveData ∨ s.eng.phase = .sample) : cursorAddress s ≠ a.toNat := by
    obtain ⟨ho, hlo, hhi⟩ := ((inv_iff.1 hinv).2.run hb).cursorAddress_inRange hp
    have := hout ho
    omega
  rw [step_running_host hb hl (h := HostTick.quiet) rfl rfl rfl, hostAccess_quiet] at ht
  refine ⟨memWrite a.toNat v t, ?_, rfl, fun x => memRead_memWrite a.toNat x v t⟩
  rw [step_running_host hb hl (h := ⟨false, .idle, .write a v⟩) rfl rfl hrange, hostAccess_bufWrite ha]
  exact (engineTick_memWrite a.toNat v (beginTick { s with hostIn := HostTick.quiet :: hs }) hcursor).trans
    (congrArg (mapNext _) ht)

end Sys2Proof.Machine
end

section
/-! PROOFS. Reset (70_reset_and_hazards.md R103, R104): O44, O57 and O58. -/

namespace Sys2Proof.Machine

/-- Settles O44: the state right after reset is a block in reset that the host does not read. -/
theorem invAtReset : Obligations.InvAtReset := inv_hostReads_applyReset HostTick.quiet State.reset

theorem regRead_reset (r : RegName) : regRead r State.reset = 0 := by cases r <;> rfl

/-- Settles O58: each register by itself, the rest by the definition of the reset state. -/
theorem stateAfterReset : Obligations.StateAfterReset :=
  ⟨regRead_reset, rfl, rfl, rfl, rfl, rfl, rfl, fun _ => rfl⟩

/-- The host's reads change no register. -/
theorem regRead_hostReads (r : RegName) (h : HostTick) (s : State) : regRead r (hostReads h s) = regRead r s := by
  rw [hostReads_frame]
  cases r <;> rfl

theorem regRead_applyReset (r : RegName) (s : State) : regRead r (applyReset s) = 0 := by
  rw [← regRead_reset r]
  cases r <;> rfl

/-- Settles O57: the tick is the host's reads of the reset block, and they change none of the fields named. -/
theorem resetTickResets : Obligations.ResetTickResets := by
  intro s h
  have hr : resetTick s = true := by simpa [resetTick] using h
  have hstep := step_of_resetTick hr
  obtain ⟨htrace, hsclk, hmosi, hmiso⟩ := noStrobe_of_resetTick hr hstep
  exact ⟨_, hstep, fun r => (regRead_hostReads r _ _).trans (regRead_applyReset r _), hostReads_busy _ _,
    hostReads_result _ _, hostReads_cfg _ _, hostReads_eng _ _, hsclk, hmosi, hmiso, hostReads_sclkLvl _ _,
    hostReads_mosiLvl _ _, fun a => memRead_eq_of_buf (hostReads_buf _ _) a, htrace⟩

end Sys2Proof.Machine
end
